-- ==== Sys2Proof/Word.lean ====
section
/-! DEFINITION. The word types of the RSCE: an 8-bit field element or byte (00_scope.md R8), a 32-bit register
(10_state.md R21, R23), a 4-bit slot field of the command word (30_encoding.md R91). -/

namespace Sys2Proof

/-- A field element, a matrix entry, a shard byte (00_scope.md R8). -/
abbrev Byte := BitVec 8

/-- A register or a command word (10_state.md R45, 30_encoding.md R90). -/
abbrev Word := BitVec 32

/-- A slot field MD, MA or MB of the command word (30_encoding.md R91). -/
abbrev SlotField := BitVec 4

end Sys2Proof
end

