-- ==== Sys2Proof/Machine/Raise.lean ====
section
/-! DEFINITION. The errors a command can complete with: the cause and detail codes of 60_exceptions.md R261 to R268,
and the ERR_INFO values of R269. -/

namespace Sys2Proof.Machine

/-- `raise CAUSE(DETAIL, info)` (00_scope.md R14): one constructor per detail of 60_exceptions.md R262 to R268. -/
inductive Raise where
  /-- CONFIG(DATA_NONPOSITIVE) (R262) -/
  | dataNonpositive
  /-- CONFIG(PARITY_NEGATIVE) (R262) -/
  | parityNegative
  /-- CONFIG(TOTAL_TOO_LARGE) (R262) -/
  | totalTooLarge
  /-- CONFIG(NOT_CONFIGURED) (R262) -/
  | notConfigured
  /-- RANGE(BAD_SLOT) (R263) -/
  | badSlot
  /-- RANGE(EMPTY_SLOT) (R263) -/
  | emptySlot
  /-- RANGE(INDEX) (R263) -/
  | index
  /-- RANGE(DIM_LIMIT) (R263) -/
  | dimLimit
  /-- RANGE(DIM_MISMATCH) (R263) -/
  | dimMismatch
  /-- RANGE(NOT_SQUARE) (R263) -/
  | notSquare
  /-- RANGE(FIELD_VALUE) (R263) -/
  | fieldValue
  /-- RANGE(NEGATIVE) (R263) -/
  | negative
  /-- RANGE(COUNT) (R263) -/
  | count
  /-- RANGE(DESC_INDEX) (R263) -/
  | descIndex
  /-- RANGE(BUF_BOUNDS) (R263) -/
  | bufBounds
  /-- RANGE(SHARD_COUNT) (R263) -/
  | shardCount
  /-- RANGE(SHARD_LENGTH) (R263) -/
  | shardLength
  /-- RANGE(ALIAS) (R263) -/
  | bufAlias
  /-- RANGE(TAG) (R263) -/
  | tag
  /-- RANGE(FASTPATH_ORDER) (R263) -/
  | fastpathOrder
  /-- INVERT(SINGULAR, info = row) (R264, R269) -/
  | singular (row : Nat)
  /-- INSUFFICIENT_SHARDS(0, info = present) (R265, R269) -/
  | insufficientShards (present : Nat)
  /-- ARITHMETIC(DIV_BY_ZERO) (R266) -/
  | divByZero
  /-- ARITHMETIC(ZERO_BY_ZERO) (R266) -/
  | zeroByZero
  /-- UNIMPLEMENTED(1) (R267) -/
  | unimplemented
  /-- ILLEGAL(BAD_OPCODE) (R268) -/
  | badOpcode
  /-- ILLEGAL(RESERVED_BITS) (R268) -/
  | reservedBits
  /-- ILLEGAL(UNUSED_FIELD) (R268) -/
  | unusedField
  deriving DecidableEq, Repr

/-- The cause code, ERR_CODE[7:0] (60_exceptions.md R261). -/
def Raise.cause : Raise → Byte
  | .dataNonpositive => 1
  | .parityNegative => 1
  | .totalTooLarge => 1
  | .notConfigured => 1
  | .badSlot => 2
  | .emptySlot => 2
  | .index => 2
  | .dimLimit => 2
  | .dimMismatch => 2
  | .notSquare => 2
  | .fieldValue => 2
  | .negative => 2
  | .count => 2
  | .descIndex => 2
  | .bufBounds => 2
  | .shardCount => 2
  | .shardLength => 2
  | .bufAlias => 2
  | .tag => 2
  | .fastpathOrder => 2
  | .singular _ => 3
  | .insufficientShards _ => 4
  | .divByZero => 5
  | .zeroByZero => 5
  | .unimplemented => 6
  | .badOpcode => 7
  | .reservedBits => 7
  | .unusedField => 7

/-- The detail code, ERR_CODE[15:8] (60_exceptions.md R262 to R268). -/
def Raise.detail : Raise → Byte
  | .dataNonpositive => 1
  | .parityNegative => 2
  | .totalTooLarge => 3
  | .notConfigured => 4
  | .badSlot => 1
  | .emptySlot => 2
  | .index => 3
  | .dimLimit => 4
  | .dimMismatch => 5
  | .notSquare => 6
  | .fieldValue => 7
  | .negative => 8
  | .count => 9
  | .descIndex => 10
  | .bufBounds => 11
  | .shardCount => 12
  | .shardLength => 13
  | .bufAlias => 14
  | .tag => 15
  | .fastpathOrder => 16
  | .singular _ => 1
  | .insufficientShards _ => 0
  | .divByZero => 1
  | .zeroByZero => 2
  | .unimplemented => 1
  | .badOpcode => 1
  | .reservedBits => 2
  | .unusedField => 3

/-- The `info` value, written to ERR_INFO (60_exceptions.md R269). -/
def Raise.info : Raise → Nat
  | .singular row => row
  | .insufficientShards present => present
  | _ => 0

end Sys2Proof.Machine
end

