-- ==== Sys2Proof/Config.lean ====
section
/-! DEFINITION. What is fixed for one machine: the sizes this spec fixes (00_scope.md R7), the two open parameters
FIELD_POLY and BUFMEM_BYTES (00_scope.md R6, R7), and the free values (93_implementation_defined.md U1). -/

namespace Sys2Proof

namespace Config

/-- NMAT, the number of matrix slots: 8 in this spec (00_scope.md R7; log 4). -/
abbrev nmat : Nat := 8

/-- NDESC, the number of buffer descriptors: 1024 in this spec (00_scope.md R7; log 4). -/
abbrev ndesc : Nat := 1024

/-- MAX_ROWS (00_scope.md R7). -/
abbrev maxRows : Nat := 256

/-- MAX_COLS (00_scope.md R7). -/
abbrev maxCols : Nat := 512

/-- MAX_TOTAL_SHARDS (00_scope.md R7). -/
abbrev maxTotalShards : Nat := 256

/-- DESIGN CHOICE (log 8; safe): the free values of the entries of a slot after a failed MGAUSS
(41_matrix.md R167, 93 U1): the n-th value drawn. Nothing constrains it. -/
opaque freeByte : Nat → Byte

/-- DESIGN CHOICE (log 15; safe): the quotient a / b where no element q has `gmul(q, b) = a`, which happens only
when FIELD_POLY is not irreducible, that is outside its range (93 P1). Nothing constrains it. -/
opaque freeQuotient : BitVec 9 → Byte → Byte → Byte

end Config

/-- The open parameters of 00_scope.md R7, arguments of the model: every statement is about every value of them
(log 3; MMIO_BASE, the third, appears nowhere since every offset is relative to it, log 5). -/
structure Params where
  /-- FIELD_POLY, a 9-bit value (00_scope.md R6). -/
  fieldPoly : BitVec 9
  /-- BUFMEM_BYTES, 1 to 2^32 (00_scope.md R7). -/
  bufBytes : Nat
  deriving DecidableEq, Repr

/-- The spec's defaults: FIELD_POLY = 0x11D, BUFMEM_BYTES = 2^20 (00_scope.md R6, R7; log 3). -/
def Params.default : Params := { fieldPoly := 0x11D, bufBytes := 2 ^ 20 }

end Sys2Proof
end

