-- ==== Sys2Proof/Syntax.lean ====
section
/-! DEFINITION. The 26 commands of 30_encoding.md R100, one constructor per row of spec/opcode_table.json. The
arguments are the slot fields the command uses, in the order MD, MA, MB (`d`, `a`, `b`); every integer operand is an
argument register (30_encoding.md R93). -/

namespace Sys2Proof

inductive Instr where
  /-- 44_control.md R240 -/
  | nop
  /-- 40_field.md R128 -/
  | fadd
  /-- 40_field.md R129 -/
  | fmul
  /-- 40_field.md R130 -/
  | fdiv
  /-- 40_field.md R131 -/
  | finv
  /-- 40_field.md R132 -/
  | fexp
  /-- 41_matrix.md R150 -/
  | mcreate (d : SlotField)
  /-- 41_matrix.md R151 -/
  | mident (d : SlotField)
  /-- 41_matrix.md R152 -/
  | mvand (d : SlotField)
  /-- 41_matrix.md R153 -/
  | mget (a : SlotField)
  /-- 41_matrix.md R154 -/
  | mset (d : SlotField)
  /-- 41_matrix.md R155 -/
  | mdim (a : SlotField)
  /-- 41_matrix.md R156 -/
  | mgetrow (a : SlotField)
  /-- 41_matrix.md R160 -/
  | msub (d a : SlotField)
  /-- 41_matrix.md R161 -/
  | maug (d a b : SlotField)
  /-- 41_matrix.md R162 -/
  | mswap (d : SlotField)
  /-- 41_matrix.md R163 -/
  | mtimes (d a b : SlotField)
  /-- 41_matrix.md R167 -/
  | mgauss (d : SlotField)
  /-- 41_matrix.md R168 -/
  | minv (d a : SlotField)
  /-- 42_coding_loop.md R181 -/
  | code (a : SlotField)
  /-- 42_coding_loop.md R185 -/
  | check (a : SlotField)
  /-- 43_erasure_coder.md R200 -/
  | config
  /-- 43_erasure_coder.md R205 -/
  | encode
  /-- 43_erasure_coder.md R210 -/
  | decode
  /-- 43_erasure_coder.md R220 -/
  | emget
  /-- 43_erasure_coder.md R221 -/
  | emexport (d : SlotField)
  deriving DecidableEq, Repr

end Sys2Proof
end

