-- ==== Sys2Proof/WellFormed.lean ====
section
/-! DEFINITION. A command is well formed when every slot field it uses names a slot: `< NMAT` (30_encoding.md R92,
R97 item 4). The machine does not assume it: a command that is not well formed completes with RANGE(BAD_SLOT). -/

namespace Sys2Proof

/-- The slot fields a command uses, in the order MD, MA, MB (30_encoding.md R97, R100, R101). -/
def Instr.slotFields : Instr → List SlotField
  | .nop => []
  | .fadd => []
  | .fmul => []
  | .fdiv => []
  | .finv => []
  | .fexp => []
  | .mcreate d => [d]
  | .mident d => [d]
  | .mvand d => [d]
  | .mget a => [a]
  | .mset d => [d]
  | .mdim a => [a]
  | .mgetrow a => [a]
  | .msub d a => [d, a]
  | .maug d a b => [d, a, b]
  | .mswap d => [d]
  | .mtimes d a b => [d, a, b]
  | .mgauss d => [d]
  | .minv d a => [d, a]
  | .code a => [a]
  | .check a => [a]
  | .config => []
  | .encode => []
  | .decode => []
  | .emget => []
  | .emexport d => [d]

/-- A slot field names a slot: it is less than NMAT (30_encoding.md R92). -/
def SlotField.ok (f : SlotField) : Bool := decide (f.toNat < Config.nmat)

/-- Every used slot field is less than NMAT (30_encoding.md R97 item 4). -/
def Instr.wellFormed (i : Instr) : Bool := i.slotFields.all SlotField.ok

end Sys2Proof
end

