-- ==== Sys2Proof/Decode.lean ====
section
/-! DEFINITION. The command word (30_encoding.md R91), its decoder, total on every word and rejecting by name
(R97 items 1 to 3, R98), and the encoder. RANGE(BAD_SLOT), R97 item 4, is the first check of each command's meaning. -/

namespace Sys2Proof

/-- OPC, bits [7:0] (30_encoding.md R91). -/
def opcField (w : Word) : Byte := w.extractLsb' 0 8

/-- MD, bits [11:8] (30_encoding.md R91). -/
def mdField (w : Word) : SlotField := w.extractLsb' 8 4

/-- MA, bits [15:12] (30_encoding.md R91). -/
def maField (w : Word) : SlotField := w.extractLsb' 12 4

/-- MB, bits [19:16] (30_encoding.md R91). -/
def mbField (w : Word) : SlotField := w.extractLsb' 16 4

/-- RSV, bits [31:20] (30_encoding.md R91). -/
def rsvField (w : Word) : BitVec 12 := w.extractLsb' 20 12

/-- A row of the opcode map (30_encoding.md R100): the opcode, which slot fields the command uses, and the command
those fields name. -/
structure OpRow where
  opc : Byte
  usesMd : Bool
  usesMa : Bool
  usesMb : Bool
  build : (d a b : SlotField) → Instr

/-- The opcode map of 30_encoding.md R100, row by row. -/
def opRows : List OpRow :=
  [ ⟨0x00, false, false, false, fun _ _ _ => .nop⟩,
    ⟨0x01, false, false, false, fun _ _ _ => .fadd⟩,
    ⟨0x02, false, false, false, fun _ _ _ => .fmul⟩,
    ⟨0x03, false, false, false, fun _ _ _ => .fdiv⟩,
    ⟨0x04, false, false, false, fun _ _ _ => .finv⟩,
    ⟨0x05, false, false, false, fun _ _ _ => .fexp⟩,
    ⟨0x10, true, false, false, fun d _ _ => .mcreate d⟩,
    ⟨0x11, true, false, false, fun d _ _ => .mident d⟩,
    ⟨0x12, true, false, false, fun d _ _ => .mvand d⟩,
    ⟨0x13, false, true, false, fun _ a _ => .mget a⟩,
    ⟨0x14, true, false, false, fun d _ _ => .mset d⟩,
    ⟨0x15, false, true, false, fun _ a _ => .mdim a⟩,
    ⟨0x16, false, true, false, fun _ a _ => .mgetrow a⟩ ] ++
  [ ⟨0x17, true, true, false, fun d a _ => .msub d a⟩,
    ⟨0x18, true, true, true, fun d a b => .maug d a b⟩,
    ⟨0x19, true, false, false, fun d _ _ => .mswap d⟩,
    ⟨0x1A, true, true, true, fun d a b => .mtimes d a b⟩,
    ⟨0x1B, true, false, false, fun d _ _ => .mgauss d⟩,
    ⟨0x1C, true, true, false, fun d a _ => .minv d a⟩,
    ⟨0x20, false, true, false, fun _ a _ => .code a⟩,
    ⟨0x21, false, true, false, fun _ a _ => .check a⟩,
    ⟨0x30, false, false, false, fun _ _ _ => .config⟩,
    ⟨0x31, false, false, false, fun _ _ _ => .encode⟩,
    ⟨0x32, false, false, false, fun _ _ _ => .decode⟩,
    ⟨0x33, false, false, false, fun _ _ _ => .emget⟩,
    ⟨0x34, true, false, false, fun d _ _ => .emexport d⟩ ]

/-- The row of an opcode, if it has one (30_encoding.md R97 item 1, R98). -/
def findRow (opc : Byte) : Option OpRow := opRows.find? fun r => r.opc == opc

/-- Some slot field the opcode does not use is not 0 (30_encoding.md R97 item 3). -/
def OpRow.unusedSet (r : OpRow) (w : Word) : Bool :=
  (!r.usesMd && mdField w != 0) || (!r.usesMa && maField w != 0) || (!r.usesMb && mbField w != 0)

/-- The decoder (30_encoding.md R97 items 1 to 3): ILLEGAL(BAD_OPCODE), then ILLEGAL(RESERVED_BITS), then
ILLEGAL(UNUSED_FIELD), then the command. -/
def decode (w : Word) : Except Machine.Raise Instr :=
  match findRow (opcField w) with
  | none => .error .badOpcode
  | some r =>
    if rsvField w ≠ 0 then .error .reservedBits
    else if r.unusedSet w then .error .unusedField
    else .ok (r.build (mdField w) (maField w) (mbField w))

/-- `{RSV, MB, MA, MD, OPC}` with RSV = 0 (30_encoding.md R91). -/
def commandWord (opc : Byte) (d a b : SlotField) : Word := (0 : BitVec 12) ++ b ++ a ++ d ++ opc

/-- The opcode of a command (30_encoding.md R100). -/
def Instr.opcode : Instr → Byte
  | .nop => 0x00
  | .fadd => 0x01
  | .fmul => 0x02
  | .fdiv => 0x03
  | .finv => 0x04
  | .fexp => 0x05
  | .mcreate _ => 0x10
  | .mident _ => 0x11
  | .mvand _ => 0x12
  | .mget _ => 0x13
  | .mset _ => 0x14
  | .mdim _ => 0x15
  | .mgetrow _ => 0x16
  | .msub _ _ => 0x17
  | .maug _ _ _ => 0x18
  | .mswap _ => 0x19
  | .mtimes _ _ _ => 0x1A
  | .mgauss _ => 0x1B
  | .minv _ _ => 0x1C
  | .code _ => 0x20
  | .check _ => 0x21
  | .config => 0x30
  | .encode => 0x31
  | .decode => 0x32
  | .emget => 0x33
  | .emexport _ => 0x34

/-- The command word of a command: its opcode, the slot fields it uses, 0 in the others (30_encoding.md R91, R100). -/
def encode (i : Instr) : Word :=
  match i with
  | .nop => commandWord i.opcode 0 0 0
  | .fadd => commandWord i.opcode 0 0 0
  | .fmul => commandWord i.opcode 0 0 0
  | .fdiv => commandWord i.opcode 0 0 0
  | .finv => commandWord i.opcode 0 0 0
  | .fexp => commandWord i.opcode 0 0 0
  | .mcreate d => commandWord i.opcode d 0 0
  | .mident d => commandWord i.opcode d 0 0
  | .mvand d => commandWord i.opcode d 0 0
  | .mget a => commandWord i.opcode 0 a 0
  | .mset d => commandWord i.opcode d 0 0
  | .mdim a => commandWord i.opcode 0 a 0
  | .mgetrow a => commandWord i.opcode 0 a 0
  | .msub d a => commandWord i.opcode d a 0
  | .maug d a b => commandWord i.opcode d a b
  | .mswap d => commandWord i.opcode d 0 0
  | .mtimes d a b => commandWord i.opcode d a b
  | .mgauss d => commandWord i.opcode d 0 0
  | .minv d a => commandWord i.opcode d a 0
  | .code a => commandWord i.opcode 0 a 0
  | .check a => commandWord i.opcode 0 a 0
  | .config => commandWord i.opcode 0 0 0
  | .encode => commandWord i.opcode 0 0 0
  | .decode => commandWord i.opcode 0 0 0
  | .emget => commandWord i.opcode 0 0 0
  | .emexport d => commandWord i.opcode d 0 0

/-- The command word made of the low `nbits` bits of `w`, the bits above being 0. A command is one 32-bit word
(30_encoding.md R90), so the host's numbering of bits is the word's own. -/
def tableWord (nbits w : Nat) : Word := BitVec.ofNat 32 (w % 2 ^ nbits)

/-- The instruction this decoder reads from the word; none where it rejects it (log 2). -/
def decodeTableWord (nbits w : Nat) : Option Instr :=
  match decode (tableWord nbits w) with
  | .ok i => some i
  | .error _ => none

end Sys2Proof
end

