-- ==== Sys2Proof/Machine/Gf.lean ====
section
/-! DEFINITION. GF(256): the field functions of 40_field.md R120 to R126, for any FIELD_POLY. -/

namespace Sys2Proof.Machine

/-- One step of the carry-less product: if `b[i] = 1`, add `a << i` (40_field.md R121). -/
def clStep (a b : Byte) (p : BitVec 15) (i : Nat) : BitVec 15 :=
  if b.getLsbD i then p ^^^ (a.zeroExtend 15 <<< i) else p

/-- The carry-less product, a 15-bit value (40_field.md R121, first loop). -/
def clmul (a b : Byte) : BitVec 15 := (List.range 8).foldl (clStep a b) 0

/-- One step of the reduction: if `p[k] = 1`, add `FIELD_POLY << (k - 8)` (40_field.md R121). -/
def redStep (poly : BitVec 9) (p : BitVec 15) (k : Nat) : BitVec 15 :=
  if p.getLsbD k then p ^^^ (poly.zeroExtend 15 <<< (k - 8)) else p

/-- The reduction modulo FIELD_POLY, k from 14 down to 8, and the low byte (40_field.md R121, second loop). -/
def reduce (poly : BitVec 9) (p : BitVec 15) : Byte :=
  ([14, 13, 12, 11, 10, 9, 8].foldl (redStep poly) p).truncate 8

/-- The field product (40_field.md R121). -/
def gmul (poly : BitVec 9) (a b : Byte) : Byte := reduce poly (clmul a b)

/-- The elements 1 to 255, ascending. -/
def nonzeroBytes : List Byte := (List.range 255).map fun n => BitVec.ofNat 8 (n + 1)

/-- The q in [1, 255] with `gmul(q, b) = a` (40_field.md R123). Under an irreducible FIELD_POLY it is unique for
a ≠ 0 and b ≠ 0 (R125); where there is none it is a free value (log 15). -/
def quotient (poly : BitVec 9) (a b : Byte) : Byte :=
  (nonzeroBytes.find? fun q => gmul poly q b == a).getD (Config.freeQuotient poly a b)

/-- Powers by squaring: `acc · b^n`, for `n < 2^fuel` (40_field.md R126 leaves the method free; log 14). -/
def gpowLoop (poly : BitVec 9) : (fuel n : Nat) → (acc b : Byte) → Byte
  | 0, _, acc, _ => acc
  | fuel + 1, n, acc, b =>
    if n = 0 then acc
    else gpowLoop poly fuel (n / 2) (if n % 2 = 1 then gmul poly acc b else acc) (gmul poly b b)

/-- The field power (40_field.md R126), for `n < 2^32`: equal to the repeated product (`gexp_eq_repeated`,
Laws/Field.lean). -/
def gexp (poly : BitVec 9) (a : Byte) (n : Nat) : Byte := gpowLoop poly 32 n 1 a

/-- `XOR_{0 ≤ i < n} f(i)`, 0 when n = 0 (00_scope.md R13). -/
def xorSum : (n : Nat) → (f : Nat → Byte) → Byte
  | 0, _ => 0
  | n + 1, f => xorSum n f ^^^ f n

/-- FIELD_POLY's range (00_scope.md R6): bit 8 set and irreducible, that is, no product of two polynomials of degree
1 or more. (Both factors have degree below 8, hence fit in a byte.) -/
def IrreduciblePoly (poly : BitVec 9) : Prop :=
  poly.getLsbD 8 = true ∧
    ∀ a b : Byte, 2 ≤ a.toNat → 2 ≤ b.toNat → clmul a b ≠ poly.zeroExtend 15

/-- The parameters' ranges (93 P1, P2). -/
def ParamsOk (p : Params) : Prop :=
  IrreduciblePoly p.fieldPoly ∧ 1 ≤ p.bufBytes ∧ p.bufBytes ≤ 2 ^ 32

/-- The table entry `MT[a][b]` (10_state.md R36). -/
def multab (poly : BitVec 9) (a b : Byte) : Byte := gmul poly a b

/-- Four table entries in one word, lowest index in bits [7:0] (20_memory.md R66): entry j of word w has index
`i = 4w + j`, `a = i[15:8]`, `b = i[7:0]`. -/
def multabWord (poly : BitVec 9) (w : Nat) : Word :=
  let entry (j : Nat) : Byte :=
    multab poly (BitVec.ofNat 8 ((4 * w + j) / 256)) (BitVec.ofNat 8 (4 * w + j))
  entry 3 ++ entry 2 ++ entry 1 ++ entry 0

end Sys2Proof.Machine
end

