-- ==== Sys2Proof/Machine/State.lean ====
section
/-! DEFINITION. The state of the RSCE (10_state.md R20, R43; 20_memory.md R62) as plain data, the reasons a step can
stop, and the state after a hardware reset (70_reset_and_hazards.md R290). -/

namespace Sys2Proof.Machine

/-- The buffer memory BUFMEM (20_memory.md R62, R65): the bytes that have a value, at strictly rising addresses. An
unlisted address has no value: reading it faults (log 6). -/
abbrev Memory := List Host.Cell

/-- The canonical form: addresses strictly rising. (Every listed byte has been written, so no entry equals what an
unlisted address reads as, which is no value.) -/
def Memory.wf (m : Memory) : Bool := decide ((m.map Prod.fst).Pairwise (· < ·))

/-- A matrix (10_state.md R30): its shape, and its entries row by row. -/
structure Matrix where
  rows : Nat
  cols : Nat
  e : List (List Byte)
  deriving DecidableEq, Repr

/-- The empty slot: 0 rows and 0 columns (00_scope.md R18, 10_state.md R30). -/
def Matrix.empty : Matrix := { rows := 0, cols := 0, e := [] }

/-- A buffer descriptor (10_state.md R40). -/
structure Desc where
  base : Word
  len : Word
  deriving DecidableEq, Repr

/-- What a descriptor holds after reset (10_state.md R40). -/
def Desc.zero : Desc := { base := 0, len := 0 }

/-- The coder state while CONFIGURED = 1 (10_state.md R33): D, P, EM (T × D) and PR (P × D); T = D + P. -/
structure Coder where
  d : Nat
  p : Nat
  em : Matrix
  pr : Matrix
  deriving DecidableEq, Repr

/-- T = D + P (10_state.md R33). -/
def Coder.t (c : Coder) : Nat := c.d + c.p

/-- The command in flight: the latched word and the snapshot of ARG0..ARG7 (10_state.md R43, 44_control.md R241). -/
structure Command where
  word : Word
  args : Vector Word 8
  deriving DecidableEq, Repr

/-- The engine run state (10_state.md R43). -/
inductive RunState where
  | idle
  | busy (cmd : Command)
  deriving DecidableEq, Repr

/-- What happens next, as the outside world has it (log 1). An MMIO access carries the word offset `offset[16:2]`
(20_memory.md R67); a buffer-port access carries a byte address (R68; log 22). -/
inductive Input where
  /-- the engine takes its step, if a command is in flight (70_reset_and_hazards.md R311) -/
  | engine
  /-- a host write of an MMIO word (44_control.md R241, R243, R244) -/
  | mmioWrite (off : BitVec 15) (v : Word)
  /-- a host read of an MMIO word (44_control.md R245) -/
  | mmioRead (off : BitVec 15)
  /-- a host write of a BUFMEM byte (20_memory.md R68) -/
  | bufWrite (addr : Nat) (v : Byte)
  /-- a host read of a BUFMEM byte (20_memory.md R68) -/
  | bufRead (addr : Nat)
  /-- a hardware reset (70_reset_and_hazards.md R290, R291) -/
  | hardReset
  deriving DecidableEq, Repr

/-- The state of the RSCE (10_state.md R20). The last three fields are the model's own. -/
structure State where
  /-- the parameters of this machine (00_scope.md R7; log 3): no step changes them -/
  par : Params
  /-- ARG0..ARG7 (10_state.md R21) -/
  args : Vector Word 8
  /-- RESULT0 (10_state.md R23) -/
  result0 : Word
  /-- RESULT1 (10_state.md R23) -/
  result1 : Word
  /-- CTRL.IE (10_state.md R26) -/
  ie : Bool
  /-- STATUS.DONE (10_state.md R27) -/
  done : Bool
  /-- STATUS.ERR (10_state.md R27) -/
  err : Bool
  /-- STATUS.OVERRUN (10_state.md R27) -/
  overrun : Bool
  /-- ERR_CODE (10_state.md R28) -/
  errCode : Word
  /-- ERR_INFO (10_state.md R28) -/
  errInfo : Word
  /-- Slot[0..NMAT-1] (10_state.md R30) -/
  slots : Vector Matrix Config.nmat
  /-- the coder state; none is CONFIGURED = 0 (10_state.md R33) -/
  coder : Option Coder
  /-- BD[0..NDESC-1] (10_state.md R40): index and descriptor, ascending, no entry equal to (0, 0), which every
  unlisted descriptor holds -/
  bd : List (Nat × Desc)
  /-- BUFMEM (20_memory.md R62) -/
  mem : Memory
  /-- the run state (10_state.md R43) -/
  run : RunState
  /-- SRST_PENDING (10_state.md R43) -/
  srstPending : Bool
  /-- MODEL's own (log 1): what happens next, oldest first -/
  inputs : List Input
  /-- MODEL's own (log 9): what the latest host read returned -/
  rdata : Word
  /-- MODEL's own (log 8): how many free values have been drawn -/
  draws : Nat
  deriving DecidableEq, Repr

/-- The reasons a step stops. Each is a case the spec asks a model to stop on (93 U2 to U4). -/
inductive Fault where
  /-- Raised by a command or a host read that reads a BUFMEM byte nothing has written (20_memory.md R65,
  70_reset_and_hazards.md R293; log 6). Safe: the hardware goes on with some byte, of which nothing is claimed. -/
  | unwrittenByte (addr : Nat)
  /-- Raised by a host access to BUFMEM, that is below BUFMEM_BYTES, while STATUS.BUSY = 1, which breaks host duty 1
  (70_reset_and_hazards.md R300, 20_memory.md R74 item 5; log 7). Safe: the hardware goes on with an unspecified
  outcome. -/
  | hostBufAccessWhileBusy
  /-- Raised by a host write to BD_BASE or BD_LEN while STATUS.BUSY = 1, which breaks host duty 2
  (70_reset_and_hazards.md R301; log 7). Safe: the hardware goes on with an unspecified outcome. -/
  | hostDescWriteWhileBusy
  deriving DecidableEq, Repr

/-- The reasons an instruction has no meaning in this model. -/
inductive Refusal where
  /-- Raised by an arm of `exec` whose instruction has no meaning yet (none has this now). Safe: the model stops. -/
  | notModelled (mnemonic : String)
  deriving DecidableEq, Repr

/-- The state after a hardware reset (70_reset_and_hazards.md R290), with the spec's default parameters (log 3). Every
register's value is the spec's; `inputs`, `rdata` and `draws` are the model's own (logs 1, 9, 8). -/
def State.reset : State :=
  { par := Params.default
    args := Vector.replicate 8 0
    result0 := 0
    result1 := 0
    ie := false
    done := false
    err := false
    overrun := false
    errCode := 0
    errInfo := 0
    slots := Vector.replicate Config.nmat Matrix.empty
    coder := none
    bd := []
    mem := []
    run := .idle
    srstPending := false
    inputs := []
    rdata := 0
    draws := 0 }

end Sys2Proof.Machine
end

