-- ==== Sys2Proof/Machine/Flags.lean ====
section
/-! DEFINITION. The flag computations: the ERR_CODE word (10_state.md R28), the STATUS and CTRL words as the host
reads them (R26, R27), the write-one-to-clear rule of STATUS (R27) and the IRQ output (R47). -/

namespace Sys2Proof.Machine

/-- A one-bit field as a 32-bit word. -/
def bit (b : Bool) : Word := if b then 1 else 0

/-- `{8'h00, OPC, DETAIL, CAUSE}` with OPC the bits [7:0] of the command word (10_state.md R28, 44_control.md R242). -/
def errCodeWord (word : Word) (detail cause : Byte) : Word :=
  (0 : BitVec 8) ++ word.extractLsb' 0 8 ++ detail ++ cause

/-- STATUS.BUSY: the run state is BUSY (10_state.md R43). -/
def State.busy (s : State) : Bool :=
  match s.run with
  | .idle => false
  | .busy _ => true

/-- STATUS.CONFIGURED: a CONFIG has succeeded (10_state.md R33). -/
def State.configured (s : State) : Bool := s.coder.isSome

/-- STATUS as the host reads it (10_state.md R27): BUSY, DONE, ERR, CONFIGURED, OVERRUN in bits 0 to 4. -/
def State.statusWord (s : State) : Word :=
  bit s.busy ||| (bit s.done <<< 1) ||| (bit s.err <<< 2) ||| (bit s.configured <<< 3) ||| (bit s.overrun <<< 4)

/-- CTRL as the host reads it (10_state.md R26): IE in bit 0; SRST and the reserved bits read 0. -/
def State.ctrlWord (s : State) : Word := bit s.ie

/-- A write of `v` to STATUS clears each of DONE, ERR and OVERRUN whose bit in `v` is 1 (10_state.md R27,
44_control.md R244). -/
def State.clearStatus (s : State) (v : Word) : State :=
  { s with
    done := s.done && !v.getLsbD 1
    err := s.err && !v.getLsbD 2
    overrun := s.overrun && !v.getLsbD 4 }

/-- IRQ = STATUS.DONE AND CTRL.IE (10_state.md R47, 60_exceptions.md R280). -/
def State.irq (s : State) : Bool := s.done && s.ie

end Sys2Proof.Machine
end

