-- ==== Sys2Proof/Machine/Ops.lean ====
section
/-! DEFINITION. The named operations over memory, registers, descriptors and slots, and how a command completes: with
success, or with an error (the one shared operation that takes an error, 60_exceptions.md R260). -/

namespace Sys2Proof.Machine

/-! ### Tables held as sorted lists -/

/-- The entry at a key, if there is one. -/
def tableGet {α : Type} : List (Nat × α) → Nat → Option α
  | [], _ => none
  | (k, v) :: rest, a => if k = a then some v else tableGet rest a

/-- Enter `v` at key `a`, keeping the keys strictly rising. -/
def tablePut {α : Type} : List (Nat × α) → Nat → α → List (Nat × α)
  | [], a, v => [(a, v)]
  | (k, w) :: rest, a, v =>
    if a < k then (a, v) :: (k, w) :: rest
    else if a = k then (a, v) :: rest
    else (k, w) :: tablePut rest a v

/-- Take out the entry at key `a`. -/
def tableDrop {α : Type} : List (Nat × α) → Nat → List (Nat × α)
  | [], _ => []
  | (k, w) :: rest, a => if k = a then rest else (k, w) :: tableDrop rest a

/-! ### Buffer memory -/

/-- The byte at an address, if something has written it (20_memory.md R63, R65). -/
def Memory.read (m : Memory) (addr : Nat) : Option Byte := tableGet m addr

/-- `MemWrite(addr, 1, v)` (20_memory.md R64). -/
def Memory.write (m : Memory) (addr : Nat) (v : Byte) : Memory := tablePut m addr v

/-- Write consecutive bytes from `addr` up. -/
def Memory.writeBlock : Memory → Nat → List Byte → Memory
  | m, _, [] => m
  | m, addr, b :: rest => Memory.writeBlock (m.write addr b) (addr + 1) rest

/-! ### How a command's check phase ends -/

/-- Why a command's phases stop short: an error of the hardware (00_scope.md R14, R15), or a fault of the model. -/
inductive Stop where
  | raise (r : Raise)
  | fault (f : Fault)
  deriving DecidableEq, Repr

/-- A computation of a command's check phase. -/
abbrev Check (α : Type) := Except Stop α

/-- `raise r` (00_scope.md R14). -/
def raising {α : Type} (r : Raise) : Check α := .error (.raise r)

/-- `if c: raise r`. -/
def raiseIf (c : Prop) [Decidable c] (r : Raise) : Check Unit := if c then raising r else .ok ()

/-- `MemRead(addr, 1)` (20_memory.md R63); a byte nothing has written faults (R65). -/
def State.readByte (s : State) (addr : Nat) : Check Byte :=
  match s.mem.read addr with
  | some b => .ok b
  | none => .error (.fault (.unwrittenByte addr))

/-- The `n` bytes from `addr` up. -/
def State.readBlock (s : State) : (addr n : Nat) → Check (List Byte)
  | _, 0 => .ok []
  | addr, n + 1 => do
    let b ← s.readByte addr
    let rest ← s.readBlock (addr + 1) n
    .ok (b :: rest)

/-! ### Registers, descriptors and slots -/

/-- Write BUFMEM. -/
def State.setMem (s : State) (m : Memory) : State := { s with mem := m }

/-- Write consecutive bytes of BUFMEM from `addr` up (20_memory.md R64). -/
def State.writeBlock (s : State) (addr : Nat) (bytes : List Byte) : State :=
  s.setMem (s.mem.writeBlock addr bytes)

/-- `RESULT0 <- v` (10_state.md R23). -/
def State.setResult0 (s : State) (v : Word) : State := { s with result0 := v }

/-- `RESULT1 <- v` (10_state.md R23). -/
def State.setResult1 (s : State) (v : Word) : State := { s with result1 := v }

/-- Slot[m] (10_state.md R30). -/
def State.slot (s : State) (m : SlotField) : Matrix := s.slots.toList.getD m.toNat Matrix.empty

/-- `Slot[m] <- A` (41_matrix.md R140). -/
def State.setSlot (s : State) (m : SlotField) (a : Matrix) : State :=
  { s with slots := s.slots.setIfInBounds m.toNat a }

/-- BD[k] (10_state.md R40): an unlisted descriptor holds (0, 0). -/
def State.desc (s : State) (k : Nat) : Desc := (tableGet s.bd k).getD Desc.zero

/-- Write BD[k], keeping the table's canonical form. -/
def State.setDesc (s : State) (k : Nat) (d : Desc) : State :=
  { s with bd := if d = Desc.zero then tableDrop s.bd k else tablePut s.bd k d }

/-- Write the coder state (10_state.md R33). -/
def State.setCoder (s : State) (c : Coder) : State := { s with coder := some c }

/-- The entries of a slot of this shape become free values (41_matrix.md R167, 93 U1; log 8): one draw for each. -/
def State.scrambleSlot (s : State) (m : SlotField) (rows cols : Nat) : State :=
  { s.setSlot m
      { rows := rows
        cols := cols
        e := (List.range rows).map fun r => (List.range cols).map fun c =>
          Config.freeByte (s.draws + r * cols + c) } with
    draws := s.draws + rows * cols }

/-- The command in flight. While the run state is IDLE, when no command runs, it reads as word 0 with the live ARG
registers (log 12: not reachable through `step`). -/
def State.cmd (s : State) : Command :=
  match s.run with
  | .idle => { word := 0, args := s.args }
  | .busy c => c

/-! ### Reset -/

/-- `soft_reset()` (44_control.md R246): every register, slot, descriptor and coder field to its reset value; BUFMEM
unchanged. The model's own fields are unchanged too. -/
def State.softReset (s : State) : State :=
  { State.reset with
    par := s.par
    mem := s.mem
    inputs := s.inputs
    rdata := s.rdata
    draws := s.draws }

/-- A hardware reset (70_reset_and_hazards.md R290, R291): as a soft reset, and no byte of BUFMEM has a value. -/
def State.hardReset (s : State) : State := { s.softReset with mem := [] }

/-! ### Acceptance and completion -/

/-- `accept(w)` (44_control.md R241): latch the word, snapshot ARG0..ARG7, run state BUSY. -/
def State.accept (s : State) (w : Word) : State := { s with run := .busy { word := w, args := s.args } }

/-- The end of a completion (44_control.md R242): DONE, run state IDLE, and the soft reset if one is pending. -/
def State.endCommand (s : State) : State :=
  let t := { s with done := true, run := .idle }
  if s.srstPending then t.softReset else t

/-- Completion with success (44_control.md R242): the report of the command, ERR unchanged. -/
def State.succeed (s : State) : State :=
  State.endCommand { s with errCode := errCodeWord s.cmd.word 0 0, errInfo := 0 }

/-- TAKING AN ERROR, the one shared operation (44_control.md R242, 60_exceptions.md R260, R270): the report
`{OPC, DETAIL, CAUSE}` and the info, ERR set, then the end of the completion. Nothing else is written. There is no
return from it: the next CMD write starts the next command (R260), and a host write to STATUS clears ERR
(`State.clearStatus`). -/
def State.failWith (s : State) (r : Raise) : State :=
  State.endCommand
    { s with
      errCode := errCodeWord s.cmd.word r.detail r.cause
      errInfo := BitVec.ofNat 32 r.info
      err := true }

/-- The engine's step for a command whose check and effect phases gave `c` from state `s` (44_control.md R242,
00_scope.md R15): on success the effects and the report; on an error the report alone, over `s`. -/
def finish (s : State) (c : Check State) : Host.Outcome State Fault Refusal :=
  match c with
  | .ok t => .next t.succeed
  | .error (.raise r) => .next (s.failWith r)
  | .error (.fault f) => .fault f

end Sys2Proof.Machine
end

