-- ==== Sys2Proof/Machine/Operands.lean ====
section
/-! DEFINITION. The operand forms: argument registers read as signed integers (30_encoding.md R94), field elements,
slot fields (R97 item 4, 41_matrix.md R141), descriptor runs and byte ranges with their checks (42_coding_loop.md
R182, R183), and blocks of buffer bytes. -/

namespace Sys2Proof.Machine

/-- `sint32(v)` (00_scope.md R12). -/
def sint32 (v : Word) : Int := v.toInt

/-- `u32(n)` (00_scope.md R12). -/
def u32 (n : Nat) : Word := BitVec.ofNat 32 n

/-- `zext32(v)` of an 8-bit value (00_scope.md R12). -/
def zext32 (v : Byte) : Word := v.zeroExtend 32

/-- The 8-bit value of an integer in [0, 255]. -/
def byteOfInt (v : Int) : Byte := BitVec.ofNat 8 v.toNat

/-- `ARG[i]`: the command's snapshot of argument register i, read through sint32 (00_scope.md R14). -/
def State.arg (s : State) (i : Fin 8) : Int := sint32 s.cmd.args[i]

/-- A field-element operand: outside [0, 255] it raises RANGE(FIELD_VALUE) (30_encoding.md R95). -/
def State.fieldArg (s : State) (i : Fin 8) : Check Byte := do
  raiseIf (s.arg i < 0 ∨ s.arg i > 255) .fieldValue
  .ok (byteOfInt (s.arg i))

/-- The slot fields a command uses, in the order MD, MA, MB: one ≥ NMAT raises RANGE(BAD_SLOT)
(30_encoding.md R97 item 4). -/
def checkSlots (fields : List SlotField) : Check Unit :=
  raiseIf ((fields.all fun f => decide (f.toNat < Config.nmat)) = false) .badSlot

/-- A matrix read from a slot: an empty slot (rows = 0) raises RANGE(EMPTY_SLOT) (41_matrix.md R141). -/
def State.readSlot (s : State) (m : SlotField) : Check Matrix := do
  raiseIf ((s.slot m).rows = 0) .emptySlot
  .ok (s.slot m)

/-- The coder state; CONFIGURED = 0 raises CONFIG(NOT_CONFIGURED) (10_state.md R33). -/
def State.readCoder (s : State) : Check Coder :=
  match s.coder with
  | some c => .ok c
  | none => raising .notConfigured

/-- BD[k].BASE as an address. -/
def State.base (s : State) (k : Nat) : Nat := (s.desc k).base.toNat

/-- BD[k].LEN as a length. -/
def State.len (s : State) (k : Nat) : Nat := (s.desc k).len.toNat

/-- A descriptor is well placed (10_state.md R41). -/
def State.wellPlaced (s : State) (k : Nat) : Bool := decide (s.base k + s.len k ≤ s.par.bufBytes)

/-- `if BD[k].BASE + BD[k].LEN > BUFMEM_BYTES: raise RANGE(BUF_BOUNDS)`, for each k (10_state.md R41). -/
def State.checkPlaced (s : State) (ks : List Nat) : Check Unit := raiseIf (ks.all s.wellPlaced = false) .bufBounds

/-- The run of descriptor indices `[base, base + count)` (10_state.md R40). -/
def descRun (base count : Int) : List Nat := List.range' base.toNat count.toNat

/-- A run of `count` descriptor indices from `base` outside [0, NDESC) raises RANGE(DESC_INDEX)
(60_exceptions.md R263). -/
def checkRun (base count : Int) : Check Unit := raiseIf (base < 0 ∨ base + count > Config.ndesc) .descIndex

/-- Two byte ranges `[a0, a1)` and `[b0, b1)` overlap (00_scope.md R16). -/
def overlap (r q : Nat × Nat) : Bool :=
  decide (r.1 < r.2) && decide (q.1 < q.2) && decide (r.1 < q.2) && decide (q.1 < r.2)

/-- Two ranges at distinct places of a list overlap. -/
def somePairOverlaps : List (Nat × Nat) → Bool
  | [] => false
  | r :: rest => rest.any (overlap r) || somePairOverlaps rest

/-- Two of the written ranges overlap, or a written range overlaps a read one (20_memory.md R79). -/
def buffersAlias (reads writes : List (Nat × Nat)) : Bool :=
  somePairOverlaps writes || writes.any fun w => reads.any (overlap w)

/-- The touched range of descriptor k (42_coding_loop.md R182). -/
def State.touched (s : State) (off cnt : Nat) (k : Nat) : Nat × Nat := (s.base k + off, s.base k + off + cnt)

/-- `rangecheck(K, off, cnt)` (42_coding_loop.md R183). -/
def State.rangeCheck (s : State) (ks : List Nat) (off cnt : Nat) : Check Unit := do
  s.checkPlaced ks
  raiseIf ((ks.all fun k => decide (off + cnt ≤ s.len k)) = false) .bufBounds

/-- `aliascheck(IN, OUT, off, cnt)` (42_coding_loop.md R182). -/
def State.aliasCheck (s : State) (ins outs : List Nat) (off cnt : Nat) : Check Unit :=
  raiseIf (buffersAlias (ins.map (s.touched off cnt)) (outs.map (s.touched off cnt)) = true) .bufAlias

/-- The lengths BD[k].LEN, k in K, are all equal (43_erasure_coder.md R205, R210). -/
def State.sameLengths (s : State) : List Nat → Bool
  | [] => true
  | k :: rest => rest.all fun j => decide (s.len j = s.len k)

/-- The bytes `[off, off + cnt)` of each buffer of a list, in order. -/
def State.readBlocks (s : State) (off cnt : Nat) : List Nat → Check (List (List Byte))
  | [] => .ok []
  | k :: rest => do
    let block ← s.readBlock (s.base k + off) cnt
    let blocks ← s.readBlocks off cnt rest
    .ok (block :: blocks)

/-- Write each block at offset `off` of the buffer named beside it. -/
def State.writeBlocks (off : Nat) : State → List (Nat × List Byte) → State
  | s, [] => s
  | s, (k, block) :: rest => State.writeBlocks off (s.writeBlock (s.base k + off) block) rest

end Sys2Proof.Machine
end

