-- ==== Sys2Proof/Machine/Control.lean ====
section
/-! DEFINITION. The control command: NOP (44_control.md R240). -/

namespace Sys2Proof.Machine

/-- NOP (44_control.md R240): nothing but its completion. -/
def execNop (s : State) : Host.Outcome State Fault Refusal := finish s (.ok s)

end Sys2Proof.Machine
end

