-- ==== Sys2Proof/Machine/Mat.lean ====
section
/-! DEFINITION. The matrix functions of 41_matrix.md R142 to R146, R165, R169 and 43_erasure_coder.md R201, on matrix
values. The commands call them. -/

namespace Sys2Proof.Machine

/-- `A[r]`, a row. -/
def Matrix.row (a : Matrix) (r : Nat) : List Byte := a.e.getD r []

/-- `A[r][c]`. -/
def Matrix.get (a : Matrix) (r c : Nat) : Byte := (a.row r).getD c 0

/-- The rows × cols matrix with `A[r][c] = f r c`. -/
def Matrix.build (rows cols : Nat) (f : Nat → Nat → Byte) : Matrix :=
  { rows := rows, cols := cols, e := (List.range rows).map fun r => (List.range cols).map (f r) }

/-- `zeros(r, c)` (41_matrix.md R142). -/
def Matrix.zeros (rows cols : Nat) : Matrix := Matrix.build rows cols fun _ _ => 0

/-- `identity(n)` (41_matrix.md R142). -/
def Matrix.identity (n : Nat) : Matrix := Matrix.build n n fun r c => if r = c then 1 else 0

/-- `vandermonde(rows, cols)`: `V[r][c] = gexp(r, c)` (41_matrix.md R143). -/
def Matrix.vandermonde (poly : BitVec 9) (rows cols : Nat) : Matrix :=
  Matrix.build rows cols fun r c => gexp poly (BitVec.ofNat 8 r) c

/-- `mtimes(A, B)` (41_matrix.md R144). -/
def Matrix.mtimes (poly : BitVec 9) (a b : Matrix) : Matrix :=
  Matrix.build a.rows b.cols fun r c => xorSum a.cols fun i => gmul poly (a.get r i) (b.get i c)

/-- `maugment(A, B)` (41_matrix.md R145). -/
def Matrix.maugment (a b : Matrix) : Matrix :=
  Matrix.build a.rows (a.cols + b.cols) fun r c => if c < a.cols then a.get r c else b.get r (c - a.cols)

/-- `msub(A, r0, c0, r1, c1)` (41_matrix.md R146). -/
def Matrix.msub (a : Matrix) (r0 c0 r1 c1 : Nat) : Matrix :=
  Matrix.build (r1 - r0) (c1 - c0) fun r c => a.get (r0 + r) (c0 + c)

/-- `A` with entry (row, col) replaced (41_matrix.md R154). -/
def Matrix.setEntry (a : Matrix) (row col : Nat) (v : Byte) : Matrix :=
  { a with e := a.e.set row ((a.row row).set col v) }

/-- `A` with rows i and j exchanged whole (41_matrix.md R162). -/
def Matrix.swapRows (a : Matrix) (i j : Nat) : Matrix :=
  { a with e := (a.e.set i (a.row j)).set j (a.row i) }

/-! ### Gaussian elimination (41_matrix.md R165) -/

/-- `for c: W[r][c] <- gmul(W[r][c], s)`. -/
def Matrix.scaleRow (poly : BitVec 9) (w : Matrix) (r : Nat) (s : Byte) : Matrix :=
  { w with e := w.e.set r ((w.row r).map fun x => gmul poly x s) }

/-- `for c: W[dst][c] <- W[dst][c] XOR gmul(s, W[src][c])`. -/
def Matrix.addRow (poly : BitVec 9) (w : Matrix) (dst src : Nat) (s : Byte) : Matrix :=
  { w with e := w.e.set dst (List.zipWith (fun x y => x ^^^ gmul poly s y) (w.row dst) (w.row src)) }

/-- `if W[dst][col] != 0: s <- W[dst][col]; row dst <- row dst XOR s · row src`. -/
def Matrix.clearEntry (poly : BitVec 9) (col src : Nat) (w : Matrix) (dst : Nat) : Matrix :=
  if w.get dst col = 0 then w else w.addRow poly dst src (w.get dst col)

/-- Bring the first row below r with a non-zero entry in column r into row r, if `W[r][r] = 0` and there is one. -/
def Matrix.choosePivot (w : Matrix) (r : Nat) : Matrix :=
  if w.get r r = 0 then
    match (List.range' (r + 1) (w.rows - (r + 1))).find? fun rb => w.get rb r != 0 with
    | some rb => w.swapRows r rb
    | none => w
  else w

/-- Scale row r so that its diagonal entry becomes 1. -/
def Matrix.scalePivot (poly : BitVec 9) (w : Matrix) (r : Nat) : Matrix :=
  if w.get r r = 1 then w else w.scaleRow poly r (quotient poly 1 (w.get r r))

/-- Clear column r in each of the rows listed, in that order, with row r. -/
def Matrix.clearColumn (poly : BitVec 9) (w : Matrix) (r : Nat) (dsts : List Nat) : Matrix :=
  dsts.foldl (Matrix.clearEntry poly r r) w

/-- Phase 1 at row r: pivot, the singularity check (`.error r`), scaling, clearing below. -/
def Matrix.reduceRow (poly : BitVec 9) (w : Matrix) (r : Nat) : Except Nat Matrix :=
  let w1 := w.choosePivot r
  if w1.get r r = 0 then .error r
  else .ok ((w1.scalePivot poly r).clearColumn poly r (List.range' (r + 1) (w.rows - (r + 1))))

/-- Phase 1 over the rows listed, in order. -/
def Matrix.reduceRows (poly : BitVec 9) : Matrix → List Nat → Except Nat Matrix
  | w, [] => .ok w
  | w, r :: rest =>
    match w.reduceRow poly r with
    | .ok w' => Matrix.reduceRows poly w' rest
    | .error row => .error row

/-- Phase 2: for each column d, clear above the diagonal. -/
def Matrix.backSubstitute (poly : BitVec 9) (w : Matrix) : Matrix :=
  (List.range w.rows).foldl (fun v d => v.clearColumn poly d (List.range d)) w

/-- `gauss(W)` (41_matrix.md R165): the reduced matrix, or the pivot row at which W is found singular. -/
def Matrix.gauss (poly : BitVec 9) (w : Matrix) : Except Nat Matrix :=
  match w.reduceRows poly (List.range w.rows) with
  | .ok w' => .ok (w'.backSubstitute poly)
  | .error row => .error row

/-- `minvert(A)` (41_matrix.md R169). -/
def Matrix.minvert (poly : BitVec 9) (a : Matrix) : Except Nat Matrix :=
  match (a.maugment (Matrix.identity a.rows)).gauss poly with
  | .ok w => .ok (w.msub 0 a.rows a.rows (2 * a.rows))
  | .error row => .error row

/-- An elimination inside a command: its failure raises INVERT(SINGULAR, info = row) (41_matrix.md R165). -/
def orSingular {α : Type} (x : Except Nat α) : Check α :=
  match x with
  | .ok v => .ok v
  | .error row => raising (.singular row)

/-- `buildEM(D, P)` (43_erasure_coder.md R201). The rule says `minvert` never raises here; its failure is kept as
INVERT(SINGULAR), which no parameter in range reaches (log 16). -/
def buildEM (poly : BitVec 9) (d p : Nat) : Check Matrix := do
  let v := Matrix.vandermonde poly (d + p) d
  let inv ← orSingular ((v.msub 0 0 d d).minvert poly)
  .ok (v.mtimes poly inv)

end Sys2Proof.Machine
end

