-- ==== Sys2Proof/Machine/Loop.lean ====
section
/-! DEFINITION. The matrix-vector multiply-accumulate unit: the coding loop and the commands CODE and CHECK
(42_coding_loop.md R180 to R185). -/

namespace Sys2Proof.Machine

/-- One output of the coding loop over a byte range (42_coding_loop.md R180): byte j of the range is
`XOR_{0 ≤ i < n} gmul(row[i], ins[i][j])`, where `ins` holds the n inputs cut to the range of `cnt` bytes. -/
def codeRow (poly : BitVec 9) (ins : List (List Byte)) (cnt : Nat) (row : List Byte) : List Byte :=
  (List.range cnt).map fun j =>
    xorSum ins.length fun i => gmul poly (row.getD i 0) ((ins.getD i []).getD j 0)

/-- `codeloop` over buffers (42_coding_loop.md R180): all reads before any write. With no output nothing is read
(log 17). -/
def State.codeLoop (s : State) (rows : List (List Byte)) (ins outs : List Nat) (off cnt : Nat) : Check State :=
  if outs.isEmpty then .ok s
  else do
    let blocks ← s.readBlocks off cnt ins
    .ok (State.writeBlocks off s (outs.zip (rows.map (codeRow s.par.fieldPoly blocks cnt))))

/-- CODE (42_coding_loop.md R181). -/
def execCode (a : SlotField) (s : State) : Host.Outcome State Fault Refusal :=
  finish s do
    checkSlots [a]
    let m ← s.readSlot a
    let row0 := s.arg 0
    let inBase := s.arg 1
    let inCount := s.arg 2
    let outBase := s.arg 3
    let outCount := s.arg 4
    let offset := s.arg 5
    let byteCount := s.arg 6
    raiseIf (inCount < 1 ∨ inCount > m.cols) .count
    raiseIf (outCount < 0) .count
    raiseIf (row0 < 0 ∨ row0 + outCount > m.rows) .index
    raiseIf (offset < 0 ∨ byteCount < 0) .negative
    checkRun inBase inCount
    checkRun outBase outCount
    let ins := descRun inBase inCount
    let outs := descRun outBase outCount
    s.rangeCheck (ins ++ outs) offset.toNat byteCount.toNat
    s.aliasCheck ins outs offset.toNat byteCount.toNat
    let rows := (List.range' row0.toNat outCount.toNat).map fun r => (m.row r).take inCount.toNat
    s.codeLoop rows ins outs offset.toNat byteCount.toNat

/-- CHECK (42_coding_loop.md R185): UNIMPLEMENTED(1), every time. -/
def execCheck (a : SlotField) (s : State) : Host.Outcome State Fault Refusal :=
  finish s do
    checkSlots [a]
    raising .unimplemented

end Sys2Proof.Machine
end

