-- ==== Sys2Proof/Machine/ErasureCoder.lean ====
section
/-! DEFINITION. The Reed-Solomon encoder/decoder datapath: CONFIG, ENCODE, DECODE, EMGET, EMEXPORT
(43_erasure_coder.md R200, R205, R210 to R213, R220, R221). -/

namespace Sys2Proof.Machine

/-- CONFIG (43_erasure_coder.md R200). CFG_D, CFG_P, CFG_T and STATUS.CONFIGURED are views of the coder state. -/
def execConfig (s : State) : Host.Outcome State Fault Refusal :=
  finish s do
    raiseIf (s.arg 0 ≤ 0) .dataNonpositive
    raiseIf (s.arg 1 < 0) .parityNegative
    raiseIf (s.arg 0 + s.arg 1 > Config.maxTotalShards) .totalTooLarge
    let d := (s.arg 0).toNat
    let p := (s.arg 1).toNat
    let em ← buildEM s.par.fieldPoly d p
    .ok (s.setCoder { d := d, p := p, em := em, pr := em.msub d 0 (d + p) d })

/-- ENCODE (43_erasure_coder.md R205, R206). -/
def execEncode (s : State) : Host.Outcome State Fault Refusal :=
  finish s do
    let c ← s.readCoder
    let shardBase := s.arg 0
    let shardCount := s.arg 1
    let offset := s.arg 2
    let byteCount := s.arg 3
    raiseIf (shardCount ≠ c.t) .shardCount
    raiseIf (offset < 0 ∨ byteCount < 0) .negative
    checkRun shardBase c.t
    let ks := descRun shardBase c.t
    s.checkPlaced ks
    raiseIf (s.sameLengths ks = false) .shardLength
    let ins := ks.take c.d
    let outs := ks.drop c.d
    s.rangeCheck (ins ++ outs) offset.toNat byteCount.toNat
    s.aliasCheck ins outs offset.toNat byteCount.toNat
    s.codeLoop c.pr.e ins outs offset.toNat byteCount.toNat

/-! ### DECODE -/

/-- A present raw descriptor and its tag (43_erasure_coder.md R211). -/
structure Tagged where
  desc : Nat
  tag : Nat
  deriving DecidableEq, Repr

/-- `tag(k) := MemRead(BD[k].BASE, 1)` for each k, in order (43_erasure_coder.md R210). -/
def State.readTags (s : State) : List Nat → Check (List Tagged)
  | [] => .ok []
  | k :: rest => do
    let b ← s.readByte (s.base k)
    let tags ← s.readTags rest
    .ok ({ desc := k, tag := b.toNat } :: tags)

/-- Two entries of a list are equal. -/
def hasDuplicate : List Nat → Bool
  | [] => false
  | x :: rest => rest.contains x || hasDuplicate rest

/-- The present raw descriptor that carries tag t, if any (43_erasure_coder.md R213). -/
def findTag (pres : List Tagged) (t : Nat) : Option Nat := (pres.find? fun x => x.tag == t).map Tagged.desc

/-- The output checks of both paths (43_erasure_coder.md R212): each output holds L bytes, and no output range
overlaps another output's or a present raw buffer. -/
def State.checkOutputs (s : State) (pres : List Tagged) (outs : List Nat) (l : Nat) : Check Unit := do
  raiseIf ((outs.all fun o => decide (l ≤ s.len o)) = false) .bufBounds
  raiseIf
    (buffersAlias (pres.map fun x => (s.base x.desc, s.base x.desc + s.len x.desc))
      (outs.map fun o => (s.base o, s.base o + l)) = true) .bufAlias

/-- The payload, of L bytes, of a present raw descriptor (43_erasure_coder.md R211). -/
def State.payload (s : State) (l k : Nat) : Check (List Byte) := s.readBlock (s.base k + 1) l

/-- The payloads of the shards listed, in order: none for an absent one. -/
def State.payloads (s : State) (pres : List Tagged) (l : Nat) : List Nat → Check (List (Option (List Byte)))
  | [] => .ok []
  | t :: rest => do
    match findTag pres t with
    | none =>
      let more ← s.payloads pres l rest
      .ok (none :: more)
    | some k =>
      let bytes ← s.payload l k
      let more ← s.payloads pres l rest
      .ok (some bytes :: more)

/-- Fast path (43_erasure_coder.md R212): whole payloads of the data shards to OUT[0 .. D). -/
def State.decodeFast (s : State) (c : Coder) (pres : List Tagged) (outs : List Nat) (l : Nat) : Check State := do
  let dataTags := (pres.map Tagged.tag).filter fun t => decide (t < c.d)
  raiseIf (dataTags ≠ List.range c.d) .fastpathOrder
  let w := outs.take c.d
  s.checkOutputs pres w l
  let shards ← s.payloads pres l (List.range c.d)
  let written := State.writeBlocks 0 s (w.zip (shards.map fun x => x.getD []))
  .ok ((written.setResult0 (u32 c.d)).setResult1 1)

/-- The bytes `[off, off + cnt)` of a shard. -/
def cut (off cnt : Nat) (bytes : List Byte) : List Byte := (bytes.drop off).take cnt

/-- L bytes, zero but for the range `[off, off + cnt)` (43_erasure_coder.md R213: L zero bytes, then the loop). -/
def spliceZero (l off cnt : Nat) (bytes : List Byte) : List Byte :=
  List.replicate off 0 ++ bytes ++ List.replicate (l - (off + cnt)) 0

/-- A shard as decoded: its payload when present, else the rebuilt bytes inside the range and 0 outside it
(43_erasure_coder.md R213, R214). -/
def rebuild (poly : BitVec 9) (ins : List (List Byte)) (l off cnt : Nat) (row : List Byte)
    (present : Option (List Byte)) : List Byte :=
  match present with
  | some bytes => bytes
  | none => spliceZero l off cnt (codeRow poly ins cnt row)

/-- The D × D matrix of the rows of EM of the shards chosen (43_erasure_coder.md R213). -/
def chosenRows (c : Coder) (chosen : List Nat) : Matrix :=
  Matrix.build c.d c.d fun r k => c.em.get (chosen.getD r 0) k

/-- General path (43_erasure_coder.md R213): all T shards to OUT. -/
def State.decodeGeneral (s : State) (c : Coder) (pres : List Tagged) (outs : List Nat) (l off cnt : Nat) :
    Check State := do
  s.checkOutputs pres outs l
  let chosen := ((List.range c.t).filter fun t => (findTag pres t).isSome).take c.d
  let inv ← orSingular ((chosenRows c chosen).minvert s.par.fieldPoly)
  let shards ← s.payloads pres l (List.range c.t)
  let ins := chosen.map fun t => cut off cnt ((shards.getD t none).getD [])
  let dataShards := (List.range c.d).map fun t =>
    rebuild s.par.fieldPoly ins l off cnt (inv.row t) (shards.getD t none)
  let dataIns := dataShards.map (cut off cnt)
  let parityShards := (List.range c.p).map fun i =>
    rebuild s.par.fieldPoly dataIns l off cnt (c.pr.row i) (shards.getD (c.d + i) none)
  let written := State.writeBlocks 0 s (outs.zip (dataShards ++ parityShards))
  .ok ((written.setResult0 (u32 c.d)).setResult1 0)

/-- DECODE (43_erasure_coder.md R210 to R213). -/
def execDecode (s : State) : Host.Outcome State Fault Refusal :=
  finish s do
    let c ← s.readCoder
    let rawBase := s.arg 0
    let rawCount := s.arg 1
    let outBase := s.arg 2
    let offset := s.arg 3
    let byteCount := s.arg 4
    raiseIf (rawCount < 0 ∨ rawCount > c.t) .count
    raiseIf (offset < 0 ∨ byteCount < 0) .negative
    checkRun rawBase rawCount
    checkRun outBase c.t
    let raw := descRun rawBase rawCount
    let outs := descRun outBase c.t
    s.checkPlaced (raw ++ outs)
    let presDescs := raw.filter fun k => decide (s.len k > 0)
    let fast := decide (rawCount = c.t) && decide (presDescs.length = c.t)
    raiseIf (fast = false ∧ presDescs.length < c.d) (.insufficientShards presDescs.length)
    let pres ← s.readTags presDescs
    raiseIf ((pres.any fun x => decide (x.tag ≥ c.t)) = true ∨ hasDuplicate (pres.map Tagged.tag) = true) .tag
    raiseIf (s.sameLengths presDescs = false) .shardLength
    let l := s.len (presDescs.headD 0) - 1
    raiseIf (offset + byteCount > l) .bufBounds
    if fast then s.decodeFast c pres outs l
    else s.decodeGeneral c pres outs l offset.toNat byteCount.toNat

/-! ### Reading the encoding matrix -/

/-- EMGET (43_erasure_coder.md R220). -/
def execEmget (s : State) : Host.Outcome State Fault Refusal :=
  finish s do
    let c ← s.readCoder
    raiseIf (s.arg 0 < 0 ∨ s.arg 0 ≥ c.t ∨ s.arg 1 < 0 ∨ s.arg 1 ≥ c.d) .index
    .ok (s.setResult0 (zext32 (c.em.get (s.arg 0).toNat (s.arg 1).toNat)))

/-- EMEXPORT (43_erasure_coder.md R221). -/
def execEmexport (d : SlotField) (s : State) : Host.Outcome State Fault Refusal :=
  finish s do
    checkSlots [d]
    let c ← s.readCoder
    .ok (s.setSlot d c.em)

end Sys2Proof.Machine
end

