-- ==== Sys2Proof/Machine/Field.lean ====
section
/-! DEFINITION. The field commands FADD, FMUL, FDIV, FINV, FEXP (40_field.md R128 to R132). -/

namespace Sys2Proof.Machine

/-- `gdiv(a, b)` (40_field.md R123): ARITHMETIC(DIV_BY_ZERO), ARITHMETIC(ZERO_BY_ZERO), 0 for a = 0, the quotient. -/
def gdiv (poly : BitVec 9) (a b : Byte) : Check Byte := do
  raiseIf (b = 0 ∧ a ≠ 0) .divByZero
  raiseIf (b = 0 ∧ a = 0) .zeroByZero
  .ok (if a = 0 then 0 else quotient poly a b)

/-- FADD (40_field.md R128). -/
def execFadd (s : State) : Host.Outcome State Fault Refusal :=
  finish s do
    let a ← s.fieldArg 0
    let b ← s.fieldArg 1
    .ok (s.setResult0 (zext32 (a ^^^ b)))

/-- FMUL (40_field.md R129). -/
def execFmul (s : State) : Host.Outcome State Fault Refusal :=
  finish s do
    let a ← s.fieldArg 0
    let b ← s.fieldArg 1
    .ok (s.setResult0 (zext32 (gmul s.par.fieldPoly a b)))

/-- FDIV (40_field.md R130). -/
def execFdiv (s : State) : Host.Outcome State Fault Refusal :=
  finish s do
    let a ← s.fieldArg 0
    let b ← s.fieldArg 1
    let q ← gdiv s.par.fieldPoly a b
    .ok (s.setResult0 (zext32 q))

/-- FINV (40_field.md R131). -/
def execFinv (s : State) : Host.Outcome State Fault Refusal :=
  finish s do
    let a ← s.fieldArg 0
    let q ← gdiv s.par.fieldPoly 1 a
    .ok (s.setResult0 (zext32 q))

/-- FEXP (40_field.md R132). -/
def execFexp (s : State) : Host.Outcome State Fault Refusal :=
  finish s do
    let base ← s.fieldArg 0
    raiseIf (s.arg 1 < 0) .negative
    .ok (s.setResult0 (zext32 (gexp s.par.fieldPoly base (s.arg 1).toNat)))

end Sys2Proof.Machine
end

