-- ==== Sys2Proof/Machine/MatrixAccess.lean ====
section
/-! DEFINITION. Construction, access and shape commands (41_matrix.md R150 to R156). -/

namespace Sys2Proof.Machine

/-- Rows outside [1, MAX_ROWS] or columns outside [1, MAX_COLS] raise RANGE(DIM_LIMIT) (41_matrix.md R150, R152). -/
def checkDims (rows cols : Int) : Check Unit :=
  raiseIf (rows < 1 ∨ rows > Config.maxRows ∨ cols < 1 ∨ cols > Config.maxCols) .dimLimit

/-- An entry outside the matrix raises RANGE(INDEX) (41_matrix.md R153, R154). -/
def Matrix.checkIndex (a : Matrix) (row col : Int) : Check Unit :=
  raiseIf (row < 0 ∨ row ≥ a.rows ∨ col < 0 ∨ col ≥ a.cols) .index

/-- The MSET value: 256 added when negative; outside [0, 255] after that, RANGE(FIELD_VALUE) (41_matrix.md R154). -/
def entryValue (value : Int) : Check Byte := do
  let v := if value < 0 then value + 256 else value
  raiseIf (v < 0 ∨ v > 255) .fieldValue
  .ok (byteOfInt v)

/-- MCREATE (41_matrix.md R150). -/
def execMcreate (d : SlotField) (s : State) : Host.Outcome State Fault Refusal :=
  finish s do
    checkSlots [d]
    checkDims (s.arg 0) (s.arg 1)
    .ok (s.setSlot d (Matrix.zeros (s.arg 0).toNat (s.arg 1).toNat))

/-- MIDENT (41_matrix.md R151). -/
def execMident (d : SlotField) (s : State) : Host.Outcome State Fault Refusal :=
  finish s do
    checkSlots [d]
    raiseIf (s.arg 0 < 1 ∨ s.arg 0 > Config.maxRows) .dimLimit
    .ok (s.setSlot d (Matrix.identity (s.arg 0).toNat))

/-- MVAND (41_matrix.md R152). -/
def execMvand (d : SlotField) (s : State) : Host.Outcome State Fault Refusal :=
  finish s do
    checkSlots [d]
    checkDims (s.arg 0) (s.arg 1)
    .ok (s.setSlot d (Matrix.vandermonde s.par.fieldPoly (s.arg 0).toNat (s.arg 1).toNat))

/-- MGET (41_matrix.md R153). -/
def execMget (a : SlotField) (s : State) : Host.Outcome State Fault Refusal :=
  finish s do
    checkSlots [a]
    let m ← s.readSlot a
    m.checkIndex (s.arg 0) (s.arg 1)
    .ok (s.setResult0 (zext32 (m.get (s.arg 0).toNat (s.arg 1).toNat)))

/-- MSET (41_matrix.md R154). -/
def execMset (d : SlotField) (s : State) : Host.Outcome State Fault Refusal :=
  finish s do
    checkSlots [d]
    let m ← s.readSlot d
    m.checkIndex (s.arg 0) (s.arg 1)
    let v ← entryValue (s.arg 2)
    .ok (s.setSlot d (m.setEntry (s.arg 0).toNat (s.arg 1).toNat v))

/-- MDIM (41_matrix.md R155): an empty slot reads 0 and 0. -/
def execMdim (a : SlotField) (s : State) : Host.Outcome State Fault Refusal :=
  finish s do
    checkSlots [a]
    .ok ((s.setResult0 (u32 (s.slot a).rows)).setResult1 (u32 (s.slot a).cols))

/-- MGETROW (41_matrix.md R156): the row's bytes go to the start of the descriptor's buffer. -/
def execMgetrow (a : SlotField) (s : State) : Host.Outcome State Fault Refusal :=
  finish s do
    checkSlots [a]
    let m ← s.readSlot a
    raiseIf (s.arg 0 < 0 ∨ s.arg 0 ≥ m.rows) .index
    checkRun (s.arg 1) 1
    let desc := (s.arg 1).toNat
    s.checkPlaced [desc]
    raiseIf (m.cols > s.len desc) .bufBounds
    .ok (s.writeBlock (s.base desc) ((List.range m.cols).map (m.get (s.arg 0).toNat)))

end Sys2Proof.Machine
end

