-- ==== Sys2Proof/Machine/MatrixAlgebra.lean ====
section
/-! DEFINITION. Submatrix, augmentation, row exchange, product, elimination and inversion (41_matrix.md R160 to R163,
R167, R168). -/

namespace Sys2Proof.Machine

/-- MSUB (41_matrix.md R160). -/
def execMsub (d a : SlotField) (s : State) : Host.Outcome State Fault Refusal :=
  finish s do
    checkSlots [d, a]
    let m ← s.readSlot a
    raiseIf
      (¬ (0 ≤ s.arg 0 ∧ s.arg 0 < s.arg 2 ∧ s.arg 2 ≤ m.rows ∧
          0 ≤ s.arg 1 ∧ s.arg 1 < s.arg 3 ∧ s.arg 3 ≤ m.cols)) .index
    .ok (s.setSlot d (m.msub (s.arg 0).toNat (s.arg 1).toNat (s.arg 2).toNat (s.arg 3).toNat))

/-- MAUG (41_matrix.md R161). -/
def execMaug (d a b : SlotField) (s : State) : Host.Outcome State Fault Refusal :=
  finish s do
    checkSlots [d, a, b]
    let l ← s.readSlot a
    let r ← s.readSlot b
    raiseIf (l.rows ≠ r.rows) .dimMismatch
    raiseIf (l.cols + r.cols > Config.maxCols) .dimLimit
    .ok (s.setSlot d (l.maugment r))

/-- MSWAP (41_matrix.md R162). -/
def execMswap (d : SlotField) (s : State) : Host.Outcome State Fault Refusal :=
  finish s do
    checkSlots [d]
    let m ← s.readSlot d
    raiseIf (s.arg 0 < 0 ∨ s.arg 0 ≥ m.rows ∨ s.arg 1 < 0 ∨ s.arg 1 ≥ m.rows) .index
    .ok (s.setSlot d (m.swapRows (s.arg 0).toNat (s.arg 1).toNat))

/-- MTIMES (41_matrix.md R163). -/
def execMtimes (d a b : SlotField) (s : State) : Host.Outcome State Fault Refusal :=
  finish s do
    checkSlots [d, a, b]
    let l ← s.readSlot a
    let r ← s.readSlot b
    raiseIf (l.cols ≠ r.rows) .dimMismatch
    .ok (s.setSlot d (l.mtimes s.par.fieldPoly r))

/-- The checks of MGAUSS (41_matrix.md R167), and the matrix they pass. -/
def gaussOperand (d : SlotField) (s : State) : Check Matrix := do
  checkSlots [d]
  let m ← s.readSlot d
  raiseIf (m.cols < m.rows) .dimMismatch
  .ok m

/-- MGAUSS (41_matrix.md R167). On INVERT(SINGULAR) the slot keeps its shape and every entry becomes a free value
(93 U1; log 8): the one error that writes more than the report. -/
def execMgauss (d : SlotField) (s : State) : Host.Outcome State Fault Refusal :=
  match gaussOperand d s with
  | .error stop => finish s (.error stop)
  | .ok m =>
    match m.gauss s.par.fieldPoly with
    | .ok w => finish s (.ok (s.setSlot d w))
    | .error row => finish (s.scrambleSlot d m.rows m.cols) (raising (.singular row))

/-- MINV (41_matrix.md R168): on any error Slot[d] is unchanged. -/
def execMinv (d a : SlotField) (s : State) : Host.Outcome State Fault Refusal :=
  finish s do
    checkSlots [d, a]
    let m ← s.readSlot a
    raiseIf (m.rows ≠ m.cols) .notSquare
    let inv ← orSingular (m.minvert s.par.fieldPoly)
    .ok (s.setSlot d inv)

end Sys2Proof.Machine
end

