-- ==== Sys2Proof/Machine/Dispatch.lean ====
section
/-! DEFINITION. One arm per command: the meaning of each. -/

namespace Sys2Proof.Machine

def exec (i : Instr) (s : State) : Host.Outcome State Fault Refusal :=
  match i with
  | .nop => Sys2Proof.Machine.execNop s
  | .fadd => Sys2Proof.Machine.execFadd s
  | .fmul => Sys2Proof.Machine.execFmul s
  | .fdiv => Sys2Proof.Machine.execFdiv s
  | .finv => Sys2Proof.Machine.execFinv s
  | .fexp => Sys2Proof.Machine.execFexp s
  | .mcreate d => Sys2Proof.Machine.execMcreate d s
  | .mident d => Sys2Proof.Machine.execMident d s
  | .mvand d => Sys2Proof.Machine.execMvand d s
  | .mget a => Sys2Proof.Machine.execMget a s
  | .mset d => Sys2Proof.Machine.execMset d s
  | .mdim a => Sys2Proof.Machine.execMdim a s
  | .mgetrow a => Sys2Proof.Machine.execMgetrow a s
  | .msub d a => Sys2Proof.Machine.execMsub d a s
  | .maug d a b => Sys2Proof.Machine.execMaug d a b s
  | .mswap d => Sys2Proof.Machine.execMswap d s
  | .mtimes d a b => Sys2Proof.Machine.execMtimes d a b s
  | .mgauss d => Sys2Proof.Machine.execMgauss d s
  | .minv d a => Sys2Proof.Machine.execMinv d a s
  | .code a => Sys2Proof.Machine.execCode a s
  | .check a => Sys2Proof.Machine.execCheck a s
  | .config => Sys2Proof.Machine.execConfig s
  | .encode => Sys2Proof.Machine.execEncode s
  | .decode => Sys2Proof.Machine.execDecode s
  | .emget => Sys2Proof.Machine.execEmget s
  | .emexport d => Sys2Proof.Machine.execEmexport d s

end Sys2Proof.Machine
end

