-- ==== Sys2Proof/Machine/Mmio.lean ====
section
/-! DEFINITION. The host's side: the MMIO register map (10_state.md R44), host reads and writes of it (44_control.md
R241, R243 to R246), and the buffer port (20_memory.md R68). -/

namespace Sys2Proof.Machine

/-- The registers of 10_state.md R44. -/
inductive Reg where
  | id
  | version
  | ctrl
  | status
  | cmd
  | errCode
  | errInfo
  | result0
  | result1
  | cfgD
  | cfgP
  | cfgT
  | pNmat
  | pNdesc
  | pBufmem
  | pPoly
  | arg (i : Fin 8)
  | bdBase (k : Nat)
  | bdLen (k : Nat)
  | multab (w : Nat)
  | reserved
  deriving DecidableEq, Repr

/-- The registers at byte offsets 0x00000 to 0x0003C, in order (10_state.md R44). -/
def lowRegs : List Reg :=
  [.id, .version, .ctrl, .status, .cmd, .errCode, .errInfo, .result0, .result1, .cfgD, .cfgP, .cfgT, .pNmat, .pNdesc,
    .pBufmem, .pPoly]

/-- The register at a word offset `offset[16:2]` (10_state.md R44, 20_memory.md R67): word 0x10 is byte offset
0x00040, word 0x400 byte offset 0x01000, word 0x4000 byte offset 0x10000. -/
def regAt (off : BitVec 15) : Reg :=
  let n := off.toNat
  if n < 0x10 then lowRegs.getD n .reserved
  else if n < 0x18 then .arg (Fin.ofNat 8 (n - 0x10))
  else if n < 0x400 then .reserved
  else if n < 0x400 + 2 * Config.ndesc then
    if (n - 0x400) % 2 = 0 then .bdBase ((n - 0x400) / 2) else .bdLen ((n - 0x400) / 2)
  else if n < 0x4000 then .reserved
  else .multab (n - 0x4000)

/-- The value a host read of a register returns (10_state.md R24 to R29, R44 to R46, 20_memory.md R66,
44_control.md R245). -/
def State.readReg (s : State) : Reg → Word
  | .id => 0x52534345
  | .version => 0x00000001
  | .ctrl => s.ctrlWord
  | .status => s.statusWord
  | .cmd => 0
  | .errCode => s.errCode
  | .errInfo => s.errInfo
  | .result0 => s.result0
  | .result1 => s.result1
  | .cfgD => match s.coder with
    | some c => u32 c.d
    | none => 0
  | .cfgP => match s.coder with
    | some c => u32 c.p
    | none => 0
  | .cfgT => match s.coder with
    | some c => u32 c.t
    | none => 0
  | .pNmat => u32 Config.nmat
  | .pNdesc => u32 Config.ndesc
  | .pBufmem => u32 s.par.bufBytes
  | .pPoly => s.par.fieldPoly.zeroExtend 32
  | .arg i => s.args[i]
  | .bdBase k => (s.desc k).base
  | .bdLen k => (s.desc k).len
  | .multab w => multabWord s.par.fieldPoly w
  | .reserved => 0

/-- A host write to CTRL (10_state.md R26, 44_control.md R244, R246): IE from bit 0; bit 1 requests a soft reset, at
once while IDLE, pending while BUSY. -/
def State.writeCtrl (s : State) (v : Word) : State :=
  let t := { s with ie := v.getLsbD 0 }
  if v.getLsbD 1 then
    if s.busy then { t with srstPending := true } else t.softReset
  else t

/-- A host write to CMD: accepted while IDLE (44_control.md R241), dropped with OVERRUN while BUSY (R243). -/
def State.writeCmd (s : State) (v : Word) : State :=
  if s.busy then { s with overrun := true } else s.accept v

/-- A host write to a field of BD[k]: while BUSY it breaks host duty 2 (70_reset_and_hazards.md R301; log 7). -/
def State.writeDesc (s : State) (k : Nat) (d : Desc) : Host.Outcome State Fault Refusal :=
  if s.busy then .fault .hostDescWriteWhileBusy else .next (s.setDesc k d)

/-- A host write of `v` to a register (44_control.md R241, R243, R244; 10_state.md R45, R46). -/
def State.writeReg (s : State) (v : Word) : Reg → Host.Outcome State Fault Refusal
  | .id => .next s
  | .version => .next s
  | .ctrl => .next (s.writeCtrl v)
  | .status => .next (s.clearStatus v)
  | .cmd => .next (s.writeCmd v)
  | .errCode => .next s
  | .errInfo => .next s
  | .result0 => .next s
  | .result1 => .next s
  | .cfgD => .next s
  | .cfgP => .next s
  | .cfgT => .next s
  | .pNmat => .next s
  | .pNdesc => .next s
  | .pBufmem => .next s
  | .pPoly => .next s
  | .arg i => .next { s with args := s.args.set i v }
  | .bdBase k => s.writeDesc k { s.desc k with base := v }
  | .bdLen k => s.writeDesc k { s.desc k with len := v }
  | .multab _ => .next s
  | .reserved => .next s

/-- A host write of an MMIO word. -/
def State.mmioWrite (s : State) (off : BitVec 15) (v : Word) : Host.Outcome State Fault Refusal :=
  s.writeReg v (regAt off)

/-- A host read of an MMIO word: its value goes to `rdata`, and nothing else changes (20_memory.md R71). -/
def State.mmioRead (s : State) (off : BitVec 15) : Host.Outcome State Fault Refusal :=
  .next { s with rdata := s.readReg (regAt off) }

/-- A host write by the buffer port (20_memory.md R64, R68): ignored at or above BUFMEM_BYTES, at any time (93 H4).
Below, while BUSY, it breaks host duty 1 (70_reset_and_hazards.md R300; log 7). -/
def State.bufWrite (s : State) (addr : Nat) (v : Byte) : Host.Outcome State Fault Refusal :=
  if s.par.bufBytes ≤ addr then .next s
  else if s.busy then .fault .hostBufAccessWhileBusy
  else .next (s.setMem (s.mem.write addr v))

/-- A host read by the buffer port (20_memory.md R63, R68): 0x00 at or above BUFMEM_BYTES, at any time (93 H4). Below,
while BUSY, it breaks host duty 1 (70_reset_and_hazards.md R300; log 7); a byte nothing has written faults (R65;
log 6). The value goes to `rdata` (log 9). -/
def State.bufRead (s : State) (addr : Nat) : Host.Outcome State Fault Refusal :=
  if s.par.bufBytes ≤ addr then .next { s with rdata := 0 }
  else if s.busy then .fault .hostBufAccessWhileBusy
  else
    match s.mem.read addr with
    | some b => .next { s with rdata := zext32 b }
    | none => .fault (.unwrittenByte addr)

end Sys2Proof.Machine
end

