-- ==== Sys2Proof/Machine/Engine.lean ====
section
/-! DEFINITION. The engine's step: the command in flight is decoded, executed and completed (44_control.md R242), and
what one input does. -/

namespace Sys2Proof.Machine

/-- Execution and completion of the word in flight (44_control.md R242, 30_encoding.md R97): a word that is no command
completes with ILLEGAL. -/
def runWord (w : Word) (s : State) : Host.Outcome State Fault Refusal :=
  match Sys2Proof.decode w with
  | .error r => .next (s.failWith r)
  | .ok i => exec i s

/-- The engine's move: its step while BUSY; nothing while IDLE (20_memory.md R72: it waits for a CMD write). -/
def engineStep (s : State) : Host.Outcome State Fault Refusal :=
  match s.run with
  | .idle => .next s
  | .busy c => runWord c.word s

/-- What one input does. -/
def applyInput (x : Input) (s : State) : Host.Outcome State Fault Refusal :=
  match x with
  | .engine => engineStep s
  | .mmioWrite off v => s.mmioWrite off v
  | .mmioRead off => s.mmioRead off
  | .bufWrite addr v => s.bufWrite addr v
  | .bufRead addr => s.bufRead addr
  | .hardReset => .next s.hardReset

/-- The word made of the low `nbits` bits of `w`, in flight with the ARG registers as they stand, and the engine's
move next (log 2). -/
def State.placeWord (s : State) (nbits w : Nat) : State :=
  { s.accept (Sys2Proof.tableWord nbits w) with inputs := .engine :: s.inputs }

end Sys2Proof.Machine
end

