-- ==== Sys2Proof/Machine/Step.lean ====
section
/-! DEFINITION. The step of the machine (log 1): the next input is taken; with none left, the engine moves
(70_reset_and_hazards.md R311). -/

namespace Sys2Proof.Machine

/-- One step. `inputs` says which agent moves next; the engine moves when nothing else is left to happen. -/
def step (s : State) : Host.Outcome State Fault Refusal :=
  match s.inputs with
  | [] => engineStep s
  | x :: rest => applyInput x { s with inputs := rest }

/-- `s` with a command word accepted and the engine's move next, so that `step` runs exactly it (log 2). -/
def State.withFetchWord (s : State) (nbits w : Nat) : State := s.placeWord nbits w

end Sys2Proof.Machine
end

