-- ==== Sys2Proof/Safety.lean ====
section
/-! DEFINITION. The terms claims are stated in: the shape of matrices and tables, the invariant of the state, and what a
completed command leaves (44_control.md R242, written out). -/

namespace Sys2Proof.Machine

/-- The entries are exactly those of a rows × cols matrix (10_state.md R30). -/
def Matrix.Shaped (a : Matrix) : Prop := a.e.length = a.rows ∧ ∀ row ∈ a.e, row.length = a.cols

/-- The slot invariants (10_state.md R31). -/
structure Matrix.SlotOk (a : Matrix) : Prop where
  rows_le : a.rows ≤ 256
  cols_le : a.cols ≤ 512
  empty_iff : a.rows = 0 ↔ a.cols = 0
  shaped : a.Shaped

/-- What CONFIGURED = 1 means for the shapes of the coder state, and PR = EM's rows D to T-1 (10_state.md R33, R34;
43_erasure_coder.md R200). -/
structure Coder.Ok (c : Coder) : Prop where
  d_pos : 1 ≤ c.d
  total_le : c.d + c.p ≤ 256
  em_rows : c.em.rows = c.d + c.p
  em_cols : c.em.cols = c.d
  em_shaped : c.em.Shaped
  pr_rows : c.pr.rows = c.p
  pr_cols : c.pr.cols = c.d
  pr_shaped : c.pr.Shaped
  pr_get : ∀ i j, i < c.p → j < c.d → c.pr.get i j = c.em.get (c.d + i) j

/-- The canonical form of the descriptor table: indices strictly rising and below NDESC, no entry (0, 0). -/
structure DescTableOk (bd : List (Nat × Desc)) : Prop where
  rising : (bd.map Prod.fst).Pairwise (· < ·)
  below : ∀ x ∈ bd, x.1 < 1024
  nonzero : ∀ x ∈ bd, x.2 ≠ { base := 0, len := 0 }

/-- The invariant every step keeps: canonical memory inside BUFMEM (20_memory.md R63, R64), canonical descriptor table,
slot invariants (10_state.md R31), coder invariants (R33, R34; EM is the encoding matrix of D and P,
43_erasure_coder.md R200, R201), a soft reset pending only while BUSY (R43, 44_control.md R246), and an error report with its reserved byte 0 and a cause that exists (10_state.md R28,
60_exceptions.md R261). -/
structure State.Inv (s : State) : Prop where
  mem_wf : s.mem.wf = true
  mem_below : ∀ x ∈ s.mem, x.1 < s.par.bufBytes
  bd_ok : DescTableOk s.bd
  slots_ok : ∀ m : SlotField, (s.slot m).SlotOk
  coder_ok : ∀ c, s.coder = some c → c.Ok
  coder_em : ∀ c, s.coder = some c → buildEM s.par.fieldPoly c.d c.p = .ok c.em
  pending_busy : s.srstPending = true → s.busy = true
  report_reserved : s.errCode.extractLsb' 24 8 = 0
  report_cause : (s.errCode.extractLsb' 0 8).toNat ≤ 7

/-- What the completion of a command leaves, from the state `s` its effects gave (44_control.md R242, 10_state.md R28):
ERR_CODE = {00, OPC, detail, cause}, ERR_INFO = info, ERR set on an error and otherwise kept, DONE set, run state IDLE,
and then the soft reset if one is pending. -/
def State.finished (s : State) (detail cause : Byte) (info : Nat) (failed : Bool) : State :=
  let t : State :=
    { s with
      errCode := (0 : BitVec 8) ++ s.cmd.word.extractLsb' 0 8 ++ detail ++ cause
      errInfo := BitVec.ofNat 32 info
      err := s.err || failed
      done := true
      run := .idle }
  if s.srstPending then t.softReset else t

/-- A successful completion. -/
def State.completed (s : State) : State := s.finished 0 0 0 false

/-- A completion with an error (60_exceptions.md R270). -/
def State.errored (s : State) (detail cause : Byte) (info : Nat) : State := s.finished detail cause info true

/-- Every byte of `[addr, addr + n)` has been written. -/
def State.Written (s : State) (addr n : Nat) : Prop := ∀ j, j < n → (s.mem.read (addr + j)).isSome = true

/-- The byte at an address, 0 if it has no value (used only where it has one). -/
def State.byteAt (s : State) (addr : Nat) : Byte := (s.mem.read addr).getD 0

/-- An address lies in `[base, base + n)`. -/
def InRange (addr base n : Nat) : Prop := base ≤ addr ∧ addr < base + n

/-- The repeated product of 40_field.md R126: `r <- 1; repeat n times: r <- gmul(r, a)`. -/
def repeatedProduct (poly : BitVec 9) (a : Byte) : Nat → Byte
  | 0 => 1
  | n + 1 => gmul poly (repeatedProduct poly a n) a

/-- `OPC | MD << 8 | MA << 12 | MB << 16` (30_encoding.md R91). -/
def fieldsWord (opc : Word) (d a b : SlotField) : Word :=
  opc ||| (d.zeroExtend 32 <<< 8) ||| (a.zeroExtend 32 <<< 12) ||| (b.zeroExtend 32 <<< 16)

/-- `w` is the one word that decodes to `i`. -/
def IsEncoding (w : Word) (i : Instr) : Prop := ∀ v : Word, Sys2Proof.decode v = .ok i ↔ v = w

/-- A check of a command: when its condition holds, the error `(detail, cause, info)` is raised. -/
structure CheckLine where
  cond : Prop
  detail : Byte
  cause : Byte
  info : Nat

/-- A check that raises RANGE(detail) (60_exceptions.md R263). -/
def rangeLine (cond : Prop) (detail : Byte) : CheckLine := { cond := cond, detail := detail, cause := 2, info := 0 }

/-- The outcome `out` of a command run in `s` is the error of the first check, in the order written, whose condition
holds (00_scope.md R15, 60_exceptions.md R270): a completion that writes the report and nothing else. When none holds,
`otherwise` is true. -/
def Checked (s : State) (out : Host.Outcome State Fault Refusal) : List CheckLine → Prop → Prop
  | [], otherwise => otherwise
  | line :: rest, otherwise =>
    (line.cond → out = .next (s.errored line.detail line.cause line.info)) ∧
      (¬ line.cond → Checked s out rest otherwise)

/-- `t` differs from `s` at most in slot `d`. -/
def OnlySlot (s t : State) (d : SlotField) : Prop :=
  (∀ j, j ≠ d → t.slot j = s.slot j) ∧ { t with slots := s.slots } = s

/-- `a` is the rows × cols matrix with entries `f r c`. -/
def Matrix.Is (a : Matrix) (rows cols : Nat) (f : Nat → Nat → Byte) : Prop :=
  a.rows = rows ∧ a.cols = cols ∧ a.Shaped ∧ ∀ r c, r < rows → c < cols → a.get r c = f r c

/-- The byte ranges `[a, a + m)` and `[b, b + n)` overlap (00_scope.md R16). -/
def Overlaps (a m b n : Nat) : Prop := 0 < m ∧ 0 < n ∧ a < b + n ∧ b < a + m

/-- The present raw descriptors of a run, in order (43_erasure_coder.md R210). -/
def State.present (s : State) (rawBase rawCount : Nat) : List Nat :=
  (List.range' rawBase rawCount).filter fun k => decide (0 < s.len k)

/-- The tag of a raw descriptor (43_erasure_coder.md R211). -/
def State.tagOf (s : State) (k : Nat) : Nat := (s.byteAt (s.base k)).toNat

/-- What a host read of the MMIO word at a byte offset returns (10_state.md R44). -/
def State.readOffset (s : State) (offset : Nat) : Word := s.readReg (regAt (BitVec.ofNat 15 (offset / 4)))

/-- What a host write of `v` at a byte offset does (44_control.md R244). -/
def State.writeOffset (s : State) (offset : Nat) (v : Word) : Host.Outcome State Fault Refusal :=
  s.mmioWrite (BitVec.ofNat 15 (offset / 4)) v

/-- The values of 70_reset_and_hazards.md R290 but for BUFMEM: what every MMIO offset reads, and the state the host
cannot read. -/
structure ResetValues (t : State) : Prop where
  id : t.readOffset 0x00000 = 0x52534345
  version : t.readOffset 0x00004 = 0x00000001
  ctrl : t.readOffset 0x00008 = 0
  status : t.readOffset 0x0000C = 0
  errCode : t.readOffset 0x00014 = 0
  errInfo : t.readOffset 0x00018 = 0
  result0 : t.readOffset 0x0001C = 0
  result1 : t.readOffset 0x00020 = 0
  cfgD : t.readOffset 0x00024 = 0
  cfgP : t.readOffset 0x00028 = 0
  cfgT : t.readOffset 0x0002C = 0
  nmat : t.readOffset 0x00030 = 8
  ndesc : t.readOffset 0x00034 = 1024
  bufmem : t.readOffset 0x00038 = BitVec.ofNat 32 t.par.bufBytes
  poly : t.readOffset 0x0003C = t.par.fieldPoly.zeroExtend 32
  args : ∀ i, i < 8 → t.readOffset (0x00040 + 4 * i) = 0
  bdBase : ∀ k, k < 1024 → t.readOffset (0x01000 + 8 * k) = 0
  bdLen : ∀ k, k < 1024 → t.readOffset (0x01004 + 8 * k) = 0
  slots : ∀ m, (t.slot m).rows = 0 ∧ (t.slot m).cols = 0
  coder : t.coder = none
  table : ∀ a b : Byte, ∀ j, j < 4 → (4 * (a.toNat * 64 + b.toNat / 4) + j = 256 * a.toNat + b.toNat →
    (t.readOffset (0x10000 + 4 * (a.toNat * 64 + b.toNat / 4))).extractLsb' (8 * j) 8 = gmul t.par.fieldPoly a b)
  run : t.run = .idle
  pending : t.srstPending = false
  irq : t.irq = false

/-! ### The tables of 30_encoding.md R98, R100 and 60_exceptions.md R272 -/

/-- The opcodes of 30_encoding.md R100, as R98 leaves them. -/
def LegalOpcode (n : Nat) : Prop :=
  n ≤ 0x05 ∨ (0x10 ≤ n ∧ n ≤ 0x1C) ∨ (0x20 ≤ n ∧ n ≤ 0x21) ∨ (0x30 ≤ n ∧ n ≤ 0x34)

/-- The opcodes whose commands use MD (30_encoding.md R100). -/
def mdOpcodes : List Nat := [0x10, 0x11, 0x12, 0x14, 0x17, 0x18, 0x19, 0x1A, 0x1B, 0x1C, 0x34]

/-- The opcodes whose commands use MA (30_encoding.md R100). -/
def maOpcodes : List Nat := [0x13, 0x15, 0x16, 0x17, 0x18, 0x1A, 0x1C, 0x20, 0x21]

/-- The opcodes whose commands use MB (30_encoding.md R100). -/
def mbOpcodes : List Nat := [0x18, 0x1A]

/-- How many argument registers a command reads, from ARG0 up (30_encoding.md R100). -/
def argCount : Instr → Nat
  | .nop => 0
  | .fadd => 2
  | .fmul => 2
  | .fdiv => 2
  | .finv => 1
  | .fexp => 2
  | .mcreate _ => 2
  | .mident _ => 1
  | .mvand _ => 2
  | .mget _ => 2
  | .mset _ => 3
  | .mdim _ => 0
  | .mgetrow _ => 2
  | .msub _ _ => 4
  | .maug _ _ _ => 0
  | .mswap _ => 2
  | .mtimes _ _ _ => 0
  | .mgauss _ => 0
  | .minv _ _ => 0
  | .code _ => 7
  | .check _ => 0
  | .config => 2
  | .encode => 4
  | .decode => 5
  | .emget => 2
  | .emexport _ => 0

/-- The slot a command may write (30_encoding.md R92, 10_state.md R32). -/
def destination : Instr → Option SlotField
  | .nop => none
  | .fadd => none
  | .fmul => none
  | .fdiv => none
  | .finv => none
  | .fexp => none
  | .mcreate d => some d
  | .mident d => some d
  | .mvand d => some d
  | .mget _ => none
  | .mset d => some d
  | .mdim _ => none
  | .mgetrow _ => none
  | .msub d _ => some d
  | .maug d _ _ => some d
  | .mswap d => some d
  | .mtimes d _ _ => some d
  | .mgauss d => some d
  | .minv d _ => some d
  | .code _ => none
  | .check _ => none
  | .config => none
  | .encode => none
  | .decode => none
  | .emget => none
  | .emexport d => some d

/-- The errors `(detail, cause)` a command can raise, RANGE(BAD_SLOT) apart (60_exceptions.md R272). -/
def allowedErrors : Instr → List (Byte × Byte)
  | .nop => []
  | .fadd => [(7, 2)]
  | .fmul => [(7, 2)]
  | .fdiv => [(7, 2), (1, 5), (2, 5)]
  | .finv => [(7, 2), (1, 5)]
  | .fexp => [(7, 2), (8, 2)]
  | .mcreate _ => [(4, 2)]
  | .mident _ => [(4, 2)]
  | .mvand _ => [(4, 2)]
  | .mget _ => [(2, 2), (3, 2)]
  | .mset _ => [(2, 2), (3, 2), (7, 2)]
  | .mdim _ => []
  | .mgetrow _ => [(2, 2), (3, 2), (10, 2), (11, 2)]
  | .msub _ _ => [(2, 2), (3, 2)]
  | .maug _ _ _ => [(2, 2), (5, 2), (4, 2)]
  | .mswap _ => [(2, 2), (3, 2)]
  | .mtimes _ _ _ => [(2, 2), (5, 2)]
  | .mgauss _ => [(2, 2), (5, 2), (1, 3)]
  | .minv _ _ => [(2, 2), (6, 2), (1, 3)]
  | .code _ => [(2, 2), (9, 2), (3, 2), (8, 2), (10, 2), (11, 2), (14, 2)]
  | .check _ => [(1, 6)]
  | .config => [(1, 1), (2, 1), (3, 1)]
  | .encode => [(4, 1), (12, 2), (8, 2), (10, 2), (11, 2), (13, 2), (14, 2)]
  | .decode => [(4, 1), (9, 2), (8, 2), (10, 2), (11, 2), (15, 2), (13, 2), (16, 2), (14, 2), (0, 4), (1, 3)]
  | .emget => [(4, 1), (3, 2)]
  | .emexport _ => [(4, 1)]

/-! ### Runs of descriptors -/

/-- `ARG[i]` as a natural number, where it is not negative. -/
def State.natArg (s : State) (i : Fin 8) : Nat := (s.arg i).toNat

/-- Some descriptor of the run is not well placed (10_state.md R41). -/
def State.Misplaced (s : State) (base count : Nat) : Prop :=
  ∃ k, InRange k base count ∧ s.par.bufBytes < s.base k + s.len k

/-- Some descriptor of the run is shorter than `n`. -/
def State.TooShort (s : State) (base count n : Nat) : Prop := ∃ k, InRange k base count ∧ s.len k < n

/-- The lengths of the run are not all equal. -/
def State.LengthsDiffer (s : State) (base count : Nat) : Prop :=
  ∃ k j, InRange k base count ∧ InRange j base count ∧ s.len k ≠ s.len j

/-- The touched ranges `[BASE + off, BASE + off + cnt)` of two distinct outputs overlap, or those of an output and an
input (42_coding_loop.md R182). -/
def State.TouchedAlias (s : State) (inBase inCount outBase outCount off cnt : Nat) : Prop :=
  (∃ k j, InRange k outBase outCount ∧ InRange j outBase outCount ∧ k ≠ j ∧
    Overlaps (s.base k + off) cnt (s.base j + off) cnt) ∨
  (∃ k j, InRange k outBase outCount ∧ InRange j inBase inCount ∧
    Overlaps (s.base k + off) cnt (s.base j + off) cnt)

/-- None of the checks' conditions holds. -/
def Passes (lines : List CheckLine) : Prop := ∀ line ∈ lines, ¬ line.cond

/-! ### DECODE (43_erasure_coder.md R210 to R213) -/

/-- PRES: the present raw descriptors (R210). -/
def State.pres (s : State) : List Nat := s.present (s.natArg 0) (s.natArg 1)

/-- L, the payload length (R210). -/
def State.payloadLen (s : State) : Nat := s.len (s.pres.headD 0) - 1

/-- The fast path's condition (R212): `rawCount = T` and every raw descriptor is present. -/
def State.Fast (s : State) (c : Coder) : Prop := s.natArg 1 = c.t ∧ s.pres.length = c.t

/-- The present descriptor that carries tag t. -/
def State.Carries (s : State) (t k : Nat) : Prop := k ∈ s.pres ∧ s.tagOf k = t

/-- Shard t is present. -/
def State.ShardPresent (s : State) (t : Nat) : Prop := ∃ k, s.Carries t k

/-- The checks of R210 before the tags are read. -/
def State.decodeChecks (s : State) (c : Coder) : List CheckLine :=
  [ rangeLine (s.arg 1 < 0 ∨ c.t < s.arg 1) 9,
    rangeLine (s.arg 3 < 0 ∨ s.arg 4 < 0) 8,
    rangeLine (s.arg 0 < 0 ∨ 1024 < s.arg 0 + s.arg 1) 10,
    rangeLine (s.arg 2 < 0 ∨ 1024 < s.arg 2 + c.t) 10,
    rangeLine (s.Misplaced (s.natArg 0) (s.natArg 1) ∨ s.Misplaced (s.natArg 2) c.t) 11,
    { cond := ¬ s.Fast c ∧ s.pres.length < c.d, detail := 0, cause := 4, info := s.pres.length } ]

/-- The checks of R210 on the tags and the payloads. -/
def State.tagChecks (s : State) (c : Coder) : List CheckLine :=
  [ rangeLine ((∃ k ∈ s.pres, c.t ≤ s.tagOf k) ∨ (∃ k ∈ s.pres, ∃ j ∈ s.pres, k ≠ j ∧ s.tagOf k = s.tagOf j)) 15,
    rangeLine (∃ k ∈ s.pres, ∃ j ∈ s.pres, s.len k ≠ s.len j) 13,
    rangeLine ((s.payloadLen : Int) < s.arg 3 + s.arg 4) 11 ]

/-- The output checks of R212 and R213, over the first `count` output descriptors. -/
def State.outputChecks (s : State) (count : Nat) : List CheckLine :=
  [ rangeLine (s.TooShort (s.natArg 2) count s.payloadLen) 11,
    rangeLine
      ((∃ k j, InRange k (s.natArg 2) count ∧ InRange j (s.natArg 2) count ∧ k ≠ j ∧
          Overlaps (s.base k) s.payloadLen (s.base j) s.payloadLen) ∨
        (∃ k, InRange k (s.natArg 2) count ∧ ∃ j ∈ s.pres,
          Overlaps (s.base k) s.payloadLen (s.base j) (s.len j))) 14 ]

/-- The fast path's own check (R212): the data tags stand in increasing order, each once. -/
def State.orderCheck (s : State) (c : Coder) : CheckLine :=
  rangeLine ((s.pres.map s.tagOf).filter (fun t => decide (t < c.d)) ≠ List.range c.d) 16

/-- J: the D smallest present shard numbers, ascending (R213). -/
def State.IsChosen (s : State) (c : Coder) (chosen : List Nat) : Prop :=
  chosen.length = c.d ∧ chosen.Pairwise (· < ·) ∧ (∀ t ∈ chosen, t < c.t ∧ s.ShardPresent t) ∧
    ∀ t, t < c.t → s.ShardPresent t → t ∉ chosen → ∀ u ∈ chosen, u < t

/-! ### Linear algebra over the field -/

/-- `a × b` as entries (41_matrix.md R144). -/
def dot (poly : BitVec 9) (n : Nat) (f g : Nat → Byte) : Byte := xorSum n fun i => gmul poly (f i) (g i)

/-- `a` is identity(n) (41_matrix.md R142). -/
def Matrix.IsIdentity (a : Matrix) (n : Nat) : Prop := a.Is n n fun r c => if r = c then 1 else 0

/-- A square matrix is invertible: some matrix multiplies it to the identity. -/
def Matrix.Invertible (poly : BitVec 9) (a : Matrix) : Prop :=
  a.rows = a.cols ∧ ∃ b : Matrix, (b.mtimes poly a).IsIdentity a.rows ∧ b.Shaped ∧ b.rows = a.rows ∧ b.cols = a.rows

/-- The first n columns of `a` are linearly independent. -/
def Matrix.Independent (poly : BitVec 9) (a : Matrix) (n : Nat) : Prop :=
  ∀ x : Nat → Byte, (∀ r, r < a.rows → dot poly n (a.get r) x = 0) → ∀ c, c < n → x c = 0

end Sys2Proof.Machine
end

