-- ==== Sys2Proof/Certificates/Slice0/Obligations.lean ====
section
/-! DEFINITION. The statements for the provers. Each docstring names the rule it formalises, or the log entry it rests
on. `Checked s out lines otherwise` says: the first check whose condition holds is the error reported, and when none
holds `otherwise` is true. -/

section Statements

open Sys2Proof Sys2Proof.Machine

/-! ### Reset, the step and the host -/

/-- 70_reset_and_hazards.md R290, R291: the hardware reset state, and what a hardware reset and a soft reset make of
any state. -/
def Obligations.ResetState : Prop :=
  ResetValues State.reset ∧ (∀ a, State.reset.mem.read a = none) ∧
  ∀ s : State,
    (∃ t, applyInput .hardReset s = .next t ∧ ResetValues t ∧ (∀ a, t.mem.read a = none) ∧ t.par = s.par) ∧
    ResetValues s.softReset ∧ s.softReset.mem = s.mem ∧ s.softReset.par = s.par

/-- The invariant holds after reset. -/
def Obligations.ResetMeetsInvariant : Prop := State.reset.Inv

/-- Every step keeps the invariant: canonical memory inside BUFMEM (20_memory.md R63, R64), canonical descriptor table,
slot invariants (10_state.md R31), coder invariants (R33, R34; EM is the encoding matrix of D and P, 43_erasure_coder.md
R200, R201), a pending soft reset only while BUSY (R43), the error report's reserved byte 0 and its cause at most 7
(R28, 60_exceptions.md R261). -/
def Obligations.StepKeepsInvariant : Prop := ∀ s t : State, s.Inv → step s = .next t → t.Inv

/-- When the word in flight decodes to `i`, the engine's step is `exec i`: with no input left, with the engine's move
next (the model's own list of inputs, log 1), and after `withFetchWord` (log 2). -/
def Obligations.StepRunsDecodedCommand : Prop :=
  (∀ (s : State) (c : Command) (i : Instr), s.run = .busy c → decode c.word = .ok i →
    (s.inputs = [] → step s = exec i s) ∧
    (∀ rest, s.inputs = .engine :: rest → step s = exec i { s with inputs := rest })) ∧
  (∀ (s : State) (w : Word) (i : Instr), decode w = .ok i →
    step (s.withFetchWord 32 w.toNat) = exec i { s with run := .busy { word := w, args := s.args } })

/-- The inputs are taken one at a time, in order (20_memory.md R74 item 1; the list is the model's own, log 1), and
with no command in flight the engine does nothing (20_memory.md R72). -/
def Obligations.StepTakesInputsInOrder : Prop :=
  ∀ (s : State) (x : Input) (rest : List Input), s.inputs = x :: rest →
    step s = applyInput x { s with inputs := rest } ∧
    (s.run = .idle → x = .engine → step s = .next { s with inputs := rest }) ∧
    (s.run = .idle → step { s with inputs := [] } = .next { s with inputs := [] })

/-- 30_encoding.md R97 and R98: the decoding checks, in order, and then the command's own checks. -/
def Obligations.CommandWordChecks : Prop :=
  ∀ (s : State) (c : Command), s.run = .busy c → s.inputs = [] →
    let opc := c.word.toNat % 256
    let md := c.word.toNat / 2 ^ 8 % 16
    let ma := c.word.toNat / 2 ^ 12 % 16
    let mb := c.word.toNat / 2 ^ 16 % 16
    Checked s (step s)
      [ { cond := ¬ LegalOpcode opc, detail := 1, cause := 7, info := 0 },
        { cond := c.word.toNat / 2 ^ 20 ≠ 0, detail := 2, cause := 7, info := 0 },
        { cond := (opc ∉ mdOpcodes ∧ md ≠ 0) ∨ (opc ∉ maOpcodes ∧ ma ≠ 0) ∨ (opc ∉ mbOpcodes ∧ mb ≠ 0),
          detail := 3, cause := 7, info := 0 },
        rangeLine ((opc ∈ mdOpcodes ∧ 8 ≤ md) ∨ (opc ∈ maOpcodes ∧ 8 ≤ ma) ∨ (opc ∈ mbOpcodes ∧ 8 ≤ mb)) 1 ]
      (∃ i, decode c.word = .ok i ∧ i.wellFormed = true ∧ i.opcode.toNat = opc ∧ step s = exec i s)

/-- Every command's word decodes to it, and every word that decodes is that command's word. -/
def Obligations.DecodeEncodeRoundTrip : Prop :=
  (∀ i : Instr, decode (encode i) = .ok i) ∧ ∀ (w : Word) (i : Instr), decode w = .ok i → encode i = w

/-- A row of 30_encoding.md R101: the match, the mask and the command of the slot fields. -/
def Obligations.MaskMatch : Prop :=
  let none32 : Word := 0xFFFFFFFF
  let md32 : Word := 0xFFFFF0FF
  let ma32 : Word := 0xFFFF0FFF
  let mdma : Word := 0xFFFF00FF
  let all3 : Word := 0xFFF000FF
  let rows : List (Word × Word × (SlotField → SlotField → SlotField → Instr)) :=
    [ (0x00, none32, fun _ _ _ => .nop), (0x01, none32, fun _ _ _ => .fadd), (0x02, none32, fun _ _ _ => .fmul),
      (0x03, none32, fun _ _ _ => .fdiv), (0x04, none32, fun _ _ _ => .finv), (0x05, none32, fun _ _ _ => .fexp),
      (0x10, md32, fun d _ _ => .mcreate d), (0x11, md32, fun d _ _ => .mident d),
      (0x12, md32, fun d _ _ => .mvand d), (0x13, ma32, fun _ a _ => .mget a), (0x14, md32, fun d _ _ => .mset d),
      (0x15, ma32, fun _ a _ => .mdim a), (0x16, ma32, fun _ a _ => .mgetrow a) ] ++
    [ (0x17, mdma, fun d a _ => .msub d a), (0x18, all3, fun d a b => .maug d a b),
      (0x19, md32, fun d _ _ => .mswap d), (0x1A, all3, fun d a b => .mtimes d a b),
      (0x1B, md32, fun d _ _ => .mgauss d), (0x1C, mdma, fun d a _ => .minv d a),
      (0x20, ma32, fun _ a _ => .code a), (0x21, ma32, fun _ a _ => .check a), (0x30, none32, fun _ _ _ => .config),
      (0x31, none32, fun _ _ _ => .encode), (0x32, none32, fun _ _ _ => .decode),
      (0x33, none32, fun _ _ _ => .emget), (0x34, md32, fun d _ _ => .emexport d) ]
  ∀ w : Word,
    (∀ row ∈ rows,
      w &&& row.2.1 = row.1 →
        decode w = .ok (row.2.2 (w.extractLsb' 8 4) (w.extractLsb' 12 4) (w.extractLsb' 16 4))) ∧
    ((∀ row ∈ rows, w &&& row.2.1 ≠ row.1) → ∃ r, decode w = .error r ∧ r.cause = 7)

/-- 30_encoding.md R104: the example words. -/
def Obligations.EncodingExamples : Prop :=
  decode 0x00000000 = .ok .nop ∧ decode 0x00000002 = .ok .fmul ∧ decode 0x00000310 = .ok (.mcreate 3) ∧
  decode 0x00002117 = .ok (.msub 1 2) ∧ decode 0x0001021A = .ok (.mtimes 2 0 1) ∧
  decode 0x0000011C = .ok (.minv 1 0) ∧ decode 0x00003020 = .ok (.code 3) ∧ decode 0x00000030 = .ok .config ∧
  decode 0x00000032 = .ok .decode ∧ decode 0x00000006 = .error .badOpcode ∧
  decode 0x00000102 = .error .unusedField ∧ decode 0x00100000 = .error .reservedBits ∧
  decode 0x00000910 = .ok (.mcreate 9) ∧ (Instr.mcreate 9).wellFormed = false ∧
  ∀ s : State, exec (.mcreate 9) s = .next (s.errored 1 2 0)

/-- Host writes to CMD: acceptance while IDLE (44_control.md R241), overrun while BUSY (R243); and the accepted word
completes, unless the command reads a BUFMEM byte that has no value (20_memory.md R65; log 6). -/
def Obligations.CmdWrites : Prop :=
  (∀ (s : State) (c : Command) (w : Word), s.run = .busy c →
    s.writeOffset 0x00010 w = .next { s with overrun := true }) ∧
  ∀ (s : State) (w : Word), s.run = .idle →
    s.writeOffset 0x00010 w = .next { s with run := .busy { word := w, args := s.args } } ∧
    ∀ t : State, t.run = .busy { word := w, args := s.args } → t.inputs = [] →
      (∃ u, step t = .next u ∧ u.run = .idle) ∨
      ∃ addr, step t = .fault (.unwrittenByte addr) ∧ t.mem.read addr = none

/-- 44_control.md R244: host writes, by offset, CMD and CTRL's soft reset apart. -/
def Obligations.HostWrites : Prop :=
  ∀ (s : State) (v : Word), DescTableOk s.bd →
    (v.getLsbD 1 = false → s.writeOffset 0x00008 v = .next { s with ie := v.getLsbD 0 }) ∧
    s.writeOffset 0x0000C v =
      .next { s with
        done := s.done && !v.getLsbD 1
        err := s.err && !v.getLsbD 2
        overrun := s.overrun && !v.getLsbD 4 } ∧
    (∀ i : Fin 8, s.writeOffset (0x00040 + 4 * i.val) v = .next { s with args := s.args.set i v }) ∧
    (∀ k, k < 1024 → s.run = .idle →
      (∃ t, s.writeOffset (0x01000 + 8 * k) v = .next t ∧ { t with bd := s.bd } = s ∧
        t.desc k = { base := v, len := (s.desc k).len } ∧ ∀ j, j ≠ k → t.desc j = s.desc j) ∧
      (∃ t, s.writeOffset (0x01004 + 8 * k) v = .next t ∧ { t with bd := s.bd } = s ∧
        t.desc k = { base := (s.desc k).base, len := v } ∧ ∀ j, j ≠ k → t.desc j = s.desc j)) ∧
    (∀ o, o < 0x20000 → o % 4 = 0 →
      (o < 0x00008 ∨ (0x00014 ≤ o ∧ o < 0x00040) ∨ (0x00060 ≤ o ∧ o < 0x01000) ∨ 0x03000 ≤ o) →
        s.writeOffset o v = .next s)

/-- What a host read returns, register by register (10_state.md R24 to R29, R44, R45), and that it changes nothing but
`rdata` (20_memory.md R71; `rdata` is the model's own, log 9). -/
def Obligations.HostReads : Prop :=
  ∀ s : State,
    (∀ o, o < 0x20000 → s.mmioRead (BitVec.ofNat 15 (o / 4)) = .next { s with rdata := s.readOffset o }) ∧
    s.readOffset 0x00000 = 0x52534345 ∧ s.readOffset 0x00004 = 0x00000001 ∧
    s.readOffset 0x00008 = (if s.ie then 1 else 0) ∧
    s.readOffset 0x0000C =
      BitVec.ofNat 32
        ((if s.busy then 1 else 0) + (if s.done then 2 else 0) + (if s.err then 4 else 0) +
          (if s.coder.isSome then 8 else 0) + (if s.overrun then 16 else 0)) ∧
    s.readOffset 0x00010 = 0 ∧ s.readOffset 0x00014 = s.errCode ∧ s.readOffset 0x00018 = s.errInfo ∧
    s.readOffset 0x0001C = s.result0 ∧ s.readOffset 0x00020 = s.result1 ∧
    (∀ c, s.coder = some c →
      s.readOffset 0x00024 = BitVec.ofNat 32 c.d ∧ s.readOffset 0x00028 = BitVec.ofNat 32 c.p ∧
      s.readOffset 0x0002C = BitVec.ofNat 32 (c.d + c.p)) ∧
    (s.coder = none → s.readOffset 0x00024 = 0 ∧ s.readOffset 0x00028 = 0 ∧ s.readOffset 0x0002C = 0) ∧
    s.readOffset 0x00030 = 8 ∧ s.readOffset 0x00034 = 1024 ∧
    s.readOffset 0x00038 = BitVec.ofNat 32 s.par.bufBytes ∧
    s.readOffset 0x0003C = s.par.fieldPoly.zeroExtend 32 ∧
    (∀ i : Fin 8, s.readOffset (0x00040 + 4 * i.val) = s.args[i]) ∧
    (∀ k, k < 1024 → s.readOffset (0x01000 + 8 * k) = (s.desc k).base ∧
      s.readOffset (0x01004 + 8 * k) = (s.desc k).len) ∧
    (∀ o, o % 4 = 0 → (0x00060 ≤ o ∧ o < 0x01000) ∨ (0x03000 ≤ o ∧ o < 0x10000) → s.readOffset o = 0)

/-- The buffer port. At or above BUFMEM_BYTES, IDLE or BUSY, a read gives 0x00 and a write is ignored (20_memory.md
R68). Below, while IDLE, a read gives the byte and a write sets it alone (R63, R64, R71), a read of a byte that has no
value being the model's fault (R65; log 6); while BUSY both are (70_reset_and_hazards.md R300; log 7). That the value
read goes, zero-extended, to `rdata` is the model's choice (log 9). -/
def Obligations.BufferPort : Prop :=
  ∀ (s : State) (addr : Nat) (v : Byte),
    (s.par.bufBytes ≤ addr →
      s.bufRead addr = .next { s with rdata := 0 } ∧ s.bufWrite addr v = .next s) ∧
    (addr < s.par.bufBytes → s.run = .idle →
      (∀ b, s.mem.read addr = some b → s.bufRead addr = .next { s with rdata := b.zeroExtend 32 }) ∧
      (s.mem.read addr = none → s.bufRead addr = .fault (.unwrittenByte addr)) ∧
      ∃ m, s.bufWrite addr v = .next { s with mem := m } ∧ m.read addr = some v ∧
        ∀ a, a ≠ addr → m.read a = s.mem.read a) ∧
    (addr < s.par.bufBytes → s.busy = true →
      s.bufRead addr = .fault .hostBufAccessWhileBusy ∧ s.bufWrite addr v = .fault .hostBufAccessWhileBusy)

/-- 20_memory.md R66 and 40_field.md R133: the MULTAB window, which writes leave alone, and FMUL agree. -/
def Obligations.MultabWindow : Prop :=
  ∀ s : State,
    (∀ w j, w < 16384 → j < 4 →
      (s.readOffset (0x10000 + 4 * w)).extractLsb' (8 * j) 8 =
        gmul s.par.fieldPoly (BitVec.ofNat 8 ((4 * w + j) / 256)) (BitVec.ofNat 8 ((4 * w + j) % 256))) ∧
    (∀ w v, w < 16384 → s.writeOffset (0x10000 + 4 * w) v = .next s) ∧
    (∀ a b w j : Nat, a < 256 → b < 256 → j < 4 → 4 * w + j = 256 * a + b → s.arg 0 = a → s.arg 1 = b →
      s.srstPending = false →
        ∃ t, exec .fmul s = .next t ∧
          t.result0 = ((s.readOffset (0x10000 + 4 * w)).extractLsb' (8 * j) 8).zeroExtend 32)

/-- 44_control.md R246: a soft reset, at once while IDLE, at the end of the running command while BUSY. -/
def Obligations.SoftReset : Prop :=
  (∀ (s : State) (v : Word), v.getLsbD 1 = true →
    (s.run = .idle → ∃ t, s.writeOffset 0x00008 v = .next t ∧ ResetValues t ∧ t.mem = s.mem ∧ t.par = s.par) ∧
    (∀ c, s.run = .busy c →
      s.writeOffset 0x00008 v = .next { s with ie := v.getLsbD 0, srstPending := true })) ∧
  (∀ s : State, s.busy = true → s.inputs = [] → s.srstPending = true → ∀ t, step s = .next t →
    ∃ u, step { s with srstPending := false } = .next u ∧ ResetValues t ∧ t.mem = u.mem ∧ t.par = s.par)

/-- IRQ = DONE AND IE (10_state.md R47), and when it rises and falls (60_exceptions.md R280). -/
def Obligations.InterruptLine : Prop :=
  ∀ s : State,
    (s.irq = true ↔ s.done = true ∧ s.ie = true) ∧
    (∀ c t, s.run = .busy c → s.inputs = [] → s.srstPending = false → s.ie = true → step s = .next t → t.irq = true) ∧
    (∀ v t, v.getLsbD 1 = true → s.writeOffset 0x0000C v = .next t → t.irq = false) ∧
    (∀ v t, v.getLsbD 0 = false → s.writeOffset 0x00008 v = .next t → t.irq = false) ∧
    (∀ t, s.done = true → s.writeOffset 0x00008 1 = .next t → t.irq = true) ∧
    s.hardReset.irq = false

/-- 44_control.md R242: what every completion leaves, and that nothing else stops a command but the read of a BUFMEM
byte that has no value (20_memory.md R65). -/
def Obligations.Completion : Prop :=
  ∀ (s : State) (c : Command), s.run = .busy c → s.inputs = [] → s.srstPending = false →
    (∃ t, step s = .next t ∧ t.run = .idle ∧ t.done = true ∧
      t.errCode.extractLsb' 24 8 = 0 ∧ t.errCode.extractLsb' 16 8 = c.word.extractLsb' 0 8 ∧
      (t.errCode.extractLsb' 0 8 = 0 → t.errCode.extractLsb' 8 8 = 0 ∧ t.errInfo = 0 ∧ t.err = s.err) ∧
      (t.errCode.extractLsb' 0 8 ≠ 0 → t.err = true)) ∨
    ∃ addr, step s = .fault (.unwrittenByte addr) ∧ s.mem.read addr = none ∧ addr < s.par.bufBytes

/-- The reasons a step stops, and nothing else stops one: a read of a byte that has no value (20_memory.md R65; log 6),
a host access to BUFMEM, below BUFMEM_BYTES, while BUSY (70_reset_and_hazards.md R300; log 7), a host write to a descriptor while BUSY
(R301; log 7). -/
def Obligations.WhereAStepStops : Prop :=
  ∀ s : State, (∀ r, step s ≠ .refused r) ∧
    ∀ f, step s = .fault f →
      (∃ addr, f = .unwrittenByte addr ∧ s.mem.read addr = none ∧ addr < s.par.bufBytes) ∨
      (f = .hostBufAccessWhileBusy ∧ s.busy = true ∧ ∃ addr rest, addr < s.par.bufBytes ∧
        (s.inputs = .bufRead addr :: rest ∨ ∃ v, s.inputs = .bufWrite addr v :: rest)) ∨
      (f = .hostDescWriteWhileBusy ∧ s.busy = true ∧ ∃ off v rest, s.inputs = .mmioWrite off v :: rest ∧
        0x400 ≤ off.toNat ∧ off.toNat < 0xC00)

/-! ### Control and field commands -/

/-- 44_control.md R240: NOP. -/
def Obligations.NopOnlyCompletes : Prop :=
  IsEncoding 0x00000000 .nop ∧ decode 0x00100000 = .error .reservedBits ∧
  ∀ s : State, exec .nop s = .next s.completed ∧
    (s.cmd.word = 0x00000000 → s.completed.errCode = 0 ∧ s.completed.errInfo = 0) ∧
    (s.srstPending = false → s.completed.done = true ∧ s.completed.err = s.err)

/-- 40_field.md R128: FADD. -/
def Obligations.FaddIsXor : Prop :=
  IsEncoding 0x00000001 .fadd ∧
  ∀ s : State, Checked s (exec .fadd s)
    [rangeLine (s.arg 0 < 0 ∨ 255 < s.arg 0) 7, rangeLine (s.arg 1 < 0 ∨ 255 < s.arg 1) 7]
    (exec .fadd s =
      .next { s with
        result0 := (BitVec.ofInt 8 (s.arg 0) ^^^ BitVec.ofInt 8 (s.arg 1)).zeroExtend 32 }.completed)

/-- 40_field.md R129: FMUL. -/
def Obligations.FmulIsProduct : Prop :=
  IsEncoding 0x00000002 .fmul ∧
  ∀ s : State, Checked s (exec .fmul s)
    [rangeLine (s.arg 0 < 0 ∨ 255 < s.arg 0) 7, rangeLine (s.arg 1 < 0 ∨ 255 < s.arg 1) 7]
    (exec .fmul s =
      .next { s with
        result0 := (gmul s.par.fieldPoly (BitVec.ofInt 8 (s.arg 0)) (BitVec.ofInt 8 (s.arg 1))).zeroExtend
          32 }.completed)

/-- 40_field.md R130 over R123: FDIV. The quotient is the unique one for a FIELD_POLY in its range. -/
def Obligations.FdivIsQuotient : Prop :=
  IsEncoding 0x00000003 .fdiv ∧
  ∀ s : State, Checked s (exec .fdiv s)
    [ rangeLine (s.arg 0 < 0 ∨ 255 < s.arg 0) 7, rangeLine (s.arg 1 < 0 ∨ 255 < s.arg 1) 7,
      { cond := s.arg 1 = 0 ∧ s.arg 0 ≠ 0, detail := 1, cause := 5, info := 0 },
      { cond := s.arg 1 = 0 ∧ s.arg 0 = 0, detail := 2, cause := 5, info := 0 } ]
    (∃ q : Byte, exec .fdiv s = .next { s with result0 := q.zeroExtend 32 }.completed ∧
      (s.arg 0 = 0 → q = 0) ∧
      (IrreduciblePoly s.par.fieldPoly → s.arg 0 ≠ 0 →
        q ≠ 0 ∧ ∀ p : Byte, gmul s.par.fieldPoly p (BitVec.ofInt 8 (s.arg 1)) = BitVec.ofInt 8 (s.arg 0) ↔ p = q))

/-- 40_field.md R131 over R124: FINV. The inverse is the unique one for a FIELD_POLY in its range. -/
def Obligations.FinvIsInverse : Prop :=
  IsEncoding 0x00000004 .finv ∧
  ∀ s : State, Checked s (exec .finv s)
    [ rangeLine (s.arg 0 < 0 ∨ 255 < s.arg 0) 7,
      { cond := s.arg 0 = 0, detail := 1, cause := 5, info := 0 } ]
    (∃ q : Byte, exec .finv s = .next { s with result0 := q.zeroExtend 32 }.completed ∧
      (IrreduciblePoly s.par.fieldPoly →
        ∀ p : Byte, gmul s.par.fieldPoly (BitVec.ofInt 8 (s.arg 0)) p = 1 ↔ p = q))

/-- 40_field.md R132 over R126: FEXP. The power is the repeated product for a FIELD_POLY with bit 8 set, as R6 has
it. -/
def Obligations.FexpIsPower : Prop :=
  IsEncoding 0x00000005 .fexp ∧
  ∀ s : State, Checked s (exec .fexp s)
    [rangeLine (s.arg 0 < 0 ∨ 255 < s.arg 0) 7, rangeLine (s.arg 1 < 0) 8]
    (∃ v : Byte, exec .fexp s = .next { s with result0 := v.zeroExtend 32 }.completed ∧
      (s.par.fieldPoly.getLsbD 8 = true →
        v = repeatedProduct s.par.fieldPoly (BitVec.ofInt 8 (s.arg 0)) (s.natArg 1)))

/-! ### Matrix commands -/

/-- 41_matrix.md R150: MCREATE. -/
def Obligations.McreateMakesZeros : Prop :=
  ∀ d : SlotField, IsEncoding (fieldsWord 0x10 d 0 0) (.mcreate d) ∧
  ∀ s : State, Checked s (exec (.mcreate d) s)
    [ rangeLine (8 ≤ d.toNat) 1,
      rangeLine (s.arg 0 < 1 ∨ 256 < s.arg 0 ∨ s.arg 1 < 1 ∨ 512 < s.arg 1) 4 ]
    (∃ t : State, exec (.mcreate d) s = .next t.completed ∧ OnlySlot s t d ∧
      (t.slot d).Is (s.natArg 0) (s.natArg 1) fun _ _ => 0)

/-- 41_matrix.md R151: MIDENT. -/
def Obligations.MidentMakesIdentity : Prop :=
  ∀ d : SlotField, IsEncoding (fieldsWord 0x11 d 0 0) (.mident d) ∧
  ∀ s : State, Checked s (exec (.mident d) s)
    [rangeLine (8 ≤ d.toNat) 1, rangeLine (s.arg 0 < 1 ∨ 256 < s.arg 0) 4]
    (∃ t : State, exec (.mident d) s = .next t.completed ∧ OnlySlot s t d ∧ (t.slot d).IsIdentity (s.natArg 0))

/-- 41_matrix.md R152 over R143: MVAND, for a FIELD_POLY with bit 8 set, as 00_scope.md R6 has it. -/
def Obligations.MvandMakesPowers : Prop :=
  ∀ d : SlotField, IsEncoding (fieldsWord 0x12 d 0 0) (.mvand d) ∧
  ∀ s : State, Checked s (exec (.mvand d) s)
    [ rangeLine (8 ≤ d.toNat) 1,
      rangeLine (s.arg 0 < 1 ∨ 256 < s.arg 0 ∨ s.arg 1 < 1 ∨ 512 < s.arg 1) 4 ]
    (∃ t : State, exec (.mvand d) s = .next t.completed ∧ OnlySlot s t d ∧
      (s.par.fieldPoly.getLsbD 8 = true →
        (t.slot d).Is (s.natArg 0) (s.natArg 1) fun r c =>
          repeatedProduct s.par.fieldPoly (BitVec.ofNat 8 r) c))

/-- 41_matrix.md R153: MGET. -/
def Obligations.MgetReadsEntry : Prop :=
  ∀ a : SlotField, IsEncoding (fieldsWord 0x13 0 a 0) (.mget a) ∧
  ∀ s : State, Checked s (exec (.mget a) s)
    [ rangeLine (8 ≤ a.toNat) 1, rangeLine ((s.slot a).rows = 0) 2,
      rangeLine (s.arg 0 < 0 ∨ (s.slot a).rows ≤ s.arg 0 ∨ s.arg 1 < 0 ∨ (s.slot a).cols ≤ s.arg 1) 3 ]
    (exec (.mget a) s =
      .next { s with result0 := ((s.slot a).get (s.natArg 0) (s.natArg 1)).zeroExtend 32 }.completed)

/-- 41_matrix.md R154: MSET, on a slot whose entries are those of its shape (10_state.md R31). -/
def Obligations.MsetWritesEntry : Prop :=
  ∀ d : SlotField, IsEncoding (fieldsWord 0x14 d 0 0) (.mset d) ∧
  ∀ s : State, (s.slot d).Shaped → Checked s (exec (.mset d) s)
    [ rangeLine (8 ≤ d.toNat) 1, rangeLine ((s.slot d).rows = 0) 2,
      rangeLine (s.arg 0 < 0 ∨ (s.slot d).rows ≤ s.arg 0 ∨ s.arg 1 < 0 ∨ (s.slot d).cols ≤ s.arg 1) 3,
      rangeLine (s.arg 2 < -256 ∨ 255 < s.arg 2) 7 ]
    (∃ t : State, exec (.mset d) s = .next t.completed ∧ OnlySlot s t d ∧
      (t.slot d).Is (s.slot d).rows (s.slot d).cols fun r c =>
        if r = s.natArg 0 ∧ c = s.natArg 1 then
          BitVec.ofNat 8 (if s.arg 2 < 0 then s.arg 2 + 256 else s.arg 2).toNat
        else (s.slot d).get r c)

/-- 41_matrix.md R155: MDIM, an empty slot included. -/
def Obligations.MdimReadsShape : Prop :=
  ∀ a : SlotField, IsEncoding (fieldsWord 0x15 0 a 0) (.mdim a) ∧
  ∀ s : State, Checked s (exec (.mdim a) s)
    [rangeLine (8 ≤ a.toNat) 1]
    (exec (.mdim a) s =
      .next { s with
        result0 := BitVec.ofNat 32 (s.slot a).rows
        result1 := BitVec.ofNat 32 (s.slot a).cols }.completed)

/-- 41_matrix.md R156: MGETROW, every byte of BUFMEM included. -/
def Obligations.MgetrowWritesRow : Prop :=
  ∀ a : SlotField, IsEncoding (fieldsWord 0x16 0 a 0) (.mgetrow a) ∧
  ∀ s : State, Checked s (exec (.mgetrow a) s)
    [ rangeLine (8 ≤ a.toNat) 1, rangeLine ((s.slot a).rows = 0) 2,
      rangeLine (s.arg 0 < 0 ∨ (s.slot a).rows ≤ s.arg 0) 3,
      rangeLine (s.arg 1 < 0 ∨ 1024 ≤ s.arg 1) 10,
      rangeLine (s.par.bufBytes < s.base (s.natArg 1) + s.len (s.natArg 1)) 11,
      rangeLine (s.len (s.natArg 1) < (s.slot a).cols) 11 ]
    (∃ m : Memory, exec (.mgetrow a) s = .next { s with mem := m }.completed ∧
      (∀ c, c < (s.slot a).cols → m.read (s.base (s.natArg 1) + c) = some ((s.slot a).get (s.natArg 0) c)) ∧
      ∀ addr, ¬ InRange addr (s.base (s.natArg 1)) (s.slot a).cols → m.read addr = s.mem.read addr)

/-- 41_matrix.md R160 over R146: MSUB. -/
def Obligations.MsubCopiesRange : Prop :=
  ∀ d a : SlotField, IsEncoding (fieldsWord 0x17 d a 0) (.msub d a) ∧
  ∀ s : State, Checked s (exec (.msub d a) s)
    [ rangeLine (8 ≤ d.toNat ∨ 8 ≤ a.toNat) 1, rangeLine ((s.slot a).rows = 0) 2,
      rangeLine
        (¬ (0 ≤ s.arg 0 ∧ s.arg 0 < s.arg 2 ∧ s.arg 2 ≤ (s.slot a).rows ∧
            0 ≤ s.arg 1 ∧ s.arg 1 < s.arg 3 ∧ s.arg 3 ≤ (s.slot a).cols)) 3 ]
    (∃ t : State, exec (.msub d a) s = .next t.completed ∧ OnlySlot s t d ∧
      (t.slot d).Is (s.arg 2 - s.arg 0).toNat (s.arg 3 - s.arg 1).toNat fun r c =>
        (s.slot a).get (s.natArg 0 + r) (s.natArg 1 + c))

/-- 41_matrix.md R161 over R145: MAUG. -/
def Obligations.MaugJoinsRows : Prop :=
  ∀ d a b : SlotField, IsEncoding (fieldsWord 0x18 d a b) (.maug d a b) ∧
  ∀ s : State, Checked s (exec (.maug d a b) s)
    [ rangeLine (8 ≤ d.toNat ∨ 8 ≤ a.toNat ∨ 8 ≤ b.toNat) 1,
      rangeLine ((s.slot a).rows = 0) 2, rangeLine ((s.slot b).rows = 0) 2,
      rangeLine ((s.slot a).rows ≠ (s.slot b).rows) 5,
      rangeLine (512 < (s.slot a).cols + (s.slot b).cols) 4 ]
    (∃ t : State, exec (.maug d a b) s = .next t.completed ∧ OnlySlot s t d ∧
      (t.slot d).Is (s.slot a).rows ((s.slot a).cols + (s.slot b).cols) fun r c =>
        if c < (s.slot a).cols then (s.slot a).get r c else (s.slot b).get r (c - (s.slot a).cols))

/-- 41_matrix.md R162: MSWAP, on a slot whose entries are those of its shape (10_state.md R31). -/
def Obligations.MswapExchangesRows : Prop :=
  ∀ d : SlotField, IsEncoding (fieldsWord 0x19 d 0 0) (.mswap d) ∧
  ∀ s : State, (s.slot d).Shaped → Checked s (exec (.mswap d) s)
    [ rangeLine (8 ≤ d.toNat) 1, rangeLine ((s.slot d).rows = 0) 2,
      rangeLine (s.arg 0 < 0 ∨ (s.slot d).rows ≤ s.arg 0 ∨ s.arg 1 < 0 ∨ (s.slot d).rows ≤ s.arg 1) 3 ]
    (∃ t : State, exec (.mswap d) s = .next t.completed ∧ OnlySlot s t d ∧
      (t.slot d).Is (s.slot d).rows (s.slot d).cols fun r c =>
        if r = s.natArg 0 then (s.slot d).get (s.natArg 1) c
        else if r = s.natArg 1 then (s.slot d).get (s.natArg 0) c
        else (s.slot d).get r c)

/-- 41_matrix.md R163 over R144: MTIMES. -/
def Obligations.MtimesIsProduct : Prop :=
  ∀ d a b : SlotField, IsEncoding (fieldsWord 0x1A d a b) (.mtimes d a b) ∧
  ∀ s : State, Checked s (exec (.mtimes d a b) s)
    [ rangeLine (8 ≤ d.toNat ∨ 8 ≤ a.toNat ∨ 8 ≤ b.toNat) 1,
      rangeLine ((s.slot a).rows = 0) 2, rangeLine ((s.slot b).rows = 0) 2,
      rangeLine ((s.slot a).cols ≠ (s.slot b).rows) 5 ]
    (∃ t : State, exec (.mtimes d a b) s = .next t.completed ∧ OnlySlot s t d ∧
      (t.slot d).Is (s.slot a).rows (s.slot b).cols fun r c =>
        dot s.par.fieldPoly (s.slot a).cols ((s.slot a).get r) fun i => (s.slot b).get i c)

/-- 41_matrix.md R167: MGAUSS, on a slot whose entries are those of its shape (10_state.md R31). The entries it leaves
on INVERT(SINGULAR) are free values (log 8): nothing is said of them but that they are there. -/
def Obligations.MgaussReducesSlot : Prop :=
  ∀ d : SlotField, IsEncoding (fieldsWord 0x1B d 0 0) (.mgauss d) ∧
  ∀ s : State, (s.slot d).Shaped → Checked s (exec (.mgauss d) s)
    [ rangeLine (8 ≤ d.toNat) 1, rangeLine ((s.slot d).rows = 0) 2,
      rangeLine ((s.slot d).cols < (s.slot d).rows) 5 ]
    ((∀ w, (s.slot d).gauss s.par.fieldPoly = .ok w →
        ∃ t : State, exec (.mgauss d) s = .next t.completed ∧ OnlySlot s t d ∧ t.slot d = w ∧
          w.rows = (s.slot d).rows ∧ w.cols = (s.slot d).cols ∧ w.Shaped) ∧
      (∀ r, (s.slot d).gauss s.par.fieldPoly = .error r →
        ∃ t : State, exec (.mgauss d) s = .next (t.errored 1 3 r) ∧ OnlySlot s { t with draws := s.draws } d ∧
          (t.slot d).rows = (s.slot d).rows ∧ (t.slot d).cols = (s.slot d).cols ∧ (t.slot d).Shaped))

/-- 41_matrix.md R168 over R169: MINV. -/
def Obligations.MinvReplacesSlot : Prop :=
  ∀ d a : SlotField, IsEncoding (fieldsWord 0x1C d a 0) (.minv d a) ∧
  ∀ s : State, Checked s (exec (.minv d a) s)
    [ rangeLine (8 ≤ d.toNat ∨ 8 ≤ a.toNat) 1, rangeLine ((s.slot a).rows = 0) 2,
      rangeLine ((s.slot a).rows ≠ (s.slot a).cols) 6 ]
    ((∀ v, (s.slot a).minvert s.par.fieldPoly = .ok v →
        ∃ t : State, exec (.minv d a) s = .next t.completed ∧ OnlySlot s t d ∧ t.slot d = v ∧
          v.rows = (s.slot a).rows ∧ v.cols = (s.slot a).cols ∧ v.Shaped) ∧
      (∀ r, (s.slot a).minvert s.par.fieldPoly = .error r → exec (.minv d a) s = .next (s.errored 1 3 r)))

/-! ### The coding loop -/

/-- 42_coding_loop.md R181 over R180, R182, R183: CODE, every byte of BUFMEM included; with an output, it needs the
touched bytes of its inputs written (20_memory.md R65; log 17), and stops on one that is not. -/
def Obligations.CodeWritesCombinations : Prop :=
  ∀ a : SlotField, IsEncoding (fieldsWord 0x20 0 a 0) (.code a) ∧
  ∀ s : State,
    let row0 := s.natArg 0
    let inBase := s.natArg 1
    let inCount := s.natArg 2
    let outBase := s.natArg 3
    let outCount := s.natArg 4
    let off := s.natArg 5
    let cnt := s.natArg 6
    Checked s (exec (.code a) s)
      [ rangeLine (8 ≤ a.toNat) 1, rangeLine ((s.slot a).rows = 0) 2,
        rangeLine (s.arg 2 < 1 ∨ (s.slot a).cols < s.arg 2) 9, rangeLine (s.arg 4 < 0) 9,
        rangeLine (s.arg 0 < 0 ∨ (s.slot a).rows < s.arg 0 + s.arg 4) 3,
        rangeLine (s.arg 5 < 0 ∨ s.arg 6 < 0) 8,
        rangeLine (s.arg 1 < 0 ∨ 1024 < s.arg 1 + s.arg 2) 10,
        rangeLine (s.arg 3 < 0 ∨ 1024 < s.arg 3 + s.arg 4) 10,
        rangeLine (s.Misplaced inBase inCount ∨ s.Misplaced outBase outCount) 11,
        rangeLine (s.TooShort inBase inCount (off + cnt) ∨ s.TooShort outBase outCount (off + cnt)) 11,
        rangeLine (s.TouchedAlias inBase inCount outBase outCount off cnt) 14 ]
      (((outCount = 0 ∨ ∀ i, i < inCount → s.Written (s.base (inBase + i) + off) cnt) →
          ∃ m : Memory, exec (.code a) s = .next { s with mem := m }.completed ∧
            (∀ o j, o < outCount → j < cnt →
              m.read (s.base (outBase + o) + off + j) =
                some (dot s.par.fieldPoly inCount ((s.slot a).get (row0 + o)) fun i =>
                  s.byteAt (s.base (inBase + i) + off + j))) ∧
            ∀ addr, (∀ o, o < outCount → ¬ InRange addr (s.base (outBase + o) + off) cnt) →
              m.read addr = s.mem.read addr) ∧
        (0 < outCount → ∀ i, i < inCount → ¬ s.Written (s.base (inBase + i) + off) cnt →
          ∃ addr, exec (.code a) s = .fault (.unwrittenByte addr) ∧ s.mem.read addr = none))

/-- 42_coding_loop.md R185: CHECK completes with UNIMPLEMENTED(1), after the decoding checks. -/
def Obligations.CheckIsUnimplemented : Prop :=
  ∀ a : SlotField, IsEncoding (fieldsWord 0x21 0 a 0) (.check a) ∧
  ∀ s : State, Checked s (exec (.check a) s)
    [rangeLine (8 ≤ a.toNat) 1]
    (exec (.check a) s = .next (s.errored 1 6 0))

/-! ### The coder -/

/-- CONFIG (43_erasure_coder.md R200 over R201), where the top square's inverse is at hand. -/
def Obligations.ConfigBuildsCoder : Prop :=
  IsEncoding 0x00000030 .config ∧
  ∀ s : State,
    let d := s.natArg 0
    let p := s.natArg 1
    let v := Machine.Matrix.vandermonde s.par.fieldPoly (d + p) d
    Checked s (exec .config s)
      [ { cond := s.arg 0 ≤ 0, detail := 1, cause := 1, info := 0 },
        { cond := s.arg 1 < 0, detail := 2, cause := 1, info := 0 },
        { cond := 256 < s.arg 0 + s.arg 1, detail := 3, cause := 1, info := 0 } ]
      (∀ inv, (v.msub 0 0 d d).minvert s.par.fieldPoly = .ok inv →
        ∃ c : Coder, exec .config s = .next { s with coder := some c }.completed ∧ c.d = d ∧ c.p = p ∧ c.Ok ∧
          (∀ r k, r < d + p → k < d →
            c.em.get r k = dot s.par.fieldPoly d (v.get r) fun i => inv.get i k))

/-- 43_erasure_coder.md R205, R206 over 42_coding_loop.md R180: ENCODE, every byte of BUFMEM included; with parity, it
needs the touched bytes of the data shards written (20_memory.md R65; log 17), and stops on one that is not. -/
def Obligations.EncodeWritesParity : Prop :=
  IsEncoding 0x00000031 .encode ∧
  ∀ s : State,
    (s.coder = none → exec .encode s = .next (s.errored 4 1 0)) ∧
    ∀ c : Coder, s.coder = some c → c.Ok →
      let shardBase := s.natArg 0
      let off := s.natArg 2
      let cnt := s.natArg 3
      Checked s (exec .encode s)
        [ rangeLine (s.arg 1 ≠ c.t) 12, rangeLine (s.arg 2 < 0 ∨ s.arg 3 < 0) 8,
          rangeLine (s.arg 0 < 0 ∨ 1024 < s.arg 0 + c.t) 10,
          rangeLine (s.Misplaced shardBase c.t) 11, rangeLine (s.LengthsDiffer shardBase c.t) 13,
          rangeLine (s.TooShort shardBase c.t (off + cnt)) 11,
          rangeLine (s.TouchedAlias shardBase c.d (shardBase + c.d) c.p off cnt) 14 ]
        (((c.p = 0 ∨ ∀ i, i < c.d → s.Written (s.base (shardBase + i) + off) cnt) →
            ∃ m : Memory, exec .encode s = .next { s with mem := m }.completed ∧
              (∀ o j, o < c.p → j < cnt →
                m.read (s.base (shardBase + c.d + o) + off + j) =
                  some (dot s.par.fieldPoly c.d (c.pr.get o) fun i =>
                    s.byteAt (s.base (shardBase + i) + off + j))) ∧
              ∀ addr, (∀ o, o < c.p → ¬ InRange addr (s.base (shardBase + c.d + o) + off) cnt) →
                m.read addr = s.mem.read addr) ∧
          (0 < c.p → ∀ i, i < c.d → ¬ s.Written (s.base (shardBase + i) + off) cnt →
            ∃ addr, exec .encode s = .fault (.unwrittenByte addr) ∧ s.mem.read addr = none))

/-- The common part of DECODE (43_erasure_coder.md R210, R211): its checks, in order; the tags are read after
INSUFFICIENT_SHARDS, and a tag byte that has no value stops the model there (20_memory.md R65; log 17). -/
def Obligations.DecodeCommonChecks : Prop :=
  IsEncoding 0x00000032 .decode ∧
  ∀ s : State,
    (s.coder = none → exec .decode s = .next (s.errored 4 1 0)) ∧
    ∀ c : Coder, s.coder = some c → c.Ok →
      Checked s (exec .decode s) (s.decodeChecks c)
        (((∀ k ∈ s.pres, s.Written (s.base k) 1) → Checked s (exec .decode s) (s.tagChecks c) True) ∧
          (∀ k ∈ s.pres, ¬ s.Written (s.base k) 1 →
            ∃ addr, exec .decode s = .fault (.unwrittenByte addr) ∧ s.mem.read addr = none))

/-- DECODE's fast path (43_erasure_coder.md R212): its checks, and whole payloads of the data shards copied to OUT[0 ..
D). It needs those payloads written (20_memory.md R65; log 17). -/
def Obligations.DecodeFastPath : Prop :=
  ∀ (s : State) (c : Coder), s.coder = some c → c.Ok → s.Fast c → Passes (s.decodeChecks c) →
    (∀ k ∈ s.pres, s.Written (s.base k) 1) → Passes (s.tagChecks c) →
      Checked s (exec .decode s) (s.orderCheck c :: s.outputChecks c.d)
        ((∀ t k, t < c.d → s.Carries t k → s.Written (s.base k + 1) s.payloadLen) →
          ∃ m : Memory,
            exec .decode s = .next { s with mem := m, result0 := BitVec.ofNat 32 c.d, result1 := 1 }.completed ∧
            (∀ t k j, t < c.d → s.Carries t k → j < s.payloadLen →
              m.read (s.base (s.natArg 2 + t) + j) = some (s.byteAt (s.base k + 1 + j))) ∧
            ∀ addr, (∀ t, t < c.d → ¬ InRange addr (s.base (s.natArg 2 + t)) s.payloadLen) →
              m.read addr = s.mem.read addr)

/-- DECODE's general path (43_erasure_coder.md R213 over 42_coding_loop.md R180): its checks, the inversion of the
chosen rows, and all T shards written to OUT. It needs the present payloads written (20_memory.md R65; log 17). -/
def Obligations.DecodeGeneralPath : Prop :=
  ∀ (s : State) (c : Coder), s.coder = some c → c.Ok → ¬ s.Fast c → Passes (s.decodeChecks c) →
    (∀ k ∈ s.pres, s.Written (s.base k) 1) → Passes (s.tagChecks c) →
      let out (t : Nat) : Nat := s.base (s.natArg 2 + t)
      let off := s.natArg 3
      let cnt := s.natArg 4
      Checked s (exec .decode s) (s.outputChecks c.t)
        (∃ chosen : List Nat, s.IsChosen c chosen ∧
          ∀ m : Machine.Matrix, (m.Is c.d c.d fun r k => c.em.get (chosen.getD r 0) k) →
            (∀ r, m.minvert s.par.fieldPoly = .error r → exec .decode s = .next (s.errored 1 3 r)) ∧
            (∀ inv, m.minvert s.par.fieldPoly = .ok inv →
              (∀ t k, t < c.t → s.Carries t k → s.Written (s.base k + 1) s.payloadLen) →
                ∃ b : Memory,
                  exec .decode s =
                    .next { s with mem := b, result0 := BitVec.ofNat 32 c.d, result1 := 0 }.completed ∧
                  (∀ t k j, t < c.t → s.Carries t k → j < s.payloadLen →
                    b.read (out t + j) = some (s.byteAt (s.base k + 1 + j))) ∧
                  (∀ t j, t < c.t → ¬ s.ShardPresent t → j < s.payloadLen → ¬ InRange j off cnt →
                    b.read (out t + j) = some 0) ∧
                  (∀ (t j : Nat) (src : Nat → Nat), t < c.d → ¬ s.ShardPresent t → InRange j off cnt →
                    (∀ i, i < c.d → s.Carries (chosen.getD i 0) (src i)) →
                      b.read (out t + j) =
                        some (dot s.par.fieldPoly c.d (inv.get t) fun i => s.byteAt (s.base (src i) + 1 + j))) ∧
                  (∀ t j, c.d ≤ t → t < c.t → ¬ s.ShardPresent t → InRange j off cnt →
                    b.read (out t + j) =
                      some (dot s.par.fieldPoly c.d (c.pr.get (t - c.d)) fun i =>
                        (b.read (out i + j)).getD 0)) ∧
                  ∀ addr, (∀ t, t < c.t → ¬ InRange addr (out t) s.payloadLen) → b.read addr = s.mem.read addr))

/-- 43_erasure_coder.md R220: EMGET. -/
def Obligations.EmgetReadsEntry : Prop :=
  IsEncoding 0x00000033 .emget ∧
  ∀ s : State,
    (s.coder = none → exec .emget s = .next (s.errored 4 1 0)) ∧
    ∀ c : Coder, s.coder = some c → Checked s (exec .emget s)
      [rangeLine (s.arg 0 < 0 ∨ c.t ≤ s.arg 0 ∨ s.arg 1 < 0 ∨ c.d ≤ s.arg 1) 3]
      (exec .emget s =
        .next { s with result0 := (c.em.get (s.natArg 0) (s.natArg 1)).zeroExtend 32 }.completed)

/-- 43_erasure_coder.md R221: EMEXPORT. -/
def Obligations.EmexportCopiesMatrix : Prop :=
  ∀ d : SlotField, IsEncoding (fieldsWord 0x34 d 0 0) (.emexport d) ∧
  ∀ s : State, Checked s (exec (.emexport d) s)
    [rangeLine (8 ≤ d.toNat) 1, { cond := s.coder = none, detail := 4, cause := 1, info := 0 }]
    (∃ (t : State) (c : Coder), s.coder = some c ∧ exec (.emexport d) s = .next t.completed ∧ OnlySlot s t d ∧
      t.slot d = c.em)

/-! ### Rules over all commands -/

/-- The errors each command can raise (60_exceptions.md R272), and what an error leaves (R260, R270): the report and
nothing else, but for MGAUSS's slot (41_matrix.md R167). The model keeps a CONFIG whose top square is singular (log 16);
`Obligations.EncodingMatrixInvertible` says that there is none. -/
def Obligations.ErrorsOfEachCommand : Prop :=
  ∀ (i : Instr) (s : State),
    (∃ u : State, exec i s = .next u.completed ∧ i.wellFormed = true ∧ (∀ a, i ≠ .check a)) ∨
    (i.wellFormed = false ∧ exec i s = .next (s.errored 1 2 0)) ∨
    (∃ e ∈ allowedErrors i, ∃ info, i.wellFormed = true ∧
      (info = 0 ∨ e = (1, 3) ∨ e = (0, 4)) ∧
      (exec i s = .next (s.errored e.1 e.2 info) ∨
        ∃ d t, i = .mgauss d ∧ e = (1, 3) ∧ exec i s = .next (State.errored t e.1 e.2 info) ∧
          { t with slots := s.slots, draws := s.draws } = s ∧ ∀ j, j ≠ d → t.slot j = s.slot j)) ∨
    (∃ row, i = .config ∧ buildEM s.par.fieldPoly (s.natArg 0) (s.natArg 1) = .error (.raise (.singular row)) ∧
      exec i s = .next (s.errored 1 3 row)) ∨
    ∃ addr, exec i s = .fault (.unwrittenByte addr) ∧ s.mem.read addr = none

/-- 10_state.md R23: which commands write RESULT0 and RESULT1, and only on success (ERR_CODE's cause 0). -/
def Obligations.ResultRegisterWriters : Prop :=
  ∀ (i : Instr) (s t : State), s.srstPending = false → exec i s = .next t →
    (t.errCode.extractLsb' 0 8 ≠ 0 → t.result0 = s.result0 ∧ t.result1 = s.result1) ∧
    (i ∉ [.fadd, .fmul, .fdiv, .finv, .fexp, .emget, .decode] → (∀ a, i ≠ .mget a ∧ i ≠ .mdim a) →
      t.result0 = s.result0 ∧ t.result1 = s.result1) ∧
    (i ≠ .decode → (∀ a, i ≠ .mdim a) → t.result1 = s.result1)

/-- Only its destination's slot is written by a command (10_state.md R32), and no slot by a failing command but MGAUSS
(00_scope.md R15); only a successful CONFIG writes the coder state (10_state.md R33). -/
def Obligations.SlotAndCoderWriters : Prop :=
  ∀ (i : Instr) (s t : State) (j : SlotField), s.srstPending = false → exec i s = .next t →
    (i ≠ .config ∨ t.errCode.extractLsb' 0 8 ≠ 0 → t.coder = s.coder) ∧
    (destination i ≠ some j → t.slot j = s.slot j) ∧
    (t.errCode.extractLsb' 0 8 ≠ 0 → i ≠ .mgauss j → t.slot j = s.slot j)

/-- Only MGETROW, CODE, ENCODE and DECODE write BUFMEM (20_memory.md R60), only on success (00_scope.md R15), only
inside well-placed descriptors (R64), and a byte once written keeps having a value. -/
def Obligations.BufmemWriters : Prop :=
  ∀ (i : Instr) (s t : State), exec i s = .next t →
    ((∀ a, i ≠ .mgetrow a ∧ i ≠ .code a) → i ≠ .encode → i ≠ .decode → t.mem = s.mem) ∧
    (s.srstPending = false → t.errCode.extractLsb' 0 8 ≠ 0 → t.mem = s.mem) ∧
    (∀ addr, t.mem.read addr ≠ s.mem.read addr →
      ∃ k, k < 1024 ∧ InRange addr (s.base k) (s.len k) ∧ s.base k + s.len k ≤ s.par.bufBytes) ∧
    (∀ addr, (s.mem.read addr).isSome = true → (t.mem.read addr).isSome = true)

/-- What no command writes: ARG0..ARG7 (10_state.md R21), the descriptor table (R40), IE, OVERRUN, the parameters, the
soft reset flag; and what every completion leaves of DONE, the run state and ERR. -/
def Obligations.HostStateFrame : Prop :=
  ∀ (i : Instr) (s t : State), s.srstPending = false → exec i s = .next t →
    t.args = s.args ∧ t.bd = s.bd ∧ t.ie = s.ie ∧ t.overrun = s.overrun ∧ t.par = s.par ∧ t.inputs = s.inputs ∧
    t.rdata = s.rdata ∧ t.srstPending = false ∧ t.done = true ∧ t.run = .idle ∧ (s.err = true → t.err = true)

/-- A command reads the ARG registers only through its snapshot (10_state.md R21, 30_encoding.md R96), and only those
R100 lists for it (30_encoding.md R93). -/
def Obligations.SnapshotOnly : Prop :=
  ∀ (i : Instr) (s : State) (c : Command) (live args : Vector Word 8), s.run = .busy c →
    (∀ k : Fin 8, k.val < argCount i → args[k] = c.args[k]) → s.srstPending = false →
      (∀ t, exec i s = .next t →
        exec i { s with args := live, run := .busy { word := c.word, args := args } } =
          .next { t with args := live }) ∧
      ∀ f, exec i s = .fault f →
        exec i { s with args := live, run := .busy { word := c.word, args := args } } = .fault f

/-- The constants: no step changes what ID, VERSION, P_NMAT, P_NDESC, P_BUFMEM, P_POLY and the MULTAB window read
(10_state.md R24, R25, R36, R37). -/
def Obligations.ConstantsNeverChange : Prop :=
  ∀ s t : State, step s = .next t → t.par = s.par ∧
    ∀ o, (o < 0x00008 ∨ (0x00030 ≤ o ∧ o < 0x00040) ∨ (0x10000 ≤ o ∧ o < 0x20000)) →
      t.readOffset o = s.readOffset o

/-! ### The field and the matrices -/

/-- 40_field.md R120, R121: `gmul` is the product of the polynomials over GF(2), modulo FIELD_POLY. -/
def Obligations.GmulIsPolynomialProduct : Prop :=
  ∀ (poly : BitVec 9) (a b : Byte), poly.getLsbD 8 = true →
    ∃ q : Polynomial (ZMod 2),
      (∑ i ∈ Finset.range 8, if a.getLsbD i then (Polynomial.X : Polynomial (ZMod 2)) ^ i else 0) *
          (∑ i ∈ Finset.range 8, if b.getLsbD i then (Polynomial.X : Polynomial (ZMod 2)) ^ i else 0) =
        (∑ i ∈ Finset.range 9, if poly.getLsbD i then (Polynomial.X : Polynomial (ZMod 2)) ^ i else 0) * q +
          (∑ i ∈ Finset.range 8, if (gmul poly a b).getLsbD i then (Polynomial.X : Polynomial (ZMod 2)) ^ i else 0)

/-- 40_field.md R125: the field laws. -/
def Obligations.FieldLaws : Prop :=
  ∀ poly : BitVec 9, IrreduciblePoly poly → ∀ a b c : Byte,
    gmul poly a b = gmul poly b a ∧ gmul poly (gmul poly a b) c = gmul poly a (gmul poly b c) ∧
    gmul poly a (b ^^^ c) = gmul poly a b ^^^ gmul poly a c ∧
    gmul poly a 0 = 0 ∧ gmul poly a 1 = a ∧
    (b ≠ 0 → gdiv poly (gmul poly a b) b = .ok a) ∧
    (a ≠ 0 → ∃ q, gdiv poly 1 a = .ok q ∧ gmul poly a q = 1) ∧
    a ^^^ a = 0

/-- `gauss` (41_matrix.md R165) does what R166 says: it fails exactly when the left square is singular, at the smallest
dependent column, and otherwise ends as `[identity | L⁻¹ × Rest]`. -/
def Obligations.GaussReduces : Prop :=
  ∀ (poly : BitVec 9) (w : Machine.Matrix), IrreduciblePoly poly → w.Shaped → w.rows ≤ w.cols →
    (∀ r, w.gauss poly = .error r →
      r < w.rows ∧ ¬ w.Independent poly (r + 1) ∧ w.Independent poly r) ∧
    (∀ v, w.gauss poly = .ok v →
      w.Independent poly w.rows ∧ v.rows = w.rows ∧ v.cols = w.cols ∧
      (∀ r c, r < w.rows → c < w.rows → v.get r c = if r = c then 1 else 0) ∧
      ∃ x : Machine.Matrix, (x.Is w.rows w.rows fun r c => x.get r c) ∧
        ∀ r c, r < w.rows → c < w.cols → v.get r c = dot poly w.rows (x.get r) fun i => w.get i c)

/-- 41_matrix.md R170: on every invertible square matrix, MINV completes and leaves the inverse on both sides. -/
def Obligations.MinvInverts : Prop :=
  ∀ (d a : SlotField) (s : State), d.toNat < 8 → a.toNat < 8 → IrreduciblePoly s.par.fieldPoly →
    (s.slot a).Shaped → (s.slot a).rows ≠ 0 → (s.slot a).Invertible s.par.fieldPoly →
      ∃ t : State, exec (.minv d a) s = .next t.completed ∧ OnlySlot s t d ∧
        ((s.slot a).mtimes s.par.fieldPoly (t.slot d)).IsIdentity (s.slot a).rows ∧
        ((t.slot d).mtimes s.par.fieldPoly (s.slot a)).IsIdentity (s.slot a).rows

/-- The top D rows of EM are identity(D), and with D = 1 every row is [1] (43_erasure_coder.md R202, 10_state.md
R35). -/
def Obligations.EncodingMatrixTop : Prop :=
  ∀ (poly : BitVec 9) (d p : Nat) (em : Machine.Matrix), IrreduciblePoly poly → 1 ≤ d → d + p ≤ 256 →
    buildEM poly d p = .ok em →
      em.rows = d + p ∧ em.cols = d ∧ em.Shaped ∧
      (∀ r c, r < d → c < d → em.get r c = if r = c then 1 else 0) ∧
      (d = 1 → ∀ r, r < p + 1 → em.get r 0 = 1)

/-- CONFIG never meets a singular matrix (43_erasure_coder.md R201, 60_exceptions.md R264), and every D distinct rows
of EM are invertible (10_state.md R35, 43_erasure_coder.md R202). -/
def Obligations.EncodingMatrixInvertible : Prop :=
  ∀ (poly : BitVec 9) (d p : Nat), IrreduciblePoly poly → 1 ≤ d → d + p ≤ 256 →
    ∃ em, buildEM poly d p = .ok em ∧
      ∀ (f : Nat → Nat) (m : Machine.Matrix), (∀ i, i < d → f i < d + p) → (∀ i j, i < j → j < d → f i ≠ f j) →
        (m.Is d d fun r k => em.get (f r) k) → ∃ inv, m.minvert poly = .ok inv

/-- 43_erasure_coder.md R214: from a consistent encoding, DECODE gives back the original shards over the range, by
either path, whichever D or more shards are present. -/
def Obligations.DecodeRecoversShards : Prop :=
  ∀ (s : State) (c : Coder) (shard : Nat → Nat → Byte), IrreduciblePoly s.par.fieldPoly → s.coder = some c → c.Ok →
    buildEM s.par.fieldPoly c.d c.p = .ok c.em →
    Passes (s.decodeChecks c) → (∀ k ∈ s.pres, s.Written (s.base k) 1) → Passes (s.tagChecks c) →
    (s.Fast c → Passes (s.orderCheck c :: s.outputChecks c.d)) → (¬ s.Fast c → Passes (s.outputChecks c.t)) →
    (∀ t j, t < c.t → j < s.payloadLen →
      shard t j = dot s.par.fieldPoly c.d (c.em.get t) fun i => shard i j) →
    (∀ t k j, s.Carries t k → j < s.payloadLen → s.mem.read (s.base k + 1 + j) = some (shard t j)) →
      ∃ (m : Memory) (path : Word),
        exec .decode s = .next { s with mem := m, result0 := BitVec.ofNat 32 c.d, result1 := path }.completed ∧
        (∀ t j, t < c.d ∨ (¬ s.Fast c ∧ t < c.t) → InRange j (s.natArg 3) (s.natArg 4) →
          m.read (s.base (s.natArg 2 + t) + j) = some (shard t j)) ∧
        (∀ t j, t < c.d ∨ (¬ s.Fast c ∧ t < c.t) → s.ShardPresent t → j < s.payloadLen →
          m.read (s.base (s.natArg 2 + t) + j) = some (shard t j))

end Statements
end

