-- ==== Sys2Proof/Laws/State.lean ====
section
/-! SUPPORT. One lemma per field per update of State, each true by `rfl`: no later proof unfolds a record update. -/

namespace Sys2Proof.Machine

/-! ### setMem -/

@[simp] theorem State.setMem_par (s : State) (m : Memory) : (s.setMem m).par = s.par := rfl
@[simp] theorem State.setMem_args (s : State) (m : Memory) : (s.setMem m).args = s.args := rfl
@[simp] theorem State.setMem_result0 (s : State) (m : Memory) : (s.setMem m).result0 = s.result0 := rfl
@[simp] theorem State.setMem_result1 (s : State) (m : Memory) : (s.setMem m).result1 = s.result1 := rfl
@[simp] theorem State.setMem_ie (s : State) (m : Memory) : (s.setMem m).ie = s.ie := rfl
@[simp] theorem State.setMem_done (s : State) (m : Memory) : (s.setMem m).done = s.done := rfl
@[simp] theorem State.setMem_err (s : State) (m : Memory) : (s.setMem m).err = s.err := rfl
@[simp] theorem State.setMem_overrun (s : State) (m : Memory) : (s.setMem m).overrun = s.overrun := rfl
@[simp] theorem State.setMem_errCode (s : State) (m : Memory) : (s.setMem m).errCode = s.errCode := rfl
@[simp] theorem State.setMem_errInfo (s : State) (m : Memory) : (s.setMem m).errInfo = s.errInfo := rfl
@[simp] theorem State.setMem_slots (s : State) (m : Memory) : (s.setMem m).slots = s.slots := rfl
@[simp] theorem State.setMem_coder (s : State) (m : Memory) : (s.setMem m).coder = s.coder := rfl
@[simp] theorem State.setMem_bd (s : State) (m : Memory) : (s.setMem m).bd = s.bd := rfl
@[simp] theorem State.setMem_mem (s : State) (m : Memory) : (s.setMem m).mem = m := rfl
@[simp] theorem State.setMem_run (s : State) (m : Memory) : (s.setMem m).run = s.run := rfl
@[simp] theorem State.setMem_srstPending (s : State) (m : Memory) : (s.setMem m).srstPending = s.srstPending := rfl
@[simp] theorem State.setMem_inputs (s : State) (m : Memory) : (s.setMem m).inputs = s.inputs := rfl
@[simp] theorem State.setMem_rdata (s : State) (m : Memory) : (s.setMem m).rdata = s.rdata := rfl
@[simp] theorem State.setMem_draws (s : State) (m : Memory) : (s.setMem m).draws = s.draws := rfl

/-! ### setResult0 -/

@[simp] theorem State.setResult0_par (s : State) (v : Word) : (s.setResult0 v).par = s.par := rfl
@[simp] theorem State.setResult0_args (s : State) (v : Word) : (s.setResult0 v).args = s.args := rfl
@[simp] theorem State.setResult0_result0 (s : State) (v : Word) : (s.setResult0 v).result0 = v := rfl
@[simp] theorem State.setResult0_result1 (s : State) (v : Word) : (s.setResult0 v).result1 = s.result1 := rfl
@[simp] theorem State.setResult0_ie (s : State) (v : Word) : (s.setResult0 v).ie = s.ie := rfl
@[simp] theorem State.setResult0_done (s : State) (v : Word) : (s.setResult0 v).done = s.done := rfl
@[simp] theorem State.setResult0_err (s : State) (v : Word) : (s.setResult0 v).err = s.err := rfl
@[simp] theorem State.setResult0_overrun (s : State) (v : Word) : (s.setResult0 v).overrun = s.overrun := rfl
@[simp] theorem State.setResult0_errCode (s : State) (v : Word) : (s.setResult0 v).errCode = s.errCode := rfl
@[simp] theorem State.setResult0_errInfo (s : State) (v : Word) : (s.setResult0 v).errInfo = s.errInfo := rfl
@[simp] theorem State.setResult0_slots (s : State) (v : Word) : (s.setResult0 v).slots = s.slots := rfl
@[simp] theorem State.setResult0_coder (s : State) (v : Word) : (s.setResult0 v).coder = s.coder := rfl
@[simp] theorem State.setResult0_bd (s : State) (v : Word) : (s.setResult0 v).bd = s.bd := rfl
@[simp] theorem State.setResult0_mem (s : State) (v : Word) : (s.setResult0 v).mem = s.mem := rfl
@[simp] theorem State.setResult0_run (s : State) (v : Word) : (s.setResult0 v).run = s.run := rfl
@[simp] theorem State.setResult0_srstPending (s : State) (v : Word) : (s.setResult0 v).srstPending = s.srstPending := rfl
@[simp] theorem State.setResult0_inputs (s : State) (v : Word) : (s.setResult0 v).inputs = s.inputs := rfl
@[simp] theorem State.setResult0_rdata (s : State) (v : Word) : (s.setResult0 v).rdata = s.rdata := rfl
@[simp] theorem State.setResult0_draws (s : State) (v : Word) : (s.setResult0 v).draws = s.draws := rfl

/-! ### setResult1 -/

@[simp] theorem State.setResult1_par (s : State) (v : Word) : (s.setResult1 v).par = s.par := rfl
@[simp] theorem State.setResult1_args (s : State) (v : Word) : (s.setResult1 v).args = s.args := rfl
@[simp] theorem State.setResult1_result0 (s : State) (v : Word) : (s.setResult1 v).result0 = s.result0 := rfl
@[simp] theorem State.setResult1_result1 (s : State) (v : Word) : (s.setResult1 v).result1 = v := rfl
@[simp] theorem State.setResult1_ie (s : State) (v : Word) : (s.setResult1 v).ie = s.ie := rfl
@[simp] theorem State.setResult1_done (s : State) (v : Word) : (s.setResult1 v).done = s.done := rfl
@[simp] theorem State.setResult1_err (s : State) (v : Word) : (s.setResult1 v).err = s.err := rfl
@[simp] theorem State.setResult1_overrun (s : State) (v : Word) : (s.setResult1 v).overrun = s.overrun := rfl
@[simp] theorem State.setResult1_errCode (s : State) (v : Word) : (s.setResult1 v).errCode = s.errCode := rfl
@[simp] theorem State.setResult1_errInfo (s : State) (v : Word) : (s.setResult1 v).errInfo = s.errInfo := rfl
@[simp] theorem State.setResult1_slots (s : State) (v : Word) : (s.setResult1 v).slots = s.slots := rfl
@[simp] theorem State.setResult1_coder (s : State) (v : Word) : (s.setResult1 v).coder = s.coder := rfl
@[simp] theorem State.setResult1_bd (s : State) (v : Word) : (s.setResult1 v).bd = s.bd := rfl
@[simp] theorem State.setResult1_mem (s : State) (v : Word) : (s.setResult1 v).mem = s.mem := rfl
@[simp] theorem State.setResult1_run (s : State) (v : Word) : (s.setResult1 v).run = s.run := rfl
@[simp] theorem State.setResult1_srstPending (s : State) (v : Word) : (s.setResult1 v).srstPending = s.srstPending := rfl
@[simp] theorem State.setResult1_inputs (s : State) (v : Word) : (s.setResult1 v).inputs = s.inputs := rfl
@[simp] theorem State.setResult1_rdata (s : State) (v : Word) : (s.setResult1 v).rdata = s.rdata := rfl
@[simp] theorem State.setResult1_draws (s : State) (v : Word) : (s.setResult1 v).draws = s.draws := rfl

/-! ### setSlot -/

@[simp] theorem State.setSlot_par (s : State) (m : SlotField) (a : Matrix) : (s.setSlot m a).par = s.par := rfl
@[simp] theorem State.setSlot_args (s : State) (m : SlotField) (a : Matrix) : (s.setSlot m a).args = s.args := rfl
@[simp] theorem State.setSlot_result0 (s : State) (m : SlotField) (a : Matrix) : (s.setSlot m a).result0 = s.result0 := rfl
@[simp] theorem State.setSlot_result1 (s : State) (m : SlotField) (a : Matrix) : (s.setSlot m a).result1 = s.result1 := rfl
@[simp] theorem State.setSlot_ie (s : State) (m : SlotField) (a : Matrix) : (s.setSlot m a).ie = s.ie := rfl
@[simp] theorem State.setSlot_done (s : State) (m : SlotField) (a : Matrix) : (s.setSlot m a).done = s.done := rfl
@[simp] theorem State.setSlot_err (s : State) (m : SlotField) (a : Matrix) : (s.setSlot m a).err = s.err := rfl
@[simp] theorem State.setSlot_overrun (s : State) (m : SlotField) (a : Matrix) : (s.setSlot m a).overrun = s.overrun := rfl
@[simp] theorem State.setSlot_errCode (s : State) (m : SlotField) (a : Matrix) : (s.setSlot m a).errCode = s.errCode := rfl
@[simp] theorem State.setSlot_errInfo (s : State) (m : SlotField) (a : Matrix) : (s.setSlot m a).errInfo = s.errInfo := rfl
@[simp] theorem State.setSlot_slots (s : State) (m : SlotField) (a : Matrix) : (s.setSlot m a).slots = s.slots.setIfInBounds m.toNat a := rfl
@[simp] theorem State.setSlot_coder (s : State) (m : SlotField) (a : Matrix) : (s.setSlot m a).coder = s.coder := rfl
@[simp] theorem State.setSlot_bd (s : State) (m : SlotField) (a : Matrix) : (s.setSlot m a).bd = s.bd := rfl
@[simp] theorem State.setSlot_mem (s : State) (m : SlotField) (a : Matrix) : (s.setSlot m a).mem = s.mem := rfl
@[simp] theorem State.setSlot_run (s : State) (m : SlotField) (a : Matrix) : (s.setSlot m a).run = s.run := rfl
@[simp] theorem State.setSlot_srstPending (s : State) (m : SlotField) (a : Matrix) : (s.setSlot m a).srstPending = s.srstPending := rfl
@[simp] theorem State.setSlot_inputs (s : State) (m : SlotField) (a : Matrix) : (s.setSlot m a).inputs = s.inputs := rfl
@[simp] theorem State.setSlot_rdata (s : State) (m : SlotField) (a : Matrix) : (s.setSlot m a).rdata = s.rdata := rfl
@[simp] theorem State.setSlot_draws (s : State) (m : SlotField) (a : Matrix) : (s.setSlot m a).draws = s.draws := rfl

/-! ### setDesc -/

@[simp] theorem State.setDesc_par (s : State) (k : Nat) (d : Desc) : (s.setDesc k d).par = s.par := rfl
@[simp] theorem State.setDesc_args (s : State) (k : Nat) (d : Desc) : (s.setDesc k d).args = s.args := rfl
@[simp] theorem State.setDesc_result0 (s : State) (k : Nat) (d : Desc) : (s.setDesc k d).result0 = s.result0 := rfl
@[simp] theorem State.setDesc_result1 (s : State) (k : Nat) (d : Desc) : (s.setDesc k d).result1 = s.result1 := rfl
@[simp] theorem State.setDesc_ie (s : State) (k : Nat) (d : Desc) : (s.setDesc k d).ie = s.ie := rfl
@[simp] theorem State.setDesc_done (s : State) (k : Nat) (d : Desc) : (s.setDesc k d).done = s.done := rfl
@[simp] theorem State.setDesc_err (s : State) (k : Nat) (d : Desc) : (s.setDesc k d).err = s.err := rfl
@[simp] theorem State.setDesc_overrun (s : State) (k : Nat) (d : Desc) : (s.setDesc k d).overrun = s.overrun := rfl
@[simp] theorem State.setDesc_errCode (s : State) (k : Nat) (d : Desc) : (s.setDesc k d).errCode = s.errCode := rfl
@[simp] theorem State.setDesc_errInfo (s : State) (k : Nat) (d : Desc) : (s.setDesc k d).errInfo = s.errInfo := rfl
@[simp] theorem State.setDesc_slots (s : State) (k : Nat) (d : Desc) : (s.setDesc k d).slots = s.slots := rfl
@[simp] theorem State.setDesc_coder (s : State) (k : Nat) (d : Desc) : (s.setDesc k d).coder = s.coder := rfl
@[simp] theorem State.setDesc_bd (s : State) (k : Nat) (d : Desc) : (s.setDesc k d).bd = if d = Desc.zero then tableDrop s.bd k else tablePut s.bd k d := rfl
@[simp] theorem State.setDesc_mem (s : State) (k : Nat) (d : Desc) : (s.setDesc k d).mem = s.mem := rfl
@[simp] theorem State.setDesc_run (s : State) (k : Nat) (d : Desc) : (s.setDesc k d).run = s.run := rfl
@[simp] theorem State.setDesc_srstPending (s : State) (k : Nat) (d : Desc) : (s.setDesc k d).srstPending = s.srstPending := rfl
@[simp] theorem State.setDesc_inputs (s : State) (k : Nat) (d : Desc) : (s.setDesc k d).inputs = s.inputs := rfl
@[simp] theorem State.setDesc_rdata (s : State) (k : Nat) (d : Desc) : (s.setDesc k d).rdata = s.rdata := rfl
@[simp] theorem State.setDesc_draws (s : State) (k : Nat) (d : Desc) : (s.setDesc k d).draws = s.draws := rfl

/-! ### setCoder -/

@[simp] theorem State.setCoder_par (s : State) (c : Coder) : (s.setCoder c).par = s.par := rfl
@[simp] theorem State.setCoder_args (s : State) (c : Coder) : (s.setCoder c).args = s.args := rfl
@[simp] theorem State.setCoder_result0 (s : State) (c : Coder) : (s.setCoder c).result0 = s.result0 := rfl
@[simp] theorem State.setCoder_result1 (s : State) (c : Coder) : (s.setCoder c).result1 = s.result1 := rfl
@[simp] theorem State.setCoder_ie (s : State) (c : Coder) : (s.setCoder c).ie = s.ie := rfl
@[simp] theorem State.setCoder_done (s : State) (c : Coder) : (s.setCoder c).done = s.done := rfl
@[simp] theorem State.setCoder_err (s : State) (c : Coder) : (s.setCoder c).err = s.err := rfl
@[simp] theorem State.setCoder_overrun (s : State) (c : Coder) : (s.setCoder c).overrun = s.overrun := rfl
@[simp] theorem State.setCoder_errCode (s : State) (c : Coder) : (s.setCoder c).errCode = s.errCode := rfl
@[simp] theorem State.setCoder_errInfo (s : State) (c : Coder) : (s.setCoder c).errInfo = s.errInfo := rfl
@[simp] theorem State.setCoder_slots (s : State) (c : Coder) : (s.setCoder c).slots = s.slots := rfl
@[simp] theorem State.setCoder_coder (s : State) (c : Coder) : (s.setCoder c).coder = some c := rfl
@[simp] theorem State.setCoder_bd (s : State) (c : Coder) : (s.setCoder c).bd = s.bd := rfl
@[simp] theorem State.setCoder_mem (s : State) (c : Coder) : (s.setCoder c).mem = s.mem := rfl
@[simp] theorem State.setCoder_run (s : State) (c : Coder) : (s.setCoder c).run = s.run := rfl
@[simp] theorem State.setCoder_srstPending (s : State) (c : Coder) : (s.setCoder c).srstPending = s.srstPending := rfl
@[simp] theorem State.setCoder_inputs (s : State) (c : Coder) : (s.setCoder c).inputs = s.inputs := rfl
@[simp] theorem State.setCoder_rdata (s : State) (c : Coder) : (s.setCoder c).rdata = s.rdata := rfl
@[simp] theorem State.setCoder_draws (s : State) (c : Coder) : (s.setCoder c).draws = s.draws := rfl

/-! ### writeBlock -/

@[simp] theorem State.writeBlock_par (s : State) (addr : Nat) (bytes : List Byte) : (s.writeBlock addr bytes).par = s.par := rfl
@[simp] theorem State.writeBlock_args (s : State) (addr : Nat) (bytes : List Byte) : (s.writeBlock addr bytes).args = s.args := rfl
@[simp] theorem State.writeBlock_result0 (s : State) (addr : Nat) (bytes : List Byte) : (s.writeBlock addr bytes).result0 = s.result0 := rfl
@[simp] theorem State.writeBlock_result1 (s : State) (addr : Nat) (bytes : List Byte) : (s.writeBlock addr bytes).result1 = s.result1 := rfl
@[simp] theorem State.writeBlock_ie (s : State) (addr : Nat) (bytes : List Byte) : (s.writeBlock addr bytes).ie = s.ie := rfl
@[simp] theorem State.writeBlock_done (s : State) (addr : Nat) (bytes : List Byte) : (s.writeBlock addr bytes).done = s.done := rfl
@[simp] theorem State.writeBlock_err (s : State) (addr : Nat) (bytes : List Byte) : (s.writeBlock addr bytes).err = s.err := rfl
@[simp] theorem State.writeBlock_overrun (s : State) (addr : Nat) (bytes : List Byte) : (s.writeBlock addr bytes).overrun = s.overrun := rfl
@[simp] theorem State.writeBlock_errCode (s : State) (addr : Nat) (bytes : List Byte) : (s.writeBlock addr bytes).errCode = s.errCode := rfl
@[simp] theorem State.writeBlock_errInfo (s : State) (addr : Nat) (bytes : List Byte) : (s.writeBlock addr bytes).errInfo = s.errInfo := rfl
@[simp] theorem State.writeBlock_slots (s : State) (addr : Nat) (bytes : List Byte) : (s.writeBlock addr bytes).slots = s.slots := rfl
@[simp] theorem State.writeBlock_coder (s : State) (addr : Nat) (bytes : List Byte) : (s.writeBlock addr bytes).coder = s.coder := rfl
@[simp] theorem State.writeBlock_bd (s : State) (addr : Nat) (bytes : List Byte) : (s.writeBlock addr bytes).bd = s.bd := rfl
@[simp] theorem State.writeBlock_mem (s : State) (addr : Nat) (bytes : List Byte) : (s.writeBlock addr bytes).mem = s.mem.writeBlock addr bytes := rfl
@[simp] theorem State.writeBlock_run (s : State) (addr : Nat) (bytes : List Byte) : (s.writeBlock addr bytes).run = s.run := rfl
@[simp] theorem State.writeBlock_srstPending (s : State) (addr : Nat) (bytes : List Byte) : (s.writeBlock addr bytes).srstPending = s.srstPending := rfl
@[simp] theorem State.writeBlock_inputs (s : State) (addr : Nat) (bytes : List Byte) : (s.writeBlock addr bytes).inputs = s.inputs := rfl
@[simp] theorem State.writeBlock_rdata (s : State) (addr : Nat) (bytes : List Byte) : (s.writeBlock addr bytes).rdata = s.rdata := rfl
@[simp] theorem State.writeBlock_draws (s : State) (addr : Nat) (bytes : List Byte) : (s.writeBlock addr bytes).draws = s.draws := rfl

/-! ### scrambleSlot -/

@[simp] theorem State.scrambleSlot_par (s : State) (m : SlotField) (rows cols : Nat) : (s.scrambleSlot m rows cols).par = s.par := rfl
@[simp] theorem State.scrambleSlot_args (s : State) (m : SlotField) (rows cols : Nat) : (s.scrambleSlot m rows cols).args = s.args := rfl
@[simp] theorem State.scrambleSlot_result0 (s : State) (m : SlotField) (rows cols : Nat) : (s.scrambleSlot m rows cols).result0 = s.result0 := rfl
@[simp] theorem State.scrambleSlot_result1 (s : State) (m : SlotField) (rows cols : Nat) : (s.scrambleSlot m rows cols).result1 = s.result1 := rfl
@[simp] theorem State.scrambleSlot_ie (s : State) (m : SlotField) (rows cols : Nat) : (s.scrambleSlot m rows cols).ie = s.ie := rfl
@[simp] theorem State.scrambleSlot_done (s : State) (m : SlotField) (rows cols : Nat) : (s.scrambleSlot m rows cols).done = s.done := rfl
@[simp] theorem State.scrambleSlot_err (s : State) (m : SlotField) (rows cols : Nat) : (s.scrambleSlot m rows cols).err = s.err := rfl
@[simp] theorem State.scrambleSlot_overrun (s : State) (m : SlotField) (rows cols : Nat) : (s.scrambleSlot m rows cols).overrun = s.overrun := rfl
@[simp] theorem State.scrambleSlot_errCode (s : State) (m : SlotField) (rows cols : Nat) : (s.scrambleSlot m rows cols).errCode = s.errCode := rfl
@[simp] theorem State.scrambleSlot_errInfo (s : State) (m : SlotField) (rows cols : Nat) : (s.scrambleSlot m rows cols).errInfo = s.errInfo := rfl
@[simp] theorem State.scrambleSlot_coder (s : State) (m : SlotField) (rows cols : Nat) : (s.scrambleSlot m rows cols).coder = s.coder := rfl
@[simp] theorem State.scrambleSlot_bd (s : State) (m : SlotField) (rows cols : Nat) : (s.scrambleSlot m rows cols).bd = s.bd := rfl
@[simp] theorem State.scrambleSlot_mem (s : State) (m : SlotField) (rows cols : Nat) : (s.scrambleSlot m rows cols).mem = s.mem := rfl
@[simp] theorem State.scrambleSlot_run (s : State) (m : SlotField) (rows cols : Nat) : (s.scrambleSlot m rows cols).run = s.run := rfl
@[simp] theorem State.scrambleSlot_srstPending (s : State) (m : SlotField) (rows cols : Nat) : (s.scrambleSlot m rows cols).srstPending = s.srstPending := rfl
@[simp] theorem State.scrambleSlot_inputs (s : State) (m : SlotField) (rows cols : Nat) : (s.scrambleSlot m rows cols).inputs = s.inputs := rfl
@[simp] theorem State.scrambleSlot_rdata (s : State) (m : SlotField) (rows cols : Nat) : (s.scrambleSlot m rows cols).rdata = s.rdata := rfl
@[simp] theorem State.scrambleSlot_draws (s : State) (m : SlotField) (rows cols : Nat) : (s.scrambleSlot m rows cols).draws = s.draws + rows * cols := rfl

/-! ### accept -/

@[simp] theorem State.accept_par (s : State) (w : Word) : (s.accept w).par = s.par := rfl
@[simp] theorem State.accept_args (s : State) (w : Word) : (s.accept w).args = s.args := rfl
@[simp] theorem State.accept_result0 (s : State) (w : Word) : (s.accept w).result0 = s.result0 := rfl
@[simp] theorem State.accept_result1 (s : State) (w : Word) : (s.accept w).result1 = s.result1 := rfl
@[simp] theorem State.accept_ie (s : State) (w : Word) : (s.accept w).ie = s.ie := rfl
@[simp] theorem State.accept_done (s : State) (w : Word) : (s.accept w).done = s.done := rfl
@[simp] theorem State.accept_err (s : State) (w : Word) : (s.accept w).err = s.err := rfl
@[simp] theorem State.accept_overrun (s : State) (w : Word) : (s.accept w).overrun = s.overrun := rfl
@[simp] theorem State.accept_errCode (s : State) (w : Word) : (s.accept w).errCode = s.errCode := rfl
@[simp] theorem State.accept_errInfo (s : State) (w : Word) : (s.accept w).errInfo = s.errInfo := rfl
@[simp] theorem State.accept_slots (s : State) (w : Word) : (s.accept w).slots = s.slots := rfl
@[simp] theorem State.accept_coder (s : State) (w : Word) : (s.accept w).coder = s.coder := rfl
@[simp] theorem State.accept_bd (s : State) (w : Word) : (s.accept w).bd = s.bd := rfl
@[simp] theorem State.accept_mem (s : State) (w : Word) : (s.accept w).mem = s.mem := rfl
@[simp] theorem State.accept_run (s : State) (w : Word) : (s.accept w).run = .busy { word := w, args := s.args } := rfl
@[simp] theorem State.accept_srstPending (s : State) (w : Word) : (s.accept w).srstPending = s.srstPending := rfl
@[simp] theorem State.accept_inputs (s : State) (w : Word) : (s.accept w).inputs = s.inputs := rfl
@[simp] theorem State.accept_rdata (s : State) (w : Word) : (s.accept w).rdata = s.rdata := rfl
@[simp] theorem State.accept_draws (s : State) (w : Word) : (s.accept w).draws = s.draws := rfl

/-! ### clearStatus -/

@[simp] theorem State.clearStatus_par (s : State) (v : Word) : (s.clearStatus v).par = s.par := rfl
@[simp] theorem State.clearStatus_args (s : State) (v : Word) : (s.clearStatus v).args = s.args := rfl
@[simp] theorem State.clearStatus_result0 (s : State) (v : Word) : (s.clearStatus v).result0 = s.result0 := rfl
@[simp] theorem State.clearStatus_result1 (s : State) (v : Word) : (s.clearStatus v).result1 = s.result1 := rfl
@[simp] theorem State.clearStatus_ie (s : State) (v : Word) : (s.clearStatus v).ie = s.ie := rfl
@[simp] theorem State.clearStatus_done (s : State) (v : Word) : (s.clearStatus v).done = (s.done && !v.getLsbD 1) := rfl
@[simp] theorem State.clearStatus_err (s : State) (v : Word) : (s.clearStatus v).err = (s.err && !v.getLsbD 2) := rfl
@[simp] theorem State.clearStatus_overrun (s : State) (v : Word) : (s.clearStatus v).overrun = (s.overrun && !v.getLsbD 4) := rfl
@[simp] theorem State.clearStatus_errCode (s : State) (v : Word) : (s.clearStatus v).errCode = s.errCode := rfl
@[simp] theorem State.clearStatus_errInfo (s : State) (v : Word) : (s.clearStatus v).errInfo = s.errInfo := rfl
@[simp] theorem State.clearStatus_slots (s : State) (v : Word) : (s.clearStatus v).slots = s.slots := rfl
@[simp] theorem State.clearStatus_coder (s : State) (v : Word) : (s.clearStatus v).coder = s.coder := rfl
@[simp] theorem State.clearStatus_bd (s : State) (v : Word) : (s.clearStatus v).bd = s.bd := rfl
@[simp] theorem State.clearStatus_mem (s : State) (v : Word) : (s.clearStatus v).mem = s.mem := rfl
@[simp] theorem State.clearStatus_run (s : State) (v : Word) : (s.clearStatus v).run = s.run := rfl
@[simp] theorem State.clearStatus_srstPending (s : State) (v : Word) : (s.clearStatus v).srstPending = s.srstPending := rfl
@[simp] theorem State.clearStatus_inputs (s : State) (v : Word) : (s.clearStatus v).inputs = s.inputs := rfl
@[simp] theorem State.clearStatus_rdata (s : State) (v : Word) : (s.clearStatus v).rdata = s.rdata := rfl
@[simp] theorem State.clearStatus_draws (s : State) (v : Word) : (s.clearStatus v).draws = s.draws := rfl

/-! ### softReset -/

@[simp] theorem State.softReset_par (s : State) : s.softReset.par = s.par := rfl
@[simp] theorem State.softReset_args (s : State) : s.softReset.args = Vector.replicate 8 0 := rfl
@[simp] theorem State.softReset_result0 (s : State) : s.softReset.result0 = 0 := rfl
@[simp] theorem State.softReset_result1 (s : State) : s.softReset.result1 = 0 := rfl
@[simp] theorem State.softReset_ie (s : State) : s.softReset.ie = false := rfl
@[simp] theorem State.softReset_done (s : State) : s.softReset.done = false := rfl
@[simp] theorem State.softReset_err (s : State) : s.softReset.err = false := rfl
@[simp] theorem State.softReset_overrun (s : State) : s.softReset.overrun = false := rfl
@[simp] theorem State.softReset_errCode (s : State) : s.softReset.errCode = 0 := rfl
@[simp] theorem State.softReset_errInfo (s : State) : s.softReset.errInfo = 0 := rfl
@[simp] theorem State.softReset_slots (s : State) : s.softReset.slots = Vector.replicate Config.nmat Matrix.empty := rfl
@[simp] theorem State.softReset_coder (s : State) : s.softReset.coder = none := rfl
@[simp] theorem State.softReset_bd (s : State) : s.softReset.bd = [] := rfl
@[simp] theorem State.softReset_mem (s : State) : s.softReset.mem = s.mem := rfl
@[simp] theorem State.softReset_run (s : State) : s.softReset.run = .idle := rfl
@[simp] theorem State.softReset_srstPending (s : State) : s.softReset.srstPending = false := rfl
@[simp] theorem State.softReset_inputs (s : State) : s.softReset.inputs = s.inputs := rfl
@[simp] theorem State.softReset_rdata (s : State) : s.softReset.rdata = s.rdata := rfl
@[simp] theorem State.softReset_draws (s : State) : s.softReset.draws = s.draws := rfl

/-! ### hardReset -/

@[simp] theorem State.hardReset_par (s : State) : s.hardReset.par = s.par := rfl
@[simp] theorem State.hardReset_args (s : State) : s.hardReset.args = Vector.replicate 8 0 := rfl
@[simp] theorem State.hardReset_result0 (s : State) : s.hardReset.result0 = 0 := rfl
@[simp] theorem State.hardReset_result1 (s : State) : s.hardReset.result1 = 0 := rfl
@[simp] theorem State.hardReset_ie (s : State) : s.hardReset.ie = false := rfl
@[simp] theorem State.hardReset_done (s : State) : s.hardReset.done = false := rfl
@[simp] theorem State.hardReset_err (s : State) : s.hardReset.err = false := rfl
@[simp] theorem State.hardReset_overrun (s : State) : s.hardReset.overrun = false := rfl
@[simp] theorem State.hardReset_errCode (s : State) : s.hardReset.errCode = 0 := rfl
@[simp] theorem State.hardReset_errInfo (s : State) : s.hardReset.errInfo = 0 := rfl
@[simp] theorem State.hardReset_slots (s : State) : s.hardReset.slots = Vector.replicate Config.nmat Matrix.empty := rfl
@[simp] theorem State.hardReset_coder (s : State) : s.hardReset.coder = none := rfl
@[simp] theorem State.hardReset_bd (s : State) : s.hardReset.bd = [] := rfl
@[simp] theorem State.hardReset_mem (s : State) : s.hardReset.mem = [] := rfl
@[simp] theorem State.hardReset_run (s : State) : s.hardReset.run = .idle := rfl
@[simp] theorem State.hardReset_srstPending (s : State) : s.hardReset.srstPending = false := rfl
@[simp] theorem State.hardReset_inputs (s : State) : s.hardReset.inputs = s.inputs := rfl
@[simp] theorem State.hardReset_rdata (s : State) : s.hardReset.rdata = s.rdata := rfl
@[simp] theorem State.hardReset_draws (s : State) : s.hardReset.draws = s.draws := rfl

end Sys2Proof.Machine
end

