-- ==== Sys2Proof/Laws/Memory.lean ====
section
/-! SUPPORT. The laws of the sorted tables that hold the buffer memory and the descriptors: read after write, what a
write leaves alone, the canonical form is kept, and equal contents are equal tables. -/

namespace Sys2Proof.Machine

variable {α : Type}

/-! ### Reads -/

@[simp] theorem tableGet_nil (a : Nat) : tableGet ([] : List (Nat × α)) a = none := rfl

theorem tableGet_put (t : List (Nat × α)) (a b : Nat) (v : α) :
    tableGet (tablePut t a v) b = if a = b then some v else tableGet t b := by
  induction t with
  | nil => simp [tablePut, tableGet]
  | cons x rest ih =>
    obtain ⟨k, w⟩ := x
    unfold tablePut
    split
    · simp [tableGet]
    · split
      · rename_i h; subst h; simp only [tableGet]; split <;> rfl
      · simp only [tableGet, ih]
        split
        · split
          · omega
          · rfl
        · rfl

@[simp] theorem tableGet_put_same (t : List (Nat × α)) (a : Nat) (v : α) :
    tableGet (tablePut t a v) a = some v := by simp [tableGet_put]

theorem tableGet_put_other (t : List (Nat × α)) {a b : Nat} (v : α) (h : a ≠ b) :
    tableGet (tablePut t a v) b = tableGet t b := by simp [tableGet_put, h]

/-- The keys of a table. -/
def tableKeys (t : List (Nat × α)) : List Nat := t.map Prod.fst

theorem tableGet_none_of_not_key (t : List (Nat × α)) (a : Nat) (h : a ∉ tableKeys t) : tableGet t a = none := by
  induction t with
  | nil => rfl
  | cons x rest ih =>
    obtain ⟨k, w⟩ := x
    simp only [tableKeys, List.map_cons, List.mem_cons, not_or] at h
    simp only [tableGet]
    rw [if_neg (fun e => h.1 e.symm)]
    exact ih h.2

theorem tableGet_mem (t : List (Nat × α)) (a : Nat) (v : α) (h : tableGet t a = some v) : (a, v) ∈ t := by
  induction t with
  | nil => simp at h
  | cons x rest ih =>
    obtain ⟨k, w⟩ := x
    simp only [tableGet] at h
    split at h
    · rename_i e; subst e; simp_all
    · exact List.mem_cons_of_mem _ (ih h)

theorem tableGet_of_mem (t : List (Nat × α)) (hs : (tableKeys t).Pairwise (· < ·)) (a : Nat) (v : α)
    (h : (a, v) ∈ t) : tableGet t a = some v := by
  induction t with
  | nil => simp at h
  | cons x rest ih =>
    obtain ⟨k, w⟩ := x
    simp only [tableKeys, List.map_cons, List.pairwise_cons] at hs
    simp only [List.mem_cons, Prod.mk.injEq] at h
    simp only [tableGet]
    rcases h with ⟨rfl, rfl⟩ | h
    · simp
    · have : k < a := hs.1 a (List.mem_map.2 ⟨_, h, rfl⟩)
      rw [if_neg (by omega)]
      exact ih hs.2 h

theorem tableGet_drop (t : List (Nat × α)) (hs : (tableKeys t).Pairwise (· < ·)) (a b : Nat) :
    tableGet (tableDrop t a) b = if a = b then none else tableGet t b := by
  induction t with
  | nil => simp [tableDrop]
  | cons x rest ih =>
    obtain ⟨k, w⟩ := x
    have hs' := hs
    simp only [tableKeys, List.map_cons, List.pairwise_cons] at hs
    unfold tableDrop
    split
    · rename_i h; subst h
      simp only [tableGet]
      split
      · rename_i e; subst e
        exact tableGet_none_of_not_key _ _ fun hm => absurd (hs.1 _ hm) (by omega)
      · rfl
    · simp only [tableGet, ih hs.2]
      split
      · split
        · omega
        · rfl
      · rfl

/-! ### The canonical form -/

theorem mem_tablePut (t : List (Nat × α)) (a : Nat) (v : α) (x : Nat × α) (h : x ∈ tablePut t a v) :
    x = (a, v) ∨ x ∈ t := by
  induction t with
  | nil => simp [tablePut] at h; exact .inl h
  | cons y rest ih =>
    obtain ⟨k, w⟩ := y
    unfold tablePut at h
    split at h
    · simpa using h
    · split at h
      · simp only [List.mem_cons] at h ⊢
        rcases h with h | h
        · exact .inl h
        · exact .inr (.inr h)
      · simp only [List.mem_cons] at h ⊢
        rcases h with h | h
        · exact .inr (.inl h)
        · rcases ih h with h | h
          · exact .inl h
          · exact .inr (.inr h)

theorem mem_tableDrop (t : List (Nat × α)) (a : Nat) (x : Nat × α) (h : x ∈ tableDrop t a) : x ∈ t := by
  induction t with
  | nil => simp [tableDrop] at h
  | cons y rest ih =>
    obtain ⟨k, w⟩ := y
    unfold tableDrop at h
    split at h
    · exact List.mem_cons_of_mem _ h
    · simp only [List.mem_cons] at h ⊢
      exact h.imp id ih

theorem tablePut_rising (t : List (Nat × α)) (a : Nat) (v : α) (hs : (tableKeys t).Pairwise (· < ·)) :
    (tableKeys (tablePut t a v)).Pairwise (· < ·) := by
  induction t with
  | nil => simp [tablePut, tableKeys]
  | cons x rest ih =>
    obtain ⟨k, w⟩ := x
    have hs' := hs
    simp only [tableKeys, List.map_cons, List.pairwise_cons] at hs
    unfold tablePut
    split
    · rename_i h
      simp only [tableKeys, List.map_cons, List.pairwise_cons, List.mem_cons]
      refine ⟨?_, hs⟩
      rintro y (rfl | hy)
      · exact h
      · exact lt_trans h (hs.1 y hy)
    · split
      · rename_i h; subst h; exact hs'
      · rename_i h1 h2
        simp only [tableKeys, List.map_cons, List.pairwise_cons]
        refine ⟨?_, ih hs.2⟩
        intro y hy
        obtain ⟨z, hz, rfl⟩ := List.mem_map.1 hy
        rcases mem_tablePut _ _ _ _ hz with rfl | hz
        · simp only; omega
        · exact hs.1 _ (List.mem_map.2 ⟨z, hz, rfl⟩)

theorem tableDrop_rising (t : List (Nat × α)) (a : Nat) (hs : (tableKeys t).Pairwise (· < ·)) :
    (tableKeys (tableDrop t a)).Pairwise (· < ·) := by
  induction t with
  | nil => simp [tableDrop, tableKeys]
  | cons x rest ih =>
    obtain ⟨k, w⟩ := x
    simp only [tableKeys, List.map_cons, List.pairwise_cons] at hs
    unfold tableDrop
    split
    · exact hs.2
    · simp only [tableKeys, List.map_cons, List.pairwise_cons]
      refine ⟨?_, ih hs.2⟩
      intro y hy
      obtain ⟨z, hz, rfl⟩ := List.mem_map.1 hy
      exact hs.1 _ (List.mem_map.2 ⟨z, mem_tableDrop _ _ _ hz, rfl⟩)

/-- Canonical tables with equal contents are equal. -/
theorem table_ext (t u : List (Nat × α)) (ht : (tableKeys t).Pairwise (· < ·)) (hu : (tableKeys u).Pairwise (· < ·))
    (h : ∀ a, tableGet t a = tableGet u a) : t = u := by
  induction t generalizing u with
  | nil =>
    cases u with
    | nil => rfl
    | cons y u => have := h y.1; simp [tableGet] at this
  | cons x t ih =>
    obtain ⟨k, v⟩ := x
    cases u with
    | nil => have := h k; simp [tableGet] at this
    | cons y u =>
      obtain ⟨j, w⟩ := y
      have ht' := ht; have hu' := hu
      simp only [tableKeys, List.map_cons, List.pairwise_cons] at ht hu
      have hkj : k = j := by
        have h1 := h k; have h2 := h j
        simp only [tableGet, if_true] at h1 h2
        by_contra hne
        rw [if_neg (fun e => hne e.symm)] at h1
        rw [if_neg hne] at h2
        have m1 := tableGet_mem _ _ _ h1.symm
        have m2 := tableGet_mem _ _ _ h2
        have := hu.1 k (List.mem_map.2 ⟨_, m1, rfl⟩)
        have := ht.1 j (List.mem_map.2 ⟨_, m2, rfl⟩)
        omega
      subst hkj
      have hvw : v = w := by simpa [tableGet] using h k
      subst hvw
      congr 1
      apply ih _ ht.2 hu.2
      intro a
      by_cases e : k = a
      · subst e
        rw [tableGet_none_of_not_key t, tableGet_none_of_not_key u]
        · exact fun hm => absurd (hu.1 _ hm) (by omega)
        · exact fun hm => absurd (ht.1 _ hm) (by omega)
      · simpa [tableGet, e] using h a

/-! ### Memory -/

theorem Memory.wf_iff (m : Memory) : m.wf = true ↔ (tableKeys m).Pairwise (· < ·) := by
  simp [Memory.wf, tableKeys]

theorem Memory.read_write (m : Memory) (a b : Nat) (v : Byte) :
    (m.write a v).read b = if a = b then some v else m.read b := tableGet_put m a b v

@[simp] theorem Memory.read_write_same (m : Memory) (a : Nat) (v : Byte) : (m.write a v).read a = some v :=
  tableGet_put_same m a v

theorem Memory.read_write_other (m : Memory) {a b : Nat} (v : Byte) (h : a ≠ b) :
    (m.write a v).read b = m.read b := tableGet_put_other m v h

theorem Memory.write_wf (m : Memory) (a : Nat) (v : Byte) (h : m.wf = true) : (m.write a v).wf = true := by
  rw [Memory.wf_iff] at *
  exact tablePut_rising m a v h

theorem Memory.writeBlock_wf (m : Memory) (a : Nat) (bytes : List Byte) (h : m.wf = true) :
    (m.writeBlock a bytes).wf = true := by
  induction bytes generalizing m a with
  | nil => exact h
  | cons b rest ih => exact ih _ _ (m.write_wf a b h)

/-- A block write: byte j of the block at `addr + j`, every other address as before. -/
theorem Memory.read_writeBlock (m : Memory) (addr : Nat) (bytes : List Byte) (b : Nat) :
    (m.writeBlock addr bytes).read b =
      if addr ≤ b ∧ b < addr + bytes.length then bytes[b - addr]? else m.read b := by
  induction bytes generalizing m addr with
  | nil =>
    rw [if_neg (by simp only [List.length_nil]; omega)]; rfl
  | cons x rest ih =>
    simp only [Memory.writeBlock, ih, List.length_cons, Memory.read_write]
    by_cases h1 : addr + 1 ≤ b ∧ b < addr + 1 + rest.length
    · rw [if_pos h1, if_pos (by omega)]
      have : b - addr = (b - (addr + 1)) + 1 := by omega
      simp [this]
    · rw [if_neg h1]
      by_cases h2 : addr = b
      · subst h2; simp
      · rw [if_neg h2, if_neg (by omega)]

theorem Memory.read_writeBlock_outside (m : Memory) (addr : Nat) (bytes : List Byte) (b : Nat)
    (h : ¬ (addr ≤ b ∧ b < addr + bytes.length)) : (m.writeBlock addr bytes).read b = m.read b := by
  rw [Memory.read_writeBlock, if_neg h]

theorem Memory.mem_write (m : Memory) (a : Nat) (v : Byte) (x : Host.Cell) (h : x ∈ m.write a v) :
    x = (a, v) ∨ x ∈ m := mem_tablePut m a v x h

/-- A block write inside `[0, n)` keeps every listed address below n. -/
theorem Memory.writeBlock_below (m : Memory) (addr : Nat) (bytes : List Byte) (n : Nat)
    (hm : ∀ x ∈ m, x.1 < n) (hb : bytes = [] ∨ addr + bytes.length ≤ n) :
    ∀ x ∈ m.writeBlock addr bytes, x.1 < n := by
  induction bytes generalizing m addr with
  | nil => exact hm
  | cons b rest ih =>
    simp only [List.cons_ne_nil, false_or, List.length_cons] at hb
    apply ih
    · intro x hx
      rcases m.mem_write addr b x hx with rfl | hx
      · simp only; omega
      · exact hm x hx
    · right; omega

theorem State.reset_mem_wf : State.reset.mem.wf = true := by decide

/-! ### Reading blocks -/

theorem State.readBlock_length (s : State) (addr n : Nat) (l : List Byte) (h : s.readBlock addr n = .ok l) :
    l.length = n := by
  induction n generalizing addr l with
  | zero => simp [State.readBlock] at h; simp [← h]
  | succ n ih =>
    simp only [State.readBlock, bind, Except.bind] at h
    split at h
    · simp at h
    · split at h
      · simp at h
      · rename_i _ rest hr
        simp only [Except.ok.injEq] at h
        subst h
        simp [ih _ _ hr]

/-- Reading a block of written bytes gives them; it stops only on an unwritten byte. -/
theorem State.readBlock_ok (s : State) (addr n : Nat) (h : s.Written addr n) :
    s.readBlock addr n = .ok ((List.range n).map fun j => s.byteAt (addr + j)) := by
  induction n generalizing addr with
  | zero => rfl
  | succ n ih =>
    have h0 := h 0 (by omega)
    rw [Nat.add_zero] at h0
    obtain ⟨b, hb⟩ := Option.isSome_iff_exists.1 h0
    have hn : s.Written (addr + 1) n := fun j hj => by
      have := h (j + 1) (by omega)
      rwa [← Nat.add_assoc, Nat.add_right_comm] at this
    simp only [State.readBlock, State.readByte, hb, bind, Except.bind, ih _ hn, List.range_succ_eq_map,
      List.map_cons, List.map_map, Nat.add_zero]
    congr 2
    · simp [State.byteAt, hb]
    · apply List.map_congr_left
      intro j _
      simp only [Function.comp, Nat.succ_eq_add_one]
      congr 1
      omega

/-- A block read that does not succeed faults; it raises nothing. -/
theorem State.readBlock_error (s : State) (addr n : Nat) (e : Stop) (h : s.readBlock addr n = .error e) :
    ∃ a, e = .fault (.unwrittenByte a) := by
  induction n generalizing addr e with
  | zero => simp [State.readBlock] at h
  | succ n ih =>
    simp only [State.readBlock, State.readByte, bind, Except.bind] at h
    split at h
    · rename_i h1
      split at h1
      · simp at h1
      · simp only [Except.error.injEq] at h h1
        exact ⟨addr, by rw [← h, ← h1]⟩
    · split at h
      · rename_i _ _ _ h2
        simp only [Except.error.injEq] at h
        subst h
        exact ih _ _ h2
      · simp at h

/-! ### Descriptors -/

@[simp] theorem State.desc_setDesc_same (s : State) (k : Nat) (d : Desc) (hs : DescTableOk s.bd) :
    (s.setDesc k d).desc k = d := by
  simp only [State.desc, State.setDesc_bd]
  split
  · rename_i h; subst h
    rw [tableGet_drop _ hs.rising]
    simp
  · simp

theorem State.desc_setDesc_other (s : State) {k j : Nat} (d : Desc) (hs : DescTableOk s.bd) (h : k ≠ j) :
    (s.setDesc k d).desc j = s.desc j := by
  simp only [State.desc, State.setDesc_bd]
  split
  · rw [tableGet_drop _ hs.rising, if_neg h]
  · rw [tableGet_put_other _ _ h]

theorem State.setDesc_ok (s : State) (k : Nat) (d : Desc) (hs : DescTableOk s.bd) (hk : k < 1024) :
    DescTableOk (s.setDesc k d).bd := by
  simp only [State.setDesc_bd]
  split
  · exact ⟨tableDrop_rising _ _ hs.rising, fun x hx => hs.below x (mem_tableDrop _ _ _ hx),
      fun x hx => hs.nonzero x (mem_tableDrop _ _ _ hx)⟩
  · rename_i hd
    refine ⟨tablePut_rising _ _ _ hs.rising, fun x hx => ?_, fun x hx => ?_⟩
    · rcases mem_tablePut _ _ _ _ hx with rfl | hx
      · exact hk
      · exact hs.below x hx
    · rcases mem_tablePut _ _ _ _ hx with rfl | hx
      · exact hd
      · exact hs.nonzero x hx

/-! ### Slots -/

theorem State.slot_setSlot (s : State) (m j : SlotField) (a : Matrix) :
    (s.setSlot m a).slot j = if m = j ∧ m.toNat < 8 then a else s.slot j := by
  simp only [State.slot, State.setSlot_slots, Vector.toList_setIfInBounds, List.getD_eq_getElem?_getD,
    List.getElem?_set, Vector.length_toList]
  by_cases h : m = j
  · subst h
    by_cases h8 : m.toNat < 8
    · simp [h8]
    · simp only [h8, if_true, if_false, and_false]
      rw [List.getElem?_eq_none (by simp [Config.nmat]; omega)]
  · have : m.toNat ≠ j.toNat := fun e => h (BitVec.eq_of_toNat_eq e)
    simp [h, this]

@[simp] theorem State.slot_setSlot_same (s : State) (m : SlotField) (a : Matrix) (h : m.toNat < 8) :
    (s.setSlot m a).slot m = a := by simp [State.slot_setSlot, h]

theorem State.slot_setSlot_other (s : State) {m j : SlotField} (a : Matrix) (h : m ≠ j) :
    (s.setSlot m a).slot j = s.slot j := by simp [State.slot_setSlot, h]

@[simp] theorem State.slot_softReset (s : State) (m : SlotField) : s.softReset.slot m = Matrix.empty := by
  simp [State.slot]

end Sys2Proof.Machine
end

