-- ==== Sys2Proof/Laws/Completion.lean ====
section
/-! SUPPORT. What the check phase and the completion of a command can do: the laws of `raiseIf`, the outcomes of
`finish`, and the completions in the terms of Safety.lean. -/

namespace Sys2Proof.Machine

/-! ### The check phase -/

@[simp] theorem check_bind_ok {α β : Type} (x : α) (f : α → Check β) : (Except.ok x >>= f) = f x := rfl

@[simp] theorem check_bind_error {α β : Type} (e : Stop) (f : α → Check β) :
    ((Except.error e : Check α) >>= f) = .error e := rfl

theorem raiseIf_pos {c : Prop} [Decidable c] (r : Raise) (h : c) : raiseIf c r = .error (.raise r) := by
  simp [raiseIf, h, raising]

theorem raiseIf_neg {c : Prop} [Decidable c] (r : Raise) (h : ¬ c) : raiseIf c r = .ok () := by
  simp [raiseIf, h]

/-- A check followed by the rest of the command. -/
theorem raiseIf_bind {c : Prop} [Decidable c] (r : Raise) {β : Type} (f : Unit → Check β) :
    (raiseIf c r >>= f) = if c then .error (.raise r) else f () := by
  by_cases h : c
  · simp [raiseIf, h, raising]
  · simp [raiseIf, h]

theorem raiseIf_ok_iff {c : Prop} [Decidable c] (r : Raise) (u : Unit) : raiseIf c r = .ok u ↔ ¬ c := by
  by_cases h : c <;> simp [raiseIf, h, raising]

theorem raiseIf_error_iff {c : Prop} [Decidable c] (r : Raise) (e : Stop) :
    raiseIf c r = .error e ↔ c ∧ e = .raise r := by
  by_cases h : c <;> simp [raiseIf, h, raising, eq_comm]

/-- A bind succeeds exactly when both parts do. -/
theorem check_bind_eq_ok {α β : Type} (x : Check α) (f : α → Check β) (b : β) :
    (x >>= f) = .ok b ↔ ∃ a, x = .ok a ∧ f a = .ok b := by
  cases x with
  | ok a => simp
  | error e => simp

/-- A bind stops exactly when its first part does, or its second does after it. -/
theorem check_bind_eq_error {α β : Type} (x : Check α) (f : α → Check β) (e : Stop) :
    (x >>= f) = .error e ↔ x = .error e ∨ ∃ a, x = .ok a ∧ f a = .error e := by
  cases x with
  | ok a => simp
  | error e' => simp

theorem checkSlots_ok (fields : List SlotField) (h : ∀ f ∈ fields, f.toNat < 8) : checkSlots fields = .ok () := by
  apply raiseIf_neg
  simpa [List.all_eq_true] using h

theorem checkSlots_bad (fields : List SlotField) (h : ∃ f ∈ fields, 8 ≤ f.toNat) :
    checkSlots fields = .error (.raise .badSlot) := by
  apply raiseIf_pos
  simpa [List.all_eq_false] using h

theorem State.readSlot_ok (s : State) (m : SlotField) (h : (s.slot m).rows ≠ 0) : s.readSlot m = .ok (s.slot m) := by
  simp [State.readSlot, raiseIf_bind, h]

theorem State.readSlot_empty (s : State) (m : SlotField) (h : (s.slot m).rows = 0) :
    s.readSlot m = .error (.raise .emptySlot) := by
  simp [State.readSlot, raiseIf_bind, h]

theorem State.readCoder_some (s : State) (c : Coder) (h : s.coder = some c) : s.readCoder = .ok c := by
  simp [State.readCoder, h]

theorem State.readCoder_none (s : State) (h : s.coder = none) : s.readCoder = .error (.raise .notConfigured) := by
  simp [State.readCoder, h, raising]

theorem State.fieldArg_ok (s : State) (i : Fin 8) (h0 : 0 ≤ s.arg i) (h1 : s.arg i ≤ 255) :
    s.fieldArg i = .ok (byteOfInt (s.arg i)) := by
  have : ¬ (s.arg i < 0 ∨ s.arg i > 255) := by omega
  simp [State.fieldArg, raiseIf_bind, this]

theorem State.fieldArg_bad (s : State) (i : Fin 8) (h : s.arg i < 0 ∨ 255 < s.arg i) :
    s.fieldArg i = .error (.raise .fieldValue) := by
  have : s.arg i < 0 ∨ s.arg i > 255 := h
  simp [State.fieldArg, raiseIf_bind, this]

/-! ### Completion -/

theorem State.endCommand_eq (s : State) :
    s.endCommand = if s.srstPending then ({ s with done := true, run := .idle } : State).softReset
      else { s with done := true, run := .idle } := rfl

/-- `succeed` in the terms of Safety.lean. -/
theorem State.succeed_eq (s : State) : s.succeed = s.completed := by
  simp only [State.succeed, State.endCommand, State.completed, State.finished, State.cmd, errCodeWord, Bool.or_false]
  rfl

/-- `failWith` in the terms of Safety.lean. -/
theorem State.failWith_eq (s : State) (r : Raise) : s.failWith r = s.errored r.detail r.cause r.info := by
  simp only [State.failWith, State.endCommand, State.errored, State.finished, State.cmd, errCodeWord, Bool.or_true]

@[simp] theorem finish_ok (s t : State) : finish s (.ok t) = .next t.completed := by
  rw [finish, State.succeed_eq]

@[simp] theorem finish_raise (s : State) (r : Raise) :
    finish s (.error (.raise r)) = .next (s.errored r.detail r.cause r.info) := by
  rw [finish, State.failWith_eq]

@[simp] theorem finish_fault (s : State) (f : Fault) : finish s (.error (.fault f)) = .fault f := rfl

/-- Everything `finish` can answer: the completion of the effects, the completion of an error over the state before
the command, or a fault. -/
theorem finish_cases (s : State) (c : Check State) :
    (∃ t, c = .ok t ∧ finish s c = .next t.completed) ∨
    (∃ r, c = .error (.raise r) ∧ finish s c = .next (s.errored r.detail r.cause r.info)) ∨
    (∃ f, c = .error (.fault f) ∧ finish s c = .fault f) := by
  match c with
  | .ok t => exact .inl ⟨t, rfl, finish_ok s t⟩
  | .error (.raise r) => exact .inr (.inl ⟨r, rfl, finish_raise s r⟩)
  | .error (.fault f) => exact .inr (.inr ⟨f, rfl, rfl⟩)

theorem finish_not_refused (s : State) (c : Check State) (r : Refusal) : finish s c ≠ .refused r := by
  rcases finish_cases s c with ⟨t, _, h⟩ | ⟨x, _, h⟩ | ⟨f, _, h⟩ <;> simp [h]

/-- With no soft reset pending, a completion is the report and nothing else. -/
theorem State.finished_no_reset (s : State) (detail cause : Byte) (info : Nat) (failed : Bool)
    (h : s.srstPending = false) :
    s.finished detail cause info failed =
      { s with
        errCode := (0 : BitVec 8) ++ s.cmd.word.extractLsb' 0 8 ++ detail ++ cause
        errInfo := BitVec.ofNat 32 info
        err := s.err || failed
        done := true
        run := .idle } := by
  simp [State.finished, h]

/-- With a soft reset pending, a completion ends in the soft reset. -/
theorem State.finished_reset (s : State) (detail cause : Byte) (info : Nat) (failed : Bool)
    (h : s.srstPending = true) : s.finished detail cause info failed = s.softReset := by
  simp [State.finished, h, State.softReset]

/-! ### The fields a completion leaves alone -/

@[simp] theorem State.finished_par (s : State) (d c : Byte) (n : Nat) (b : Bool) :
    (s.finished d c n b).par = s.par := by
  cases h : s.srstPending <;> simp [State.finished, h]

@[simp] theorem State.finished_mem (s : State) (d c : Byte) (n : Nat) (b : Bool) :
    (s.finished d c n b).mem = s.mem := by
  cases h : s.srstPending <;> simp [State.finished, h]

@[simp] theorem State.finished_inputs (s : State) (d c : Byte) (n : Nat) (b : Bool) :
    (s.finished d c n b).inputs = s.inputs := by
  cases h : s.srstPending <;> simp [State.finished, h]

@[simp] theorem State.finished_rdata (s : State) (d c : Byte) (n : Nat) (b : Bool) :
    (s.finished d c n b).rdata = s.rdata := by
  cases h : s.srstPending <;> simp [State.finished, h]

@[simp] theorem State.finished_draws (s : State) (d c : Byte) (n : Nat) (b : Bool) :
    (s.finished d c n b).draws = s.draws := by
  cases h : s.srstPending <;> simp [State.finished, h]

@[simp] theorem State.finished_run (s : State) (d c : Byte) (n : Nat) (b : Bool) :
    (s.finished d c n b).run = .idle := by
  cases h : s.srstPending <;> simp [State.finished, h]

@[simp] theorem State.finished_srstPending (s : State) (d c : Byte) (n : Nat) (b : Bool) :
    (s.finished d c n b).srstPending = false := by
  cases h : s.srstPending <;> simp [State.finished, h]

/-! ### What the effects leave of the command in flight -/

theorem State.cmd_busy (s : State) (c : Command) (h : s.run = .busy c) : s.cmd = c := by simp [State.cmd, h]

@[simp] theorem State.setSlot_cmd (s : State) (m : SlotField) (a : Matrix) : (s.setSlot m a).cmd = s.cmd := rfl
@[simp] theorem State.setMem_cmd (s : State) (m : Memory) : (s.setMem m).cmd = s.cmd := rfl
@[simp] theorem State.setResult0_cmd (s : State) (v : Word) : (s.setResult0 v).cmd = s.cmd := rfl
@[simp] theorem State.setResult1_cmd (s : State) (v : Word) : (s.setResult1 v).cmd = s.cmd := rfl
@[simp] theorem State.setCoder_cmd (s : State) (c : Coder) : (s.setCoder c).cmd = s.cmd := rfl
@[simp] theorem State.scrambleSlot_cmd (s : State) (m : SlotField) (r c : Nat) :
    (s.scrambleSlot m r c).cmd = s.cmd := rfl

theorem State.arg_congr (s t : State) (h : s.cmd = t.cmd) (i : Fin 8) : s.arg i = t.arg i := by
  simp [State.arg, h]

end Sys2Proof.Machine
end

