-- ==== Sys2Proof/Laws/Checks.lean ====
section
/-! SUPPORT. What each shared check of the commands can do, said once: the operand forms of Operands.lean followed by
the rest of a command. -/

namespace Sys2Proof.Machine

/-- A check inside `finish`: the error of the check, or the rest. -/
theorem finish_ite (s : State) (c : Prop) [Decidable c] (r : Raise) (k : Check State) :
    finish s (if c then .error (.raise r) else k) = if c then .next (s.errored r.detail r.cause r.info) else finish s k := by
  split <;> simp

/-- The same, whichever decision procedure the check carries. -/
theorem finish_ite_any (s : State) (c : Prop) (i : Decidable c) (r : Raise) (k : Check State) :
    finish s (@ite _ c i (.error (.raise r)) k) = @ite _ c i (.next (s.errored r.detail r.cause r.info)) (finish s k) := by
  split <;> simp

/-- A check in front of a computation, followed by another. -/
theorem ite_err_bind {α β : Type} (c : Prop) [Decidable c] (e : Stop) (x : Check α) (f : α → Check β) :
    ((if c then .error e else x) >>= f) = if c then .error e else x >>= f := by split <;> rfl

/-- The byte of an integer in [0, 255]. -/
theorem byteOfInt_eq (v : Int) (h : 0 ≤ v) (h' : v ≤ 255) : byteOfInt v = BitVec.ofInt 8 v := by
  apply BitVec.eq_of_toNat_eq; simp [byteOfInt, BitVec.toNat_ofInt]; omega

/-- Everything a field-element operand can do (30_encoding.md R95). -/
theorem State.fieldArg_bind (s : State) (i : Fin 8) {β : Type} (f : Byte → Check β) :
    (s.fieldArg i >>= f) = if s.arg i < 0 ∨ 255 < s.arg i then .error (.raise .fieldValue) else f (BitVec.ofInt 8 (s.arg i)) := by
  by_cases h : s.arg i < 0 ∨ 255 < s.arg i
  · rw [State.fieldArg_bad _ _ h]; simp [h]
  · rw [State.fieldArg_ok _ _ (by omega) (by omega), byteOfInt_eq _ (by omega) (by omega)]; simp [h]

/-- Everything the slot-field check can do (30_encoding.md R97 item 4). -/
theorem checkSlots_bind (l : List SlotField) {β : Type} (f : Unit → Check β) :
    (checkSlots l >>= f) = if ∃ x ∈ l, 8 ≤ x.toNat then .error (.raise .badSlot) else f () := by
  by_cases h : ∃ x ∈ l, 8 ≤ x.toNat
  · rw [checkSlots_bad _ h]; simp [h]
  · rw [checkSlots_ok _ (by push Not at h; exact fun f hf => h f hf)]; simp [h]

/-- Everything the read of a slot can do (41_matrix.md R141). -/
theorem State.readSlot_bind (s : State) (m : SlotField) {β : Type} (f : Machine.Matrix → Check β) :
    (s.readSlot m >>= f) = if (s.slot m).rows = 0 then .error (.raise .emptySlot) else f (s.slot m) := by
  by_cases h : (s.slot m).rows = 0
  · rw [State.readSlot_empty _ _ h]; simp [h]
  · rw [State.readSlot_ok _ _ h]; simp [h]

/-- Everything the placement check can do (10_state.md R41). -/
theorem State.checkPlaced_bind (s : State) (ks : List Nat) {β : Type} (f : Unit → Check β) :
    (s.checkPlaced ks >>= f) = if (∃ k ∈ ks, s.par.bufBytes < s.base k + s.len k) then .error (.raise .bufBounds) else f () := by
  rw [State.checkPlaced, raiseIf_bind]
  have : (ks.all s.wellPlaced = false) ↔ (∃ k ∈ ks, s.par.bufBytes < s.base k + s.len k) := by
    simp [List.all_eq_false, State.wellPlaced]
  by_cases h : (∃ k ∈ ks, s.par.bufBytes < s.base k + s.len k)
  · rw [if_pos h, if_pos (this.2 h)]
  · rw [if_neg h, if_neg (fun h' => h (this.1 h'))]

/-- Everything the check of a run of descriptors can do (60_exceptions.md R263). -/
theorem checkRun_bind (b c : Int) {β : Type} (f : Unit → Check β) :
    (checkRun b c >>= f) = if b < 0 ∨ 1024 < b + c then .error (.raise .descIndex) else f () := by
  rw [checkRun, raiseIf_bind]; rfl

/-- The members of a run of descriptors. -/
theorem mem_descRun (b c : Int) (k : Nat) : k ∈ descRun b c ↔ InRange k b.toNat c.toNat := by
  simp [descRun, InRange, List.mem_range'_1]

/-- Everything `rangecheck` can do (42_coding_loop.md R183). -/
theorem State.rangeCheck_bind (s : State) (ks : List Nat) (off cnt : Nat) {β : Type} (f : Unit → Check β) :
    (s.rangeCheck ks off cnt >>= f) = if (∃ k ∈ ks, s.par.bufBytes < s.base k + s.len k) then .error (.raise .bufBounds) else
       if (∃ k ∈ ks, s.len k < off + cnt) then .error (.raise .bufBounds) else f () := by
  have e : s.rangeCheck ks off cnt = if (∃ k ∈ ks, s.par.bufBytes < s.base k + s.len k) then .error (.raise .bufBounds) else
       if (∃ k ∈ ks, s.len k < off + cnt) then .error (.raise .bufBounds) else .ok () := by
    rw [State.rangeCheck, State.checkPlaced_bind]
    congr 1
    have : ((ks.all fun k => decide (off + cnt ≤ s.len k)) = false) ↔ (∃ k ∈ ks, s.len k < off + cnt) := by
      simp [List.all_eq_false]
    by_cases h : (∃ k ∈ ks, s.len k < off + cnt)
    · rw [if_pos h, raiseIf_pos _ (this.2 h)]
    · rw [if_neg h, raiseIf_neg _ (fun h' => h (this.1 h'))]
  rw [e]; split <;> [rfl; split <;> rfl]

/-- Two ranges written as base and length overlap (00_scope.md R16). -/
theorem overlap_iff (a m b n : Nat) : overlap (a, a + m) (b, b + n) = true ↔ Overlaps a m b n := by
  simp [overlap, Overlaps]; omega

/-- Two ranges of a list overlap. -/
theorem somePairOverlaps_iff (l : List (Nat × Nat)) : somePairOverlaps l = true ↔ ¬ l.Pairwise (fun x y => ¬ overlap x y = true) := by
  induction l with
  | nil => simp [somePairOverlaps]
  | cons x rest ih => 
    simp only [somePairOverlaps, Bool.or_eq_true, List.any_eq_true, ih, List.pairwise_cons]
    constructor
    · rintro (⟨y, hy, h⟩ | h) ⟨h1, h2⟩
      · exact h1 y hy h
      · exact h h2
    · intro h
      by_contra hc
      push Not at hc
      apply h
      exact ⟨fun y hy => hc.1 y hy, hc.2⟩

/-- A symmetric relation holds between all distinct members of a run. -/
theorem run_pairwise (b c : Nat) (R : Nat → Nat → Prop) (hR : ∀ x y, R x y → R y x) : (List.range' b c).Pairwise R ↔
    ∀ k j, InRange k b c → InRange j b c → k ≠ j → R k j := by
  constructor
  · intro h k j hk hj hne
    rw [List.pairwise_iff_getElem] at h
    rcases Nat.lt_or_gt_of_ne hne with hlt | hlt
    · have := h (k - b) (j - b) (by simp [InRange] at *; omega) (by simp [InRange] at *; omega) (by simp [InRange] at *; omega)
      simp at this
      rwa [show b + (k - b) = k by simp [InRange] at *; omega, show b + (j - b) = j by simp [InRange] at *; omega] at this
    · have := h (j - b) (k - b) (by simp [InRange] at *; omega) (by simp [InRange] at *; omega) (by simp [InRange] at *; omega)
      simp at this
      rw [show b + (k - b) = k by simp [InRange] at *; omega, show b + (j - b) = j by simp [InRange] at *; omega] at this
      exact hR _ _ this
  · intro h
    rw [List.pairwise_iff_getElem]
    intro i j hi hj hlt
    simp at hi hj ⊢
    apply h <;> simp [InRange] <;> omega

/-- The alias check over runs, in the terms of Safety.lean (42_coding_loop.md R182). -/
theorem buffersAlias_iff (s : State) (ib ic ob oc off cnt : Nat) :
    buffersAlias ((List.range' ib ic).map (s.touched off cnt)) ((List.range' ob oc).map (s.touched off cnt)) = true ↔
      s.TouchedAlias ib ic ob oc off cnt := by
  have ov : ∀ k j, overlap (s.touched off cnt k) (s.touched off cnt j) = true ↔ Overlaps (s.base k + off) cnt (s.base j + off) cnt := by
    intro k j; exact overlap_iff _ _ _ _
  simp only [buffersAlias, Bool.or_eq_true, somePairOverlaps_iff, List.any_eq_true, List.pairwise_map, State.TouchedAlias, List.mem_map]
  rw [run_pairwise _ _ _ (by intro x y h; rw [ov] at *; intro h'; apply h; simp [Overlaps] at *; omega)]
  simp only [ov]
  constructor
  · rintro (h | ⟨x, ⟨k, hk, rfl⟩, y, ⟨j, hj, rfl⟩, h⟩)
    · left; push Not at h; exact h
    · right; rw [ov] at h; rw [List.mem_range'_1] at hk hj; exact ⟨k, j, hk, hj, h⟩
  · rintro (h | ⟨k, j, hk, hj, h⟩)
    · left; push Not; exact h
    · right; refine ⟨_, ⟨k, List.mem_range'_1.2 hk, rfl⟩, _, ⟨j, List.mem_range'_1.2 hj, rfl⟩, (ov k j).2 h⟩

/-- Everything `aliascheck` can do over runs (42_coding_loop.md R182). -/
theorem State.aliasCheck_bind (s : State) (ib ic ob oc : Int) (off cnt : Nat) {β : Type} (f : Unit → Check β) :
    (s.aliasCheck (descRun ib ic) (descRun ob oc) off cnt >>= f) = open Classical in if s.TouchedAlias ib.toNat ic.toNat ob.toNat oc.toNat off cnt then .error (.raise .bufAlias) else f () := by
  rw [State.aliasCheck, raiseIf_bind]
  have := buffersAlias_iff s ib.toNat ic.toNat ob.toNat oc.toNat off cnt
  change (buffersAlias ((descRun ib ic).map _) ((descRun ob oc).map _) = true ↔ _) at this
  by_cases h : s.TouchedAlias ib.toNat ic.toNat ob.toNat oc.toNat off cnt
  · rw [if_pos h, if_pos (this.2 h)]
  · rw [if_neg h, if_neg (fun h' => h (this.1 h'))]

/-- Some member of two runs has a property. -/
theorem exists_append_run (a b c d : Int) (P : Nat → Prop) : (∃ k ∈ descRun a b ++ descRun c d, P k) ↔ (∃ k, InRange k a.toNat b.toNat ∧ P k) ∨ (∃ k, InRange k c.toNat d.toNat ∧ P k) := by
  simp only [List.mem_append, mem_descRun]
  constructor
  · rintro ⟨k, h | h, hp⟩
    · exact .inl ⟨k, h, hp⟩
    · exact .inr ⟨k, h, hp⟩
  · rintro (⟨k, h, hp⟩ | ⟨k, h, hp⟩)
    · exact ⟨k, .inl h, hp⟩
    · exact ⟨k, .inr h, hp⟩

/-- The lengths of a list of descriptors differ. -/
theorem State.sameLengths_iff (s : State) (l : List Nat) : s.sameLengths l = false ↔ ∃ k ∈ l, ∃ j ∈ l, s.len k ≠ s.len j := by
  cases l with
  | nil => simp [State.sameLengths]
  | cons x rest =>
    simp only [State.sameLengths, List.all_eq_false, decide_eq_true_eq]
    constructor
    · rintro ⟨j, hj, h⟩; exact ⟨j, List.mem_cons_of_mem _ hj, x, List.mem_cons_self .., h⟩
    · rintro ⟨k, hk, j, hj, h⟩
      by_contra hc
      push Not at hc
      have e : ∀ y ∈ x :: rest, s.len y = s.len x := by
        intro y hy; rcases List.mem_cons.1 hy with rfl | hy; rfl; exact hc y hy
      exact h ((e k hk).trans (e j hj).symm)

/-- The first members of a run. -/
theorem take_run (b c d : Nat) (h : d ≤ c) : (List.range' b c).take d = List.range' b d := by
  rw [List.take_range'_of_length_ge h]

/-- The members of a run after the first ones. -/
theorem drop_run (b c d : Nat) : (List.range' b c).drop d = List.range' (b + d) (c - d) := by
  apply List.ext_getElem
  · simp
  · intro i h1 h2
    simp

end Sys2Proof.Machine
end

