-- ==== Sys2Proof/Laws/Matrix.lean ====
section
/-! SUPPORT. The matrix functions entry by entry, and the shapes they keep (41_matrix.md R140 to R146, R165, R169). -/

namespace Sys2Proof.Machine

/-! ### Matrices made entry by entry -/

@[simp] theorem Matrix.build_rows (rows cols : Nat) (f : Nat → Nat → Byte) : (Matrix.build rows cols f).rows = rows := rfl
@[simp] theorem Matrix.build_cols (rows cols : Nat) (f : Nat → Nat → Byte) : (Matrix.build rows cols f).cols = cols := rfl

theorem Matrix.build_shaped (rows cols : Nat) (f : Nat → Nat → Byte) : (Matrix.build rows cols f).Shaped := by
  constructor
  · simp [Matrix.build]
  · intro row h
    simp only [Matrix.build, List.mem_map] at h
    obtain ⟨r, _, rfl⟩ := h
    simp [Matrix.build]

theorem Matrix.get_build (rows cols : Nat) (f : Nat → Nat → Byte) (r c : Nat) (hr : r < rows) (hc : c < cols) :
    (Matrix.build rows cols f).get r c = f r c := by
  simp [Matrix.get, Matrix.row, Matrix.build, hr, hc, List.getD_eq_getElem?_getD]

theorem Matrix.row_build (rows cols : Nat) (f : Nat → Nat → Byte) (r : Nat) (hr : r < rows) :
    (Matrix.build rows cols f).row r = (List.range cols).map (f r) := by
  simp [Matrix.row, Matrix.build, hr, List.getD_eq_getElem?_getD]

theorem Matrix.build_slotOk (rows cols : Nat) (f : Nat → Nat → Byte) (hr : 1 ≤ rows) (hr' : rows ≤ 256)
    (hc : 1 ≤ cols) (hc' : cols ≤ 512) : (Matrix.build rows cols f).SlotOk :=
  ⟨hr', hc', by simp only [Matrix.build_rows, Matrix.build_cols]; omega, Matrix.build_shaped rows cols f⟩

theorem Matrix.empty_slotOk : Matrix.empty.SlotOk :=
  ⟨by simp [Matrix.empty], by simp [Matrix.empty], by simp [Matrix.empty], by simp [Matrix.empty, Matrix.Shaped]⟩

/-- Two matrices of one shape with the same entries are equal. -/
theorem Matrix.ext_get (a b : Matrix) (ha : a.Shaped) (hb : b.Shaped) (hr : a.rows = b.rows) (hc : a.cols = b.cols)
    (h : ∀ r c, r < a.rows → c < a.cols → a.get r c = b.get r c) : a = b := by
  obtain ⟨ar, ac, ae⟩ := a
  obtain ⟨br, bc, be⟩ := b
  simp only at hr hc h
  subst hr hc
  obtain ⟨ha1, ha2⟩ := ha
  obtain ⟨hb1, hb2⟩ := hb
  simp only at ha1 ha2 hb1 hb2
  have : ae = be := by
    apply List.ext_getElem (by rw [ha1, hb1])
    intro r h1 h2
    apply List.ext_getElem (by rw [ha2 _ (List.getElem_mem h1), hb2 _ (List.getElem_mem h2)])
    intro c h3 h4
    have := h r c (by omega) (by rw [← ha2 _ (List.getElem_mem h1)]; exact h3)
    simpa [Matrix.get, Matrix.row, h1, h2, h3, h4, List.getD_eq_getElem?_getD] using this
  rw [this]

/-! ### Rows -/

theorem Matrix.row_mem (a : Matrix) (ha : a.Shaped) (r : Nat) (hr : r < a.rows) : a.row r ∈ a.e := by
  have : r < a.e.length := by rw [ha.1]; exact hr
  simp [Matrix.row, List.getD_eq_getElem?_getD, this]

theorem Matrix.row_length (a : Matrix) (ha : a.Shaped) (r : Nat) (hr : r < a.rows) : (a.row r).length = a.cols :=
  ha.2 _ (a.row_mem ha r hr)

/-- `a` with row r replaced. -/
def Matrix.putRow (a : Matrix) (r : Nat) (l : List Byte) : Matrix := { a with e := a.e.set r l }

theorem Matrix.putRow_shaped (a : Matrix) (r : Nat) (l : List Byte) (ha : a.Shaped) (hl : l.length = a.cols) :
    (a.putRow r l).Shaped := by
  constructor
  · simpa [Matrix.putRow] using ha.1
  · intro row h
    rcases List.mem_or_eq_of_mem_set h with h | rfl
    · exact ha.2 _ h
    · exact hl

theorem Matrix.row_putRow (a : Matrix) (r k : Nat) (l : List Byte) (ha : a.Shaped) (hr : r < a.rows) :
    (a.putRow r l).row k = if r = k then l else a.row k := by
  simp only [Matrix.putRow, Matrix.row, List.getD_eq_getElem?_getD, List.getElem?_set, ha.1, hr, if_true]
  split <;> rfl

/-! ### Row operations: shape -/

theorem Matrix.setEntry_shaped (a : Matrix) (row col : Nat) (v : Byte) (ha : a.Shaped) (hr : row < a.rows) :
    (a.setEntry row col v).Shaped :=
  Matrix.putRow_shaped a row _ ha (by simp [Matrix.row_length a ha row hr])

theorem Matrix.swapRows_shaped (a : Matrix) (i j : Nat) (ha : a.Shaped) (hi : i < a.rows) (hj : j < a.rows) :
    (a.swapRows i j).Shaped :=
  Matrix.putRow_shaped (a.putRow i (a.row j)) j _
    (Matrix.putRow_shaped a i _ ha (Matrix.row_length a ha j hj)) (Matrix.row_length a ha i hi)

theorem Matrix.scaleRow_shaped (poly : BitVec 9) (w : Matrix) (r : Nat) (s : Byte) (hw : w.Shaped) (hr : r < w.rows) :
    (w.scaleRow poly r s).Shaped :=
  Matrix.putRow_shaped w r _ hw (by simp [Matrix.row_length w hw r hr])

theorem Matrix.addRow_shaped (poly : BitVec 9) (w : Matrix) (dst src : Nat) (s : Byte) (hw : w.Shaped)
    (hd : dst < w.rows) (hs : src < w.rows) : (w.addRow poly dst src s).Shaped :=
  Matrix.putRow_shaped w dst _ hw (by simp [Matrix.row_length w hw dst hd, Matrix.row_length w hw src hs])

/-! ### Row operations: entries -/

theorem Matrix.get_setEntry (a : Matrix) (row col r c : Nat) (v : Byte) (ha : a.Shaped) (hr : row < a.rows)
    (hc : col < a.cols) : (a.setEntry row col v).get r c = if r = row ∧ c = col then v else a.get r c := by
  show ((a.putRow row ((a.row row).set col v)).row r).getD c 0 = _
  rw [Matrix.row_putRow a row r _ ha hr]
  by_cases h : row = r
  · subst h
    have hl := Matrix.row_length a ha row hr
    by_cases h2 : col = c
    · subst h2
      simp [List.getD_eq_getElem?_getD, hl, hc]
    · have h3 : ¬ c = col := fun e => h2 e.symm
      simp [List.getD_eq_getElem?_getD, h2, h3, Matrix.get]
  · have h3 : ¬ r = row := fun e => h e.symm
    simp [h, h3, Matrix.get]

theorem Matrix.get_swapRows (a : Matrix) (i j r c : Nat) (ha : a.Shaped) (hi : i < a.rows) (hj : j < a.rows) :
    (a.swapRows i j).get r c = if r = j then a.get i c else if r = i then a.get j c else a.get r c := by
  show (((a.putRow i (a.row j)).putRow j (a.row i)).row r).getD c 0 = _
  rw [Matrix.row_putRow _ j r _ (Matrix.putRow_shaped a i _ ha (Matrix.row_length a ha j hj)) hj,
    Matrix.row_putRow a i r _ ha hi]
  by_cases h : j = r
  · subst h; simp [Matrix.get]
  · have h' : ¬ r = j := fun e => h e.symm
    by_cases h2 : i = r
    · subst h2; simp [h, h', Matrix.get]
    · have h2' : ¬ r = i := fun e => h2 e.symm
      simp [h, h', h2, h2', Matrix.get]

theorem Matrix.get_scaleRow (poly : BitVec 9) (w : Matrix) (r : Nat) (s : Byte) (k c : Nat) (hw : w.Shaped)
    (hr : r < w.rows) (hc : c < w.cols) :
    (w.scaleRow poly r s).get k c = if k = r then gmul poly (w.get r c) s else w.get k c := by
  show ((w.putRow r ((w.row r).map fun x => gmul poly x s)).row k).getD c 0 = _
  rw [Matrix.row_putRow w r k _ hw hr]
  by_cases h : r = k
  · subst h
    have hl := Matrix.row_length w hw r hr
    simp [Matrix.get, List.getD_eq_getElem?_getD, hl, hc]
  · have h' : ¬ k = r := fun e => h e.symm
    simp [h, h', Matrix.get]

theorem Matrix.get_addRow (poly : BitVec 9) (w : Matrix) (dst src : Nat) (s : Byte) (k c : Nat) (hw : w.Shaped)
    (hd : dst < w.rows) (hs : src < w.rows) (hc : c < w.cols) :
    (w.addRow poly dst src s).get k c =
      if k = dst then w.get dst c ^^^ gmul poly s (w.get src c) else w.get k c := by
  show ((w.putRow dst (List.zipWith (fun x y => x ^^^ gmul poly s y) (w.row dst) (w.row src))).row k).getD c 0 = _
  rw [Matrix.row_putRow w dst k _ hw hd]
  by_cases h : dst = k
  · subst h
    have hl := Matrix.row_length w hw dst hd
    have hl' := Matrix.row_length w hw src hs
    simp [Matrix.get, List.getD_eq_getElem?_getD, hl, hl', hc]
  · have h' : ¬ k = dst := fun e => h e.symm
    simp [h, h', Matrix.get]

/-! ### Gaussian elimination keeps the shape -/

/-- `b` has the shape of `a`. -/
def Matrix.SameShape (a b : Matrix) : Prop := b.rows = a.rows ∧ b.cols = a.cols ∧ b.Shaped

theorem Matrix.SameShape.refl {a : Matrix} (h : a.Shaped) : a.SameShape a := ⟨rfl, rfl, h⟩

theorem Matrix.SameShape.trans {a b c : Matrix} (h1 : a.SameShape b) (h2 : b.SameShape c) : a.SameShape c :=
  ⟨h2.1.trans h1.1, h2.2.1.trans h1.2.1, h2.2.2⟩

theorem Matrix.clearEntry_shape (poly : BitVec 9) (col src : Nat) (w : Matrix) (dst : Nat) (hw : w.Shaped)
    (hs : src < w.rows) (hd : dst < w.rows) : w.SameShape (w.clearEntry poly col src dst) := by
  unfold Matrix.clearEntry
  split
  · exact .refl hw
  · exact ⟨rfl, rfl, Matrix.addRow_shaped poly w dst src _ hw hd hs⟩

theorem Matrix.clearColumn_shape (poly : BitVec 9) (r : Nat) (dsts : List Nat) (w : Matrix) (hw : w.Shaped)
    (hr : r < w.rows) (hd : ∀ d ∈ dsts, d < w.rows) : w.SameShape (w.clearColumn poly r dsts) := by
  induction dsts generalizing w with
  | nil => exact .refl hw
  | cons d rest ih =>
    have h1 := Matrix.clearEntry_shape poly r r w d hw hr (hd d (by simp))
    refine h1.trans (ih _ h1.2.2 (by rw [h1.1]; exact hr) fun x hx => ?_)
    rw [h1.1]
    exact hd x (by simp [hx])

theorem Matrix.choosePivot_cases (w : Matrix) (r : Nat) :
    w.choosePivot r = w ∨
      ∃ rb, r < rb ∧ rb < w.rows ∧ w.get r r = 0 ∧ w.get rb r ≠ 0 ∧ w.choosePivot r = w.swapRows r rb := by
  unfold Matrix.choosePivot
  split
  · rename_i h0
    split
    · rename_i rb hf
      have hmem := List.mem_of_find?_eq_some hf
      have hp := List.find?_some hf
      simp only [List.mem_range'_1] at hmem
      exact .inr ⟨rb, by omega, by omega, h0, by simpa using hp, rfl⟩
    · exact .inl rfl
  · exact .inl rfl

theorem Matrix.choosePivot_shape (w : Matrix) (r : Nat) (hw : w.Shaped) (hr : r < w.rows) :
    w.SameShape (w.choosePivot r) := by
  rcases w.choosePivot_cases r with h | ⟨rb, _, hrb, _, _, h⟩
  · rw [h]; exact .refl hw
  · rw [h]; exact ⟨rfl, rfl, Matrix.swapRows_shaped w r rb hw hr hrb⟩

theorem Matrix.scalePivot_shape (poly : BitVec 9) (w : Matrix) (r : Nat) (hw : w.Shaped) (hr : r < w.rows) :
    w.SameShape (w.scalePivot poly r) := by
  unfold Matrix.scalePivot
  split
  · exact .refl hw
  · exact ⟨rfl, rfl, Matrix.scaleRow_shaped poly w r _ hw hr⟩

theorem Matrix.reduceRow_shape (poly : BitVec 9) (w w' : Matrix) (r : Nat) (hw : w.Shaped) (hr : r < w.rows)
    (h : w.reduceRow poly r = .ok w') : w.SameShape w' := by
  simp only [Matrix.reduceRow] at h
  split at h
  · simp at h
  · simp only [Except.ok.injEq] at h
    subst h
    have h1 := w.choosePivot_shape r hw hr
    have h2 := Matrix.scalePivot_shape poly (w.choosePivot r) r h1.2.2 (by rw [h1.1]; exact hr)
    refine (h1.trans h2).trans (Matrix.clearColumn_shape poly r _ _ h2.2.2 ?_ fun d hd => ?_)
    · rw [(h1.trans h2).1]; exact hr
    · rw [(h1.trans h2).1]
      simp only [List.mem_range'_1] at hd
      omega

theorem Matrix.reduceRows_shape (poly : BitVec 9) (rs : List Nat) (w w' : Matrix) (hw : w.Shaped)
    (hr : ∀ r ∈ rs, r < w.rows) (h : w.reduceRows poly rs = .ok w') : w.SameShape w' := by
  induction rs generalizing w with
  | nil => simp only [Matrix.reduceRows, Except.ok.injEq] at h; subst h; exact .refl hw
  | cons r rest ih =>
    simp only [Matrix.reduceRows] at h
    split at h
    · rename_i w1 h1
      have s1 := Matrix.reduceRow_shape poly w w1 r hw (hr r (by simp)) h1
      exact s1.trans (ih _ s1.2.2 (fun x hx => by rw [s1.1]; exact hr x (by simp [hx])) h)
    · simp at h

theorem Matrix.backSubstitute_shape (poly : BitVec 9) (w : Matrix) (hw : w.Shaped) :
    w.SameShape (w.backSubstitute poly) := by
  have key : ∀ (ds : List Nat) (v : Matrix), w.SameShape v → (∀ d ∈ ds, d < w.rows) →
      w.SameShape (ds.foldl (fun v d => v.clearColumn poly d (List.range d)) v) := by
    intro ds
    induction ds with
    | nil => intro v hv _; exact hv
    | cons d rest ih =>
      intro v hv hd
      apply ih
      · have hdr : d < w.rows := hd d (by simp)
        refine hv.trans (Matrix.clearColumn_shape poly d _ v hv.2.2 (by rw [hv.1]; exact hdr) fun x hx => ?_)
        rw [hv.1]
        simp only [List.mem_range] at hx
        omega
      · exact fun x hx => hd x (by simp [hx])
  exact key _ w (.refl hw) fun d hd => List.mem_range.1 hd

/-- `gauss` keeps the shape (41_matrix.md R167: the slot keeps its rows and cols). -/
theorem Matrix.gauss_shape (poly : BitVec 9) (w w' : Matrix) (hw : w.Shaped) (h : w.gauss poly = .ok w') :
    w.SameShape w' := by
  simp only [Matrix.gauss] at h
  split at h
  · rename_i w1 h1
    simp only [Except.ok.injEq] at h
    subst h
    have s1 := Matrix.reduceRows_shape poly _ w w1 hw (fun r hr => List.mem_range.1 hr) h1
    exact s1.trans (Matrix.backSubstitute_shape poly w1 s1.2.2)
  · simp at h

/-- A failure of `gauss` names one of the rows. -/
theorem Matrix.gauss_error_row (poly : BitVec 9) (w : Matrix) (row : Nat) (h : w.gauss poly = .error row) :
    row < w.rows := by
  have key : ∀ (rs : List Nat) (v : Matrix), v.reduceRows poly rs = .error row → row ∈ rs := by
    intro rs
    induction rs with
    | nil => intro v hv; simp [Matrix.reduceRows] at hv
    | cons r rest ih =>
      intro v hv
      simp only [Matrix.reduceRows] at hv
      split at hv
      · exact List.mem_cons_of_mem _ (ih _ hv)
      · rename_i x h1
        simp only [Except.error.injEq] at hv
        subst hv
        simp only [Matrix.reduceRow] at h1
        split at h1
        · simp only [Except.error.injEq] at h1
          subst h1
          simp
        · simp at h1
  simp only [Matrix.gauss] at h
  split at h
  · simp at h
  · rename_i x h1
    simp only [Except.error.injEq] at h
    subst h
    exact List.mem_range.1 (key _ _ h1)

/-- `minvert` of an n-row matrix is n × n. -/
theorem Matrix.minvert_shape (poly : BitVec 9) (a b : Matrix) (h : a.minvert poly = .ok b) :
    b.rows = a.rows ∧ b.cols = a.rows ∧ b.Shaped := by
  simp only [Matrix.minvert] at h
  split at h
  · simp only [Except.ok.injEq] at h
    subst h
    refine ⟨?_, ?_, Matrix.build_shaped _ _ _⟩
    · simp [Matrix.msub]
    · simp only [Matrix.msub, Matrix.build_cols]; omega
  · simp at h

/-- What `buildEM` gives: a (D + P) × D matrix, the product of the Vandermonde matrix and the inverse of its top. -/
theorem buildEM_ok (poly : BitVec 9) (d p : Nat) (em : Matrix) (h : buildEM poly d p = .ok em) :
    ∃ inv, ((Matrix.vandermonde poly (d + p) d).msub 0 0 d d).minvert poly = .ok inv ∧
      em = (Matrix.vandermonde poly (d + p) d).mtimes poly inv ∧
      em.rows = d + p ∧ em.cols = d ∧ em.Shaped := by
  unfold buildEM at h
  simp only [check_bind_eq_ok] at h
  obtain ⟨inv, h1, h2⟩ := h
  simp only [orSingular, raising] at h1
  split at h1
  · rename_i v hv
    simp only [Except.ok.injEq] at h1 h2
    subst h1 h2
    refine ⟨v, hv, rfl, rfl, ?_, Matrix.build_shaped _ _ _⟩
    have := (Matrix.minvert_shape poly _ _ hv).2.1
    simpa [Matrix.mtimes, Matrix.msub] using this
  · simp at h1

end Sys2Proof.Machine
end

