-- ==== Sys2Proof/Laws/Field.lean ====
section
/-! SUPPORT. The field: `gmul` is bilinear, commutative and associative with unit 1 for every FIELD_POLY with bit 8
set; `gexp` is the repeated product (40_field.md R126); under an irreducible FIELD_POLY there are no zero divisors, so
quotients exist and are unique (R125); 0x11D is irreducible. -/

namespace Sys2Proof.Machine

/-! ### Additive functions of a byte -/

/-- The element x^i, for i < 8. -/
def bitAt (i : Nat) : Byte := (1 : Byte) <<< i

/-- The polynomial x^i, for i < 15. -/
def bit15 (i : Nat) : BitVec 15 := (1 : BitVec 15) <<< i

theorem byte_bits : ∀ b : Byte, b =
    (if b.getLsbD 0 then bitAt 0 else 0) ^^^ ((if b.getLsbD 1 then bitAt 1 else 0) ^^^
    ((if b.getLsbD 2 then bitAt 2 else 0) ^^^ ((if b.getLsbD 3 then bitAt 3 else 0) ^^^
    ((if b.getLsbD 4 then bitAt 4 else 0) ^^^ ((if b.getLsbD 5 then bitAt 5 else 0) ^^^
    ((if b.getLsbD 6 then bitAt 6 else 0) ^^^ (if b.getLsbD 7 then bitAt 7 else 0))))))) := by
  decide +kernel

/-- `f (x ^^^ y) = f x ^^^ f y`. -/
def XorAdditive {m n : Nat} (f : BitVec m → BitVec n) : Prop := ∀ x y, f (x ^^^ y) = f x ^^^ f y

theorem XorAdditive.zero {m n : Nat} {f : BitVec m → BitVec n} (h : XorAdditive f) : f 0 = 0 := by
  have := h 0 0
  simpa using this

/-- Two additive functions of a byte that agree on the powers of x agree. -/
theorem additive_ext {n : Nat} {f g : Byte → BitVec n} (hf : XorAdditive f) (hg : XorAdditive g)
    (h : ∀ i < 8, f (bitAt i) = g (bitAt i)) (b : Byte) : f b = g b := by
  have bitEq : ∀ (c : Bool) (i : Nat), i < 8 → f (if c then bitAt i else 0) = g (if c then bitAt i else 0) := by
    intro c i hi
    cases c
    · rw [if_neg (by simp), hf.zero, hg.zero]
    · rw [if_pos rfl]; exact h i hi
  rw [byte_bits b]
  simp only [hf _ _, hg _ _]
  simp only [bitEq _ _ (show 0 < 8 by omega), bitEq _ _ (show 1 < 8 by omega), bitEq _ _ (show 2 < 8 by omega),
    bitEq _ _ (show 3 < 8 by omega), bitEq _ _ (show 4 < 8 by omega), bitEq _ _ (show 5 < 8 by omega),
    bitEq _ _ (show 6 < 8 by omega), bitEq _ _ (show 7 < 8 by omega)]

/-! ### Bilinearity -/

theorem xor_swap {n : Nat} (a b c d : BitVec n) : (a ^^^ b) ^^^ (c ^^^ d) = (a ^^^ c) ^^^ (b ^^^ d) := by
  ac_rfl

theorem clStep_left (a a' b : Byte) (p p' : BitVec 15) (i : Nat) :
    clStep (a ^^^ a') b (p ^^^ p') i = clStep a b p i ^^^ clStep a' b p' i := by
  unfold clStep
  split
  · rw [xor_swap, ← BitVec.shiftLeft_xor_distrib]
    exact congrArg (fun z : BitVec 15 => (p ^^^ p') ^^^ (z <<< i)) BitVec.setWidth_xor
  · rfl

theorem clStep_right (a b b' : Byte) (p p' : BitVec 15) (i : Nat) :
    clStep a (b ^^^ b') (p ^^^ p') i = clStep a b p i ^^^ clStep a b' p' i := by
  unfold clStep
  simp only [BitVec.getLsbD_xor]
  cases b.getLsbD i <;> cases b'.getLsbD i
  · simp
  · simp only [Bool.false_xor, if_true, Bool.false_eq_true, if_false]; ac_rfl
  · simp only [Bool.xor_false, if_true, Bool.false_eq_true, if_false]; ac_rfl
  · simp only [Bool.xor_true, Bool.not_true, Bool.false_eq_true, if_true, if_false]
    rw [xor_swap]
    simp

theorem redStep_additive (poly : BitVec 9) (p p' : BitVec 15) (k : Nat) :
    redStep poly (p ^^^ p') k = redStep poly p k ^^^ redStep poly p' k := by
  unfold redStep
  simp only [BitVec.getLsbD_xor]
  cases p.getLsbD k <;> cases p'.getLsbD k
  · simp
  · simp only [Bool.false_xor, if_true, Bool.false_eq_true, if_false]; ac_rfl
  · simp only [Bool.xor_false, if_true, Bool.false_eq_true, if_false]; ac_rfl
  · simp only [Bool.xor_true, Bool.not_true, Bool.false_eq_true, if_true, if_false]
    rw [xor_swap]
    simp

theorem clmul_left (b : Byte) : XorAdditive fun a => clmul a b := by
  intro a a'
  have : ∀ (l : List Nat) (p p' : BitVec 15),
      l.foldl (clStep (a ^^^ a') b) (p ^^^ p') = l.foldl (clStep a b) p ^^^ l.foldl (clStep a' b) p' := by
    intro l
    induction l with
    | nil => intro p p'; rfl
    | cons i rest ih => intro p p'; simp only [List.foldl_cons, clStep_left, ih]
  have := this (List.range 8) 0 0
  rwa [show (0 : BitVec 15) ^^^ 0 = 0 from rfl] at this

theorem clmul_right (a : Byte) : XorAdditive fun b => clmul a b := by
  intro b b'
  have : ∀ (l : List Nat) (p p' : BitVec 15),
      l.foldl (clStep a (b ^^^ b')) (p ^^^ p') = l.foldl (clStep a b) p ^^^ l.foldl (clStep a b') p' := by
    intro l
    induction l with
    | nil => intro p p'; rfl
    | cons i rest ih => intro p p'; simp only [List.foldl_cons, clStep_right, ih]
  have := this (List.range 8) 0 0
  rwa [show (0 : BitVec 15) ^^^ 0 = 0 from rfl] at this

theorem reduce_additive (poly : BitVec 9) : XorAdditive (reduce poly) := by
  intro p p'
  have : ∀ (l : List Nat) (p p' : BitVec 15),
      l.foldl (redStep poly) (p ^^^ p') = l.foldl (redStep poly) p ^^^ l.foldl (redStep poly) p' := by
    intro l
    induction l with
    | nil => intro p p'; rfl
    | cons i rest ih => intro p p'; simp only [List.foldl_cons, redStep_additive, ih]
  simp only [reduce, this]
  exact BitVec.setWidth_xor

/-- Distributivity in the left factor (40_field.md R125). -/
theorem gmul_xor_left (poly : BitVec 9) (a a' b : Byte) :
    gmul poly (a ^^^ a') b = gmul poly a b ^^^ gmul poly a' b := by
  simp only [gmul, clmul_left b a a', reduce_additive poly _ _]

/-- Distributivity in the right factor (40_field.md R125). -/
theorem gmul_xor_right (poly : BitVec 9) (a b b' : Byte) :
    gmul poly a (b ^^^ b') = gmul poly a b ^^^ gmul poly a b' := by
  simp only [gmul, clmul_right a b b', reduce_additive poly _ _]

@[simp] theorem gmul_zero_right (poly : BitVec 9) (a : Byte) : gmul poly a 0#8 = 0#8 :=
  XorAdditive.zero (f := fun b => gmul poly a b) fun x y => gmul_xor_right poly a x y

@[simp] theorem gmul_zero_left (poly : BitVec 9) (a : Byte) : gmul poly 0#8 a = 0#8 :=
  XorAdditive.zero (f := fun b => gmul poly b a) fun x y => gmul_xor_left poly x y a

theorem clmul_comm (a b : Byte) : clmul a b = clmul b a := by
  refine additive_ext (f := fun a => clmul a b) (g := fun a => clmul b a) (clmul_left b) (clmul_right b) ?_ a
  intro i hi
  refine additive_ext (f := fun b => clmul (bitAt i) b) (g := fun b => clmul b (bitAt i)) (clmul_right _)
    (clmul_left _) ?_ b
  intro j hj
  have : ∀ i < 8, ∀ j < 8, clmul (bitAt i) (bitAt j) = clmul (bitAt j) (bitAt i) := by decide +kernel
  exact this i hi j hj

/-- Commutativity (40_field.md R125). -/
theorem gmul_comm (poly : BitVec 9) (a b : Byte) : gmul poly a b = gmul poly b a := by
  simp only [gmul, clmul_comm a b]

/-! ### Multiplication by x -/

/-- The product with x. -/
def xtime (poly : BitVec 9) (v : Byte) : Byte := reduce poly (v.zeroExtend 15 <<< 1)

theorem shift_additive (k : Nat) : XorAdditive fun v : Byte => (v.zeroExtend 15 <<< k : BitVec 15) := by
  intro x y
  show (x ^^^ y).setWidth 15 <<< k = x.setWidth 15 <<< k ^^^ y.setWidth 15 <<< k
  rw [BitVec.setWidth_xor, BitVec.shiftLeft_xor_distrib]

theorem xtime_additive (poly : BitVec 9) : XorAdditive (xtime poly) := by
  intro x y
  simp only [xtime, shift_additive 1 x y, reduce_additive poly _ _]

theorem clmul_shift (a : Byte) (k : Nat) (hk : k < 8) : clmul a (bitAt k) = a.zeroExtend 15 <<< k := by
  refine additive_ext (f := fun a => clmul a (bitAt k)) (clmul_left _) (shift_additive k) ?_ a
  intro i hi
  have : ∀ k < 8, ∀ i < 8, clmul (bitAt i) (bitAt k) = ((bitAt i).zeroExtend 15 <<< k : BitVec 15) := by
    decide +kernel
  exact this k hk i hi

/-- A FIELD_POLY with bit 8 set, from its low byte. -/
def polyOf (low : Nat) : BitVec 9 := BitVec.ofNat 9 (256 + low)

theorem eq_polyOf (poly : BitVec 9) (h : poly.getLsbD 8 = true) : ∃ low, low < 256 ∧ poly = polyOf low := by
  have h1 : 2 ^ 8 ≤ poly.toNat := by
    rw [← BitVec.testBit_toNat] at h
    exact Nat.ge_two_pow_of_testBit h
  refine ⟨poly.toNat - 256, by have := poly.isLt; omega, ?_⟩
  apply BitVec.eq_of_toNat_eq
  have := poly.isLt
  simp only [polyOf, BitVec.toNat_ofNat]
  omega

theorem reduce_shift_table :
    ((List.range 256).all fun low => (List.range 14).all fun n =>
      reduce (polyOf low) (bit15 (n + 1)) == xtime (polyOf low) (reduce (polyOf low) (bit15 n))) = true := by
  decide +kernel

theorem reduce_one_shift (poly : BitVec 9) (h : poly.getLsbD 8 = true) (n : Nat) (hn : n < 14) :
    reduce poly (bit15 (n + 1)) = xtime poly (reduce poly (bit15 n)) := by
  obtain ⟨low, hl, rfl⟩ := eq_polyOf poly h
  have := reduce_shift_table
  rw [List.all_eq_true] at this
  have := this low (List.mem_range.2 hl)
  rw [List.all_eq_true] at this
  simpa using this n (List.mem_range.2 hn)

theorem zeroExtend_one_shift (m k : Nat) (hm : m < 8) (hk : k < 8) :
    ((bitAt m).zeroExtend 15 <<< k : BitVec 15) = bit15 (m + k) := by
  have : ∀ m < 8, ∀ k < 8, ((bitAt m).zeroExtend 15 <<< k : BitVec 15) = bit15 (m + k) := by decide +kernel
  exact this m hm k hk

theorem reduce_shift (poly : BitVec 9) (h : poly.getLsbD 8 = true) (v : Byte) (k : Nat) (hk : k < 7) :
    reduce poly (v.zeroExtend 15 <<< (k + 1)) = xtime poly (reduce poly (v.zeroExtend 15 <<< k)) := by
  refine additive_ext (f := fun v : Byte => reduce poly (v.zeroExtend 15 <<< (k + 1)))
    (g := fun v : Byte => xtime poly (reduce poly (v.zeroExtend 15 <<< k))) ?_ ?_ ?_ v
  · intro x y; simp only [shift_additive (k + 1) x y, reduce_additive poly _ _]
  · intro x y; simp only [shift_additive k x y, reduce_additive poly _ _, xtime_additive poly _ _]
  · intro m hm
    simp only [zeroExtend_one_shift m (k + 1) hm (by omega), zeroExtend_one_shift m k hm (by omega)]
    exact reduce_one_shift poly h (m + k) (by omega)

theorem reduce_byte (poly : BitVec 9) (v : Byte) : reduce poly (v.zeroExtend 15) = v := by
  have h : ∀ k, 8 ≤ k → redStep poly (v.zeroExtend 15) k = v.zeroExtend 15 := by
    intro k hk
    have : (v.zeroExtend 15 : BitVec 15).getLsbD k = false := by
      show (v.setWidth 15).getLsbD k = false
      rw [BitVec.getLsbD_setWidth, BitVec.getLsbD_of_ge v k hk]
      simp
    simp [redStep, this]
  simp only [reduce, List.foldl_cons, List.foldl_nil, h 14 (by omega), h 13 (by omega), h 12 (by omega),
    h 11 (by omega), h 10 (by omega), h 9 (by omega), h 8 (by omega)]
  show (v.setWidth 15).setWidth 8 = v
  rw [BitVec.setWidth_setWidth_of_le v (by omega)]
  simp

theorem gmul_pow_x (poly : BitVec 9) (h : poly.getLsbD 8 = true) (a : Byte) (k : Nat) (hk : k < 8) :
    gmul poly a (bitAt k) = (xtime poly)^[k] a := by
  simp only [gmul, clmul_shift a k hk]
  induction k with
  | zero =>
    have : (a.zeroExtend 15 <<< 0 : BitVec 15) = a.zeroExtend 15 := by simp
    rw [this, reduce_byte]
    rfl
  | succ k ih =>
    rw [reduce_shift poly h a k (by omega), ih (by omega), Function.iterate_succ_apply']

/-- 1 is the unit (40_field.md R125). -/
theorem gmul_one_right (poly : BitVec 9) (h : poly.getLsbD 8 = true) (a : Byte) : gmul poly a 1 = a := by
  exact gmul_pow_x poly h a 0 (by omega)

theorem gmul_one_left (poly : BitVec 9) (h : poly.getLsbD 8 = true) (a : Byte) : gmul poly 1 a = a := by
  rw [gmul_comm, gmul_one_right poly h]

/-- Associativity (40_field.md R125). -/
theorem gmul_assoc (poly : BitVec 9) (h : poly.getLsbD 8 = true) (a b c : Byte) :
    gmul poly (gmul poly a b) c = gmul poly a (gmul poly b c) := by
  refine additive_ext (f := fun a => gmul poly (gmul poly a b) c) (g := fun a => gmul poly a (gmul poly b c)) ?_ ?_ ?_ a
  · intro x y; simp only [gmul_xor_left]
  · intro x y; simp only [gmul_xor_left]
  intro i hi
  refine additive_ext (f := fun b => gmul poly (gmul poly (bitAt i) b) c)
    (g := fun b => gmul poly (bitAt i) (gmul poly b c)) ?_ ?_ ?_ b
  · intro x y; simp only [gmul_xor_left, gmul_xor_right]
  · intro x y; simp only [gmul_xor_left, gmul_xor_right]
  intro j hj
  refine additive_ext (f := fun c => gmul poly (gmul poly (bitAt i) (bitAt j)) c)
    (g := fun c => gmul poly (bitAt i) (gmul poly (bitAt j) c)) ?_ ?_ ?_ c
  · intro x y; simp only [gmul_xor_right]
  · intro x y; simp only [gmul_xor_right]
  intro k hk
  show gmul poly (gmul poly (bitAt i) (bitAt j)) (bitAt k) = gmul poly (bitAt i) (gmul poly (bitAt j) (bitAt k))
  rw [gmul_comm poly (bitAt i) (gmul poly (bitAt j) (bitAt k)), gmul_pow_x poly h _ k hk, gmul_pow_x poly h _ k hk,
    gmul_pow_x poly h _ i hi, gmul_comm poly (bitAt i) (bitAt j), gmul_pow_x poly h _ i hi]
  exact ((Function.Commute.refl (xtime poly)).iterate_iterate k i _)

/-! ### Powers -/

theorem repeatedProduct_succ (poly : BitVec 9) (a : Byte) (n : Nat) :
    repeatedProduct poly a (n + 1) = gmul poly a (repeatedProduct poly a n) := by
  rw [repeatedProduct, gmul_comm]

theorem repeatedProduct_square (poly : BitVec 9) (h : poly.getLsbD 8 = true) (a : Byte) (n : Nat) :
    repeatedProduct poly (gmul poly a a) n = repeatedProduct poly a (2 * n) := by
  induction n with
  | zero => rfl
  | succ n ih =>
    have : 2 * (n + 1) = 2 * n + 1 + 1 := by omega
    rw [this, repeatedProduct, repeatedProduct, repeatedProduct, ih, gmul_assoc poly h]

theorem gpowLoop_eq (poly : BitVec 9) (h : poly.getLsbD 8 = true) (fuel n : Nat) (acc b : Byte) (hn : n < 2 ^ fuel) :
    gpowLoop poly fuel n acc b = gmul poly acc (repeatedProduct poly b n) := by
  induction fuel generalizing n acc b with
  | zero =>
    have : n = 0 := by simpa using hn
    subst this
    rw [gpowLoop, repeatedProduct, gmul_one_right poly h]
  | succ fuel ih =>
    unfold gpowLoop
    split
    · rename_i h0
      subst h0
      rw [repeatedProduct, gmul_one_right poly h]
    · have h2 : n / 2 < 2 ^ fuel := by omega
      rw [ih _ _ _ h2, repeatedProduct_square poly h]
      split
      · rename_i h1
        have : n = 2 * (n / 2) + 1 := by omega
        conv_rhs => rw [this, repeatedProduct_succ poly]
        rw [gmul_assoc poly h]
      · have : n = 2 * (n / 2) := by omega
        rw [← this]

/-- `gexp` is the repeated product (40_field.md R126). -/
theorem gexp_eq_repeated (poly : BitVec 9) (h : poly.getLsbD 8 = true) (a : Byte) (n : Nat) (hn : n < 2 ^ 32) :
    gexp poly a n = repeatedProduct poly a n := by
  rw [gexp, gpowLoop_eq poly h 32 n 1 a hn, gmul_one_left poly h]



/-! ### Polynomials in the operator "multiply by x" -/

/-- `c(T) v` with T the product with x: the XOR of `T^i v` over the bits i of c that are set. -/
def evalX (poly : BitVec 9) (c : BitVec 15) (v : Byte) : Byte :=
  xorSum 15 fun i => if c.getLsbD i then (xtime poly)^[i] v else 0

theorem xorSum_xor (n : Nat) (f g : Nat → Byte) : xorSum n (fun i => f i ^^^ g i) = xorSum n f ^^^ xorSum n g := by
  induction n with
  | zero => simp [xorSum]
  | succ n ih => simp only [xorSum, ih]; ac_rfl

theorem xorSum_zero (n : Nat) : xorSum n (fun _ => 0) = 0 := by
  induction n with
  | zero => rfl
  | succ n ih => simp only [xorSum, ih]; rfl

theorem xorSum_congr (n : Nat) (f g : Nat → Byte) (h : ∀ i, i < n → f i = g i) : xorSum n f = xorSum n g := by
  induction n with
  | zero => rfl
  | succ n ih => simp only [xorSum, ih fun i hi => h i (by omega), h n (by omega)]

/-- A sum with one term that need not vanish. -/
theorem xorSum_single (n k : Nat) (f : Nat → Byte) (hk : k < n) (h : ∀ i, i < n → i ≠ k → f i = 0) :
    xorSum n f = f k := by
  induction n with
  | zero => omega
  | succ n ih =>
    simp only [xorSum]
    by_cases e : k = n
    · subst e
      rw [xorSum_congr k f (fun _ => 0) fun i hi => h i (by omega) (by omega), xorSum_zero]
      simp
    · rw [ih (by omega) fun i hi he => h i (by omega) he, h n (by omega) (by omega)]
      simp

theorem evalX_xor (poly : BitVec 9) (v : Byte) : XorAdditive fun c => evalX poly c v := by
  intro c c'
  simp only [evalX, ← xorSum_xor]
  congr 1
  funext i
  simp only [BitVec.getLsbD_xor]
  cases c.getLsbD i <;> cases c'.getLsbD i <;> simp

theorem evalX_bit (poly : BitVec 9) (k : Nat) (hk : k < 15) (v : Byte) :
    evalX poly (bit15 k) v = (xtime poly)^[k] v := by
  have hb : ∀ i < 15, ∀ k < 15, (bit15 k).getLsbD i = decide (i = k) := by decide +kernel
  rw [evalX, xorSum_single 15 k _ hk fun i hi he => by simp [hb i hi k hk, he]]
  simp [hb k hk k hk]

theorem iterate_xtime_additive (poly : BitVec 9) (k : Nat) : XorAdditive (xtime poly)^[k] := by
  induction k with
  | zero => intro x y; rfl
  | succ k ih => intro x y; simp only [Function.iterate_succ_apply', ih x y, xtime_additive poly _ _]

theorem evalX_additive (poly : BitVec 9) (c : BitVec 15) : XorAdditive (evalX poly c) := by
  intro x y
  simp only [evalX, ← xorSum_xor]
  congr 1
  funext i
  split
  · exact iterate_xtime_additive poly i x y
  · simp

theorem zeroExtend_bitAt (i : Nat) (hi : i < 8) : (bitAt i).zeroExtend 15 = bit15 i := by
  have : ∀ i < 8, (bitAt i).zeroExtend 15 = bit15 i := by decide +kernel
  exact this i hi

theorem zeroExtend_additive : XorAdditive fun v : Byte => (v.zeroExtend 15 : BitVec 15) := by
  intro x y
  exact BitVec.setWidth_xor

/-- Evaluating a byte is the product with it. -/
theorem evalX_byte (poly : BitVec 9) (h : poly.getLsbD 8 = true) (b v : Byte) :
    evalX poly (b.zeroExtend 15) v = gmul poly v b := by
  refine additive_ext (f := fun b : Byte => evalX poly (b.zeroExtend 15) v) (g := fun b => gmul poly v b) ?_ ?_ ?_ b
  · intro x y; simp only [zeroExtend_additive x y, evalX_xor poly v _ _]
  · intro x y; exact gmul_xor_right poly v x y
  · intro i hi
    show evalX poly ((bitAt i).zeroExtend 15) v = gmul poly v (bitAt i)
    rw [zeroExtend_bitAt i hi, evalX_bit poly i (by omega), gmul_pow_x poly h v i hi]

/-- Evaluating a carry-less product is the product with both factors. -/
theorem evalX_clmul (poly : BitVec 9) (h : poly.getLsbD 8 = true) (a q v : Byte) :
    evalX poly (clmul a q) v = gmul poly (gmul poly v a) q := by
  refine additive_ext (f := fun a => evalX poly (clmul a q) v) (g := fun a => gmul poly (gmul poly v a) q) ?_ ?_ ?_ a
  · intro x y; simp only [clmul_left q x y, evalX_xor poly v _ _]
  · intro x y; simp only [gmul_xor_right, gmul_xor_left]
  intro i hi
  refine additive_ext (f := fun q => evalX poly (clmul (bitAt i) q) v)
    (g := fun q => gmul poly (gmul poly v (bitAt i)) q) ?_ ?_ ?_ q
  · intro x y; simp only [clmul_right (bitAt i) x y, evalX_xor poly v _ _]
  · intro x y; simp only [gmul_xor_right]
  intro j hj
  show evalX poly (clmul (bitAt i) (bitAt j)) v = gmul poly (gmul poly v (bitAt i)) (bitAt j)
  rw [clmul_shift _ j hj, zeroExtend_one_shift i j hi hj, evalX_bit poly (i + j) (by omega),
    gmul_pow_x poly h _ j hj, gmul_pow_x poly h _ i hi, Nat.add_comm, Function.iterate_add_apply]

theorem xtime_top_table :
    ((List.range 256).all fun low => xtime (polyOf low) (bitAt 7) == BitVec.ofNat 8 low) = true := by decide +kernel

theorem reduce_one (poly : BitVec 9) (h : poly.getLsbD 8 = true) (j : Nat) (hj : j < 8) :
    (xtime poly)^[j] 1 = bitAt j := by
  rw [← gmul_pow_x poly h 1 j hj, gmul_one_left poly h]

/-- FIELD_POLY itself evaluates to 0. -/
theorem evalX_poly (poly : BitVec 9) (h : poly.getLsbD 8 = true) (v : Byte) :
    evalX poly (poly.zeroExtend 15) v = 0 := by
  obtain ⟨low, hl, rfl⟩ := eq_polyOf poly h
  have split : (polyOf low).zeroExtend 15 = (BitVec.ofNat 8 low).zeroExtend 15 ^^^ bit15 8 := by
    have : ((List.range 256).all fun low =>
      (polyOf low).zeroExtend 15 == (BitVec.ofNat 8 low).zeroExtend 15 ^^^ bit15 8) = true := by decide +kernel
    rw [List.all_eq_true] at this
    simpa using this low (List.mem_range.2 hl)
  have hx := evalX_xor (polyOf low) v ((BitVec.ofNat 8 low).zeroExtend 15) (bit15 8)
  simp only at hx
  rw [split, hx, evalX_byte _ h, evalX_bit _ 8 (by omega)]
  have top : ∀ w, (xtime (polyOf low))^[8] w = gmul (polyOf low) w (BitVec.ofNat 8 low) := by
    intro w
    refine additive_ext (f := (xtime (polyOf low))^[8]) (g := fun w => gmul (polyOf low) w (BitVec.ofNat 8 low))
      (iterate_xtime_additive _ 8) (fun x y => gmul_xor_left _ x y _) ?_ w
    intro j hj
    have t7 : xtime (polyOf low) (bitAt 7) = BitVec.ofNat 8 low := by
      have := xtime_top_table
      rw [List.all_eq_true] at this
      simpa using this low (List.mem_range.2 hl)
    have e8 : (xtime (polyOf low))^[8] 1 = BitVec.ofNat 8 low := by
      rw [Function.iterate_succ_apply', reduce_one _ h 7 (by omega), t7]
    show (xtime (polyOf low))^[8] (bitAt j) = gmul (polyOf low) (bitAt j) (BitVec.ofNat 8 low)
    rw [gmul_comm, gmul_pow_x _ h _ j hj, ← e8, ← reduce_one _ h j hj]
    exact (Function.Commute.refl (xtime (polyOf low))).iterate_iterate 8 j _
  rw [top]
  simp

/-! ### No zero divisors -/

/-- Division with remainder by a polynomial a of degree d, 1 ≤ d ≤ 7. -/
theorem divide (a : Byte) (d : Nat) (hd : 1 ≤ d) (hd7 : d ≤ 7) (ha : a.toNat < 2 ^ (d + 1)) (had : a.getLsbD d = true)
    (n : Nat) (hn : n ≤ 9) (p : BitVec 15) (hp : p.toNat < 2 ^ n) :
    ∃ q r : Byte, p = clmul a q ^^^ r.zeroExtend 15 ∧ r.toNat < 2 ^ d := by
  induction n generalizing p with
  | zero =>
    refine ⟨0, 0, ?_, by simp⟩
    have : p = 0 := by apply BitVec.eq_of_toNat_eq; simp; omega
    rw [this, (clmul_right a).zero]
    rfl
  | succ n ih =>
    by_cases hpn : p.toNat < 2 ^ n
    · exact ih (by omega) p hpn
    · by_cases hnd : n < d
      · refine ⟨0, p.setWidth 8, ?_, ?_⟩
        · rw [(clmul_right a).zero]
          apply BitVec.eq_of_toNat_eq
          have : p.toNat < 2 ^ 8 := lt_of_lt_of_le hp (Nat.pow_le_pow_right (by omega) (by omega))
          show p.toNat = (0 ^^^ (p.setWidth 8).setWidth 15).toNat
          simp only [BitVec.toNat_xor, BitVec.toNat_setWidth]
          rw [Nat.mod_eq_of_lt this, Nat.mod_eq_of_lt (by omega)]
          simp
        · have h8 : p.toNat < 2 ^ 8 := lt_of_lt_of_le hp (Nat.pow_le_pow_right (by omega) (by omega))
          have : p.toNat < 2 ^ d := lt_of_lt_of_le hp (Nat.pow_le_pow_right (by omega) (by omega))
          rw [BitVec.toNat_setWidth, Nat.mod_eq_of_lt h8]
          exact this
      · have hs : n - d < 8 := by omega
        obtain ⟨q, r, hq, hr⟩ := ih (by omega) (p ^^^ (a.zeroExtend 15 <<< (n - d))) (by
          apply Nat.lt_pow_two_of_testBit
          intro i hi
          rw [BitVec.testBit_toNat, BitVec.getLsbD_xor, BitVec.getLsbD_shiftLeft]
          by_cases e : i = n
          · subst e
            have hpi : p.getLsbD i = true := by
              rw [← BitVec.testBit_toNat]
              exact Nat.testBit_of_two_pow_le_and_two_pow_add_one_gt (by omega) hp
            have : i - (i - d) = d := by omega
            show (p.getLsbD i ^^ (decide (i < 15) && !decide (i < i - d) && (a.setWidth 15).getLsbD (i - (i - d)))) = false
            rw [this, BitVec.getLsbD_setWidth, hpi, had]
            simp
            omega
          · have hpi : p.getLsbD i = false := by
              rw [← BitVec.testBit_toNat]
              exact Nat.testBit_lt_two_pow (lt_of_lt_of_le hp (Nat.pow_le_pow_right (by omega) (by omega)))
            have hai : a.getLsbD (i - (n - d)) = false := by
              rw [← BitVec.testBit_toNat]
              exact Nat.testBit_lt_two_pow (lt_of_lt_of_le ha (Nat.pow_le_pow_right (by omega) (by omega)))
            show (p.getLsbD i ^^ (decide (i < 15) && !decide (i < n - d) && (a.setWidth 15).getLsbD (i - (n - d)))) = false
            rw [BitVec.getLsbD_setWidth, hpi, hai]
            simp)
        refine ⟨q ^^^ bitAt (n - d), r, ?_, hr⟩
        have := clmul_right a q (bitAt (n - d))
        simp only at this
        rw [this, clmul_shift a _ hs]
        have h2 : p = (p ^^^ (a.zeroExtend 15 <<< (n - d))) ^^^ (a.zeroExtend 15 <<< (n - d)) := by
          rw [BitVec.xor_assoc, BitVec.xor_self, BitVec.xor_zero]
        rw [h2, hq]
        ac_rfl

/-- Under an irreducible FIELD_POLY there are no zero divisors. -/
theorem gmul_eq_zero (poly : BitVec 9) (hirr : IrreduciblePoly poly) (a b : Byte) (ha : a ≠ 0)
    (hab : gmul poly b a = 0) : b = 0 := by
  have h := hirr.1
  induction hk : a.toNat using Nat.strong_induction_on generalizing a with
  | _ k ih =>
    subst hk
    by_cases h1 : a.toNat < 2
    · have : a = 1 := by
        apply BitVec.eq_of_toNat_eq
        have : a.toNat ≠ 0 := fun e => ha (BitVec.eq_of_toNat_eq (by simpa using e))
        simp
        omega
      rw [this, gmul_one_right poly h] at hab
      exact hab
    · have ha2 : 2 ≤ a.toNat := by omega
      obtain ⟨d, hd1, hd2⟩ : ∃ d, 2 ^ d ≤ a.toNat ∧ a.toNat < 2 ^ (d + 1) :=
        ⟨Nat.log2 a.toNat, Nat.log2_self_le (by omega), Nat.lt_log2_self⟩
      have hdpos : 1 ≤ d := by
        rcases Nat.eq_zero_or_pos d with e | e
        · subst e; omega
        · exact e
      have hd7 : d ≤ 7 := by
        by_contra hc
        have : 2 ^ 8 ≤ 2 ^ d := Nat.pow_le_pow_right (by omega) (by omega)
        have := a.isLt
        omega
      have had : a.getLsbD d = true := by
        rw [← BitVec.testBit_toNat]
        exact Nat.testBit_of_two_pow_le_and_two_pow_add_one_gt hd1 hd2
      have hpw : (poly.zeroExtend 15 : BitVec 15).toNat < 2 ^ 9 := by
        show (poly.setWidth 15).toNat < 2 ^ 9
        rw [BitVec.toNat_setWidth]
        have := poly.isLt
        omega
      obtain ⟨q, r, hqr, hr⟩ := divide a d hdpos hd7 hd2 had 9 (by omega) (poly.zeroExtend 15) hpw
      have hev : gmul poly b r = 0 := by
        have e1 := evalX_poly poly h b
        have e2 := evalX_xor poly b (clmul a q) (r.zeroExtend 15)
        simp only at e2
        rw [hqr, e2, evalX_clmul poly h, evalX_byte poly h, hab] at e1
        simpa using e1
      by_cases hr0 : r = 0
      · exfalso
        subst hr0
        have hpc : poly.zeroExtend 15 = clmul a q := by
          rw [hqr]
          show clmul a q ^^^ (0 : Byte).setWidth 15 = clmul a q
          simp
        have hp8 : (poly.zeroExtend 15 : BitVec 15).getLsbD 8 = true := by
          show (poly.setWidth 15).getLsbD 8 = true
          rw [BitVec.getLsbD_setWidth, h]
          rfl
        by_cases hq2 : 2 ≤ q.toNat
        · exact hirr.2 a q ha2 hq2 hpc.symm
        · have hq01 : q = 0 ∨ q = 1 := by
            rcases Nat.lt_or_ge q.toNat 1 with e | e
            · left; apply BitVec.eq_of_toNat_eq; simp; omega
            · right; apply BitVec.eq_of_toNat_eq; simp; omega
          rcases hq01 with rfl | rfl
          · rw [hpc, (clmul_right a).zero] at hp8
            simp at hp8
          · have := clmul_shift a 0 (by omega)
            rw [show bitAt 0 = 1 from rfl] at this
            rw [hpc, this] at hp8
            change (a.setWidth 15 <<< 0).getLsbD 8 = true at hp8
            rw [BitVec.getLsbD_shiftLeft, BitVec.getLsbD_setWidth, BitVec.getLsbD_of_ge a _ (by omega)] at hp8
            simp at hp8
      · exact ih r.toNat (by omega) r hr0 hev rfl

/-- Under an irreducible FIELD_POLY, for b ≠ 0, every a is `gmul(q, b)` for exactly one q (40_field.md R123, R125). -/
theorem quotient_unique (poly : BitVec 9) (hirr : IrreduciblePoly poly) (a b : Byte) (hb : b ≠ 0) :
    ∃ q, gmul poly q b = a ∧ ∀ q', gmul poly q' b = a → q' = q := by
  have inj : Function.Injective fun n : Fin 256 => (gmul poly (BitVec.ofFin n) b).toFin := by
    intro m n hmn
    have h0 : gmul poly (BitVec.ofFin m ^^^ BitVec.ofFin n) b = 0 := by
      rw [gmul_xor_left, BitVec.eq_of_toFin_eq hmn]
      exact BitVec.xor_self
    have : (BitVec.ofFin m : Byte) = BitVec.ofFin n := BitVec.xor_eq_zero_iff.1 (gmul_eq_zero poly hirr b _ hb h0)
    simpa using this
  obtain ⟨n, hn⟩ := Finite.injective_iff_surjective.1 inj a.toFin
  refine ⟨BitVec.ofFin n, BitVec.eq_of_toFin_eq hn, fun q' hq' => ?_⟩
  have := @inj q'.toFin n (by
    show (gmul poly q' b).toFin = (gmul poly (BitVec.ofFin n) b).toFin
    rw [hq', BitVec.eq_of_toFin_eq hn])
  exact BitVec.eq_of_toFin_eq this

theorem mem_nonzeroBytes (q : Byte) (hq : q ≠ 0) : q ∈ nonzeroBytes := by
  simp only [nonzeroBytes, List.mem_map, List.mem_range]
  have h0 : q.toNat ≠ 0 := fun e => hq (BitVec.eq_of_toNat_eq (by simpa using e))
  have := q.isLt
  refine ⟨q.toNat - 1, by omega, ?_⟩
  apply BitVec.eq_of_toNat_eq
  simp only [BitVec.toNat_ofNat]
  omega

/-- The quotient is the q with `gmul(q, b) = a` (40_field.md R123). -/
theorem gmul_quotient (poly : BitVec 9) (hirr : IrreduciblePoly poly) (a b : Byte) (ha : a ≠ 0) (hb : b ≠ 0) :
    gmul poly (quotient poly a b) b = a := by
  obtain ⟨q, hq, _⟩ := quotient_unique poly hirr a b hb
  have hq0 : q ≠ 0 := by rintro rfl; exact ha (hq.symm.trans (gmul_zero_left poly b))
  unfold quotient
  cases hf : nonzeroBytes.find? fun q => gmul poly q b == a with
  | none =>
    rw [List.find?_eq_none] at hf
    exact absurd (by simpa using hq) (hf q (mem_nonzeroBytes q hq0))
  | some q' =>
    have := List.find?_some hf
    simpa using this

/-- The inverses of 0 to 255 under 0x11D (0 for 0): a certificate, checked below. -/
def inverses11D : List Byte :=
  [0x00, 0x01, 0x8E, 0xF4, 0x47, 0xA7, 0x7A, 0xBA, 0xAD, 0x9D, 0xDD, 0x98, 0x3D, 0xAA, 0x5D, 0x96] ++
  [0xD8, 0x72, 0xC0, 0x58, 0xE0, 0x3E, 0x4C, 0x66, 0x90, 0xDE, 0x55, 0x80, 0xA0, 0x83, 0x4B, 0x2A] ++
  [0x6C, 0xED, 0x39, 0x51, 0x60, 0x56, 0x2C, 0x8A, 0x70, 0xD0, 0x1F, 0x4A, 0x26, 0x8B, 0x33, 0x6E] ++
  [0x48, 0x89, 0x6F, 0x2E, 0xA4, 0xC3, 0x40, 0x5E, 0x50, 0x22, 0xCF, 0xA9, 0xAB, 0x0C, 0x15, 0xE1] ++
  [0x36, 0x5F, 0xF8, 0xD5, 0x92, 0x4E, 0xA6, 0x04, 0x30, 0x88, 0x2B, 0x1E, 0x16, 0x67, 0x45, 0x93] ++
  [0x38, 0x23, 0x68, 0x8C, 0x81, 0x1A, 0x25, 0x61, 0x13, 0xC1, 0xCB, 0x63, 0x97, 0x0E, 0x37, 0x41] ++
  [0x24, 0x57, 0xCA, 0x5B, 0xB9, 0xC4, 0x17, 0x4D, 0x52, 0x8D, 0xEF, 0xB3, 0x20, 0xEC, 0x2F, 0x32] ++
  [0x28, 0xD1, 0x11, 0xD9, 0xE9, 0xFB, 0xDA, 0x79, 0xDB, 0x77, 0x06, 0xBB, 0x84, 0xCD, 0xFE, 0xFC] ++
  [0x1B, 0x54, 0xA1, 0x1D, 0x7C, 0xCC, 0xE4, 0xB0, 0x49, 0x31, 0x27, 0x2D, 0x53, 0x69, 0x02, 0xF5] ++
  [0x18, 0xDF, 0x44, 0x4F, 0x9B, 0xBC, 0x0F, 0x5C, 0x0B, 0xDC, 0xBD, 0x94, 0xAC, 0x09, 0xC7, 0xA2] ++
  [0x1C, 0x82, 0x9F, 0xC6, 0x34, 0xC2, 0x46, 0x05, 0xCE, 0x3B, 0x0D, 0x3C, 0x9C, 0x08, 0xBE, 0xB7] ++
  [0x87, 0xE5, 0xEE, 0x6B, 0xEB, 0xF2, 0xBF, 0xAF, 0xC5, 0x64, 0x07, 0x7B, 0x95, 0x9A, 0xAE, 0xB6] ++
  [0x12, 0x59, 0xA5, 0x35, 0x65, 0xB8, 0xA3, 0x9E, 0xD2, 0xF7, 0x62, 0x5A, 0x85, 0x7D, 0xA8, 0x3A] ++
  [0x29, 0x71, 0xC8, 0xF6, 0xF9, 0x43, 0xD7, 0xD6, 0x10, 0x73, 0x76, 0x78, 0x99, 0x0A, 0x19, 0x91] ++
  [0x14, 0x3F, 0xE6, 0xF0, 0x86, 0xB1, 0xE2, 0xF1, 0xFA, 0x74, 0xF3, 0xB4, 0x6D, 0x21, 0xB2, 0x6A] ++
  [0xE3, 0xE7, 0xB5, 0xEA, 0x03, 0x8F, 0xD3, 0xC9, 0x42, 0xD4, 0xE8, 0x75, 0x7F, 0xFF, 0x7E, 0xFD]

theorem inverses11D_ok :
    ((List.range 255).all fun n =>
      gmul 0x11D (BitVec.ofNat 8 (n + 1)) (inverses11D.getD (n + 1) 0) == 1) = true := by decide +kernel

/-- 0x11D is irreducible: every non-zero element has an inverse. -/
theorem irreducible_default : IrreduciblePoly 0x11D := by
  refine ⟨by decide, fun a b ha hb hab => ?_⟩
  have h : (0x11D : BitVec 9).getLsbD 8 = true := by decide
  have hg : gmul 0x11D a b = 0 := by
    rw [gmul, hab]
    decide +kernel
  have hinv := inverses11D_ok
  rw [List.all_eq_true] at hinv
  have := hinv (a.toNat - 1) (by have := a.isLt; simp; omega)
  have he : BitVec.ofNat 8 (a.toNat - 1 + 1) = a := by
    rw [show a.toNat - 1 + 1 = a.toNat by omega]
    simp
  rw [he] at this
  have h1 : gmul 0x11D a (inverses11D.getD (a.toNat - 1 + 1) 0) = 1 := by simpa using this
  have hb0 : b = 0 := by
    rw [← gmul_one_left 0x11D h b, ← h1, gmul_comm 0x11D a, gmul_assoc 0x11D h, hg]
    exact gmul_zero_right _ _
  rw [hb0] at hb
  simp at hb

end Sys2Proof.Machine
end

