-- ==== Sys2Proof/Laws/Blocks.lean ====
section
/-! SUPPORT. Reading and writing blocks of BUFMEM over runs of descriptors, and the coding loop (42_coding_loop.md
R180). -/

namespace Sys2Proof.Machine

/-- The memory after the block writes of `State.writeBlocks`. -/
def Memory.writeAll (s : State) (off : Nat) : Memory → List (Nat × List Byte) → Memory
  | m, [] => m
  | m, (k, b) :: rest => Memory.writeAll s off (m.writeBlock (s.base k + off) b) rest

/-- `State.writeBlocks` writes BUFMEM and nothing else. -/
theorem State.writeBlocks_setMem (off : Nat) (l : List (Nat × List Byte)) (s : State) (m : Memory) :
    State.writeBlocks off (s.setMem m) l = s.setMem (Memory.writeAll s off m l) := by
  induction l generalizing m with
  | nil => rfl
  | cons x rest ih =>
    obtain ⟨k, b⟩ := x
    simp only [State.writeBlocks, Memory.writeAll]
    rw [← ih]; rfl

/-- `State.writeBlocks` writes BUFMEM and nothing else. -/
theorem State.writeBlocks_eq (off : Nat) (l : List (Nat × List Byte)) (s : State) :
    State.writeBlocks off s l = s.setMem (Memory.writeAll s off s.mem l) := State.writeBlocks_setMem off l s s.mem

/-- An address outside every block reads as before. -/
theorem Memory.writeAll_frame (s : State) (off : Nat) (l : List (Nat × List Byte)) (m : Memory) (addr : Nat)
    (h : ∀ x ∈ l, ¬ InRange addr (s.base x.1 + off) x.2.length) : (Memory.writeAll s off m l).read addr = m.read addr := by
  induction l generalizing m with
  | nil => rfl
  | cons x rest ih =>
    obtain ⟨k, b⟩ := x
    simp only [Memory.writeAll]
    rw [ih _ (fun y hy => h y (List.mem_cons_of_mem _ hy)), Memory.read_writeBlock_outside]
    exact h (k, b) (List.mem_cons_self ..)

/-- Each byte of each block is read back, where no two blocks overlap. -/
theorem Memory.writeAll_read (s : State) (off : Nat) (l : List (Nat × List Byte)) (m : Memory) 
    (hp : l.Pairwise (fun x y => ¬ Overlaps (s.base x.1 + off) x.2.length (s.base y.1 + off) y.2.length)) :
    ∀ x ∈ l, ∀ j, j < x.2.length → (Memory.writeAll s off m l).read (s.base x.1 + off + j) = x.2[j]? := by
  induction l generalizing m with
  | nil => simp
  | cons y rest ih =>
    obtain ⟨k, b⟩ := y
    rw [List.pairwise_cons] at hp
    intro x hx j hj
    simp only [Memory.writeAll]
    rcases List.mem_cons.1 hx with rfl | hx
    · rw [Memory.writeAll_frame, Memory.read_writeBlock, if_pos (by simp only at *; omega)]
      · simp
      · intro y hy hr
        have := hp.1 y hy
        apply this
        simp only [InRange, Overlaps] at *
        omega
    · exact ih _ hp.2 x hx j hj

/-- Blocks of one length written over a run of descriptors: each is read back, and no other byte changes. -/
theorem Memory.writeAll_run (s : State) (off l ob n : Nat) (m : Memory) (blocks : List (List Byte)) (hn : blocks.length = n) (hl : ∀ b ∈ blocks, b.length = l)
    (hd : ¬ ∃ k j, InRange k ob n ∧ InRange j ob n ∧ k ≠ j ∧ Overlaps (s.base k + off) l (s.base j + off) l) :
    (∀ o j, o < n → j < l → (Memory.writeAll s off m ((List.range' ob n).zip blocks)).read (s.base (ob + o) + off + j) = (blocks.getD o [])[j]?) ∧
    ∀ addr, (∀ o, o < n → ¬ InRange addr (s.base (ob + o) + off) l) → (Memory.writeAll s off m ((List.range' ob n).zip blocks)).read addr = m.read addr := by
  have hll : ∀ i (hi : i < blocks.length), (blocks[i]).length = l := fun i hi => hl _ (List.getElem_mem hi)
  have hpw : ((List.range' ob n).zip blocks).Pairwise
        (fun x y => ¬ Overlaps (s.base x.1 + off) x.2.length (s.base y.1 + off) y.2.length) := by
      rw [List.pairwise_iff_getElem]
      intro i j hi hj hij
      simp only [List.length_zip, List.length_range'] at hi hj
      simp only [List.getElem_zip, List.getElem_range']
      rw [hll, hll]
      intro hov
      apply hd
      exact ⟨ob + 1 * i, ob + 1 * j, by simp [InRange]; omega, by simp [InRange]; omega, by omega, hov⟩
  constructor
  · intro o j ho hj
    have hmem : ((ob + o), blocks.getD o []) ∈ ((List.range' ob n).zip blocks) := by
        rw [List.mem_iff_getElem]
        refine ⟨o, by simp; omega, ?_⟩
        simp [hn, ho]
    have hlo : (blocks.getD o []).length = l := by
      have := hll o (by omega)
      simpa [hn, ho] using this
    exact Memory.writeAll_read s off _ _ hpw _ hmem j (by simp only [hlo]; exact hj)
  · intro addr ha
    apply Memory.writeAll_frame
    intro x hx
    rw [List.mem_iff_getElem] at hx
    obtain ⟨i, hi, rfl⟩ := hx
    simp only [List.length_zip, List.length_range'] at hi
    simp only [List.getElem_zip, List.getElem_range']
    rw [hll]
    have := ha i (by omega)
    simpa using this

/-- Reading blocks of written bytes gives them. -/
theorem State.readBlocks_ok (s : State) (off cnt : Nat) (ks : List Nat) (h : ∀ k ∈ ks, s.Written (s.base k + off) cnt) :
    s.readBlocks off cnt ks = .ok (ks.map fun k => (List.range cnt).map fun j => s.byteAt (s.base k + off + j)) := by
  induction ks with
  | nil => rfl
  | cons k rest ih =>
    simp only [State.readBlocks, State.readBlock_ok s _ _ (h k (List.mem_cons_self ..)), ih (fun k hk => h k (List.mem_cons_of_mem _ hk)), check_bind_ok, List.map_cons]

/-- Reading a block that is not all written faults on a byte of it that has no value. -/
theorem State.readBlock_bad (s : State) (addr n : Nat) (h : ¬ s.Written addr n) : ∃ a, s.readBlock addr n = .error (.fault (.unwrittenByte a)) ∧ s.mem.read a = none ∧ InRange a addr n := by
  induction n generalizing addr with
  | zero => exact absurd (fun j hj => by omega) h
  | succ n ih =>
    cases hb : s.mem.read addr with
    | none => exact ⟨addr, by simp [State.readBlock, State.readByte, hb], hb, by simp [InRange]⟩
    | some b =>
      have : ¬ s.Written (addr + 1) n := by
        intro hw; apply h; intro j hj
        rcases j with _ | j
        · simp [hb]
        · have := hw j (by omega); rwa [show addr + 1 + j = addr + (j+1) by omega] at this
      obtain ⟨a, ha, ha2, ha3⟩ := ih _ this
      exact ⟨a, by simp [State.readBlock, State.readByte, hb, ha], ha2, by simp [InRange] at *; omega⟩

/-- Reading blocks that are not all written faults on a byte of one that has no value. -/
theorem State.readBlocks_bad (s : State) (off cnt : Nat) (ks : List Nat) (h : ∃ k ∈ ks, ¬ s.Written (s.base k + off) cnt) :
    ∃ a, s.readBlocks off cnt ks = .error (.fault (.unwrittenByte a)) ∧ s.mem.read a = none ∧ ∃ k ∈ ks, InRange a (s.base k + off) cnt := by
  induction ks with
  | nil => simp at h
  | cons k rest ih =>
    by_cases hk : s.Written (s.base k + off) cnt
    · obtain ⟨a, h1, h2, k', h3, h4⟩ := ih (by
        obtain ⟨k', hk', h'⟩ := h
        rcases List.mem_cons.1 hk' with rfl | h2
        · exact absurd hk h'
        · exact ⟨k', h2, h'⟩)
      exact ⟨a, by simp [State.readBlocks, State.readBlock_ok s _ _ hk, h1], h2, k', List.mem_cons_of_mem _ h3, h4⟩
    · obtain ⟨a, h1, h2, h3⟩ := State.readBlock_bad s _ _ hk
      exact ⟨a, by simp [State.readBlocks, h1], h2, k, List.mem_cons_self .., h3⟩

/-- The coding loop over runs of descriptors (42_coding_loop.md R180): it answers, with every output byte the sum of
products and every other byte as before. -/
theorem State.codeLoop_ok (s : State) (rows : List (List Byte)) (ib ic ob oc off cnt : Nat) (hr : rows.length = oc)
    (hal : ¬ s.TouchedAlias ib ic ob oc off cnt)
    (hw : oc = 0 ∨ ∀ i, i < ic → s.Written (s.base (ib + i) + off) cnt) :
    ∃ m, s.codeLoop rows (List.range' ib ic) (List.range' ob oc) off cnt = .ok (s.setMem m) ∧
      (∀ o j, o < oc → j < cnt → m.read (s.base (ob + o) + off + j) =
        some (dot s.par.fieldPoly ic (fun i => (rows.getD o []).getD i 0) fun i => s.byteAt (s.base (ib + i) + off + j))) ∧
      ∀ addr, (∀ o, o < oc → ¬ InRange addr (s.base (ob + o) + off) cnt) → m.read addr = s.mem.read addr := by
  rcases Nat.eq_zero_or_pos oc with h0 | h0
  · subst h0
    refine ⟨s.mem, by simp [State.codeLoop, State.setMem], by omega, fun _ _ => rfl⟩
  · have hw' : ∀ i, i < ic → s.Written (s.base (ib + i) + off) cnt := by rcases hw with h | h <;> [omega; exact h]
    have hr1 := State.readBlocks_ok s off cnt (List.range' ib ic) (by
      intro k hk; rw [List.mem_range'_1] at hk
      have := hw' (k - ib) (by omega); rwa [show ib + (k - ib) = k by omega] at this)
    have hne : (List.range' ob oc).isEmpty = false := by
      cases oc <;> simp_all [List.range'_succ]
    rw [State.codeLoop, hne]
    simp only [Bool.false_eq_true, if_false, hr1, check_bind_ok, State.writeBlocks_eq]
    set blocks := (List.range' ib ic).map fun k => (List.range cnt).map fun j => s.byteAt (s.base k + off + j) with hbl
    have hlen : ∀ r, (codeRow s.par.fieldPoly blocks cnt r).length = cnt := by intro r; simp [codeRow]
    have hpw : ((List.range' ob oc).zip (rows.map (codeRow s.par.fieldPoly blocks cnt))).Pairwise
        (fun x y => ¬ Overlaps (s.base x.1 + off) x.2.length (s.base y.1 + off) y.2.length) := by
      rw [List.pairwise_iff_getElem]
      intro i j hi hj hij
      simp only [List.length_zip, List.length_range', List.length_map] at hi hj
      simp only [List.getElem_zip, List.getElem_range', List.getElem_map, hlen]
      intro hov
      apply hal
      left
      exact ⟨ob + 1 * i, ob + 1 * j, by simp [InRange]; omega, by simp [InRange]; omega, by omega, hov⟩
    refine ⟨_, rfl, ?_, ?_⟩
    · intro o j ho hj
      have hmem : ((ob + o), codeRow s.par.fieldPoly blocks cnt (rows.getD o [])) ∈ ((List.range' ob oc).zip (rows.map (codeRow s.par.fieldPoly blocks cnt))) := by
        rw [List.mem_iff_getElem]
        refine ⟨o, by simp; omega, ?_⟩
        simp [hr, ho]
      rw [Memory.writeAll_read s off _ _ hpw _ hmem j (by rw [hlen]; exact hj)]
      simp only [codeRow, List.getElem?_map]
      rw [List.getElem?_range hj]
      simp only [Option.map_some, dot]
      have hbl2 : blocks.length = ic := by simp [hbl]
      rw [hbl2]
      congr 1
      apply xorSum_congr
      intro i hi
      congr 1
      simp [hbl, hi, hj]
    · intro addr ha
      apply Memory.writeAll_frame
      intro x hx
      rw [List.mem_iff_getElem] at hx
      obtain ⟨i, hi, rfl⟩ := hx
      simp only [List.length_zip, List.length_range', List.length_map] at hi
      simp only [List.getElem_zip, List.getElem_range', List.getElem_map, hlen]
      have := ha i (by omega)
      simpa using this

/-- The coding loop faults on an input byte that has no value, when there is an output. -/
theorem State.codeLoop_bad (s : State) (rows : List (List Byte)) (ib ic ob oc off cnt : Nat) 
    (h0 : 0 < oc) (i : Nat) (hi : i < ic) (hw : ¬ s.Written (s.base (ib + i) + off) cnt) :
    ∃ a, s.codeLoop rows (List.range' ib ic) (List.range' ob oc) off cnt = .error (.fault (.unwrittenByte a)) ∧ s.mem.read a = none := by
  obtain ⟨a, h1, h2, -⟩ := State.readBlocks_bad s off cnt (List.range' ib ic) ⟨ib + i, by rw [List.mem_range'_1]; omega, hw⟩
  have hne : (List.range' ob oc).isEmpty = false := by
      cases oc <;> simp_all [List.range'_succ]
  exact ⟨a, by simp [State.codeLoop, hne, h1], h2⟩

/-- The tags of written raw descriptors (43_erasure_coder.md R211). -/
theorem State.readTags_ok (s : State) (ks : List Nat) (h : ∀ k ∈ ks, s.Written (s.base k) 1) :
    s.readTags ks = .ok (ks.map fun k => { desc := k, tag := s.tagOf k }) := by
  induction ks with
  | nil => rfl
  | cons k rest ih =>
    have h0 := h k (List.mem_cons_self ..) 0 (by omega)
    obtain ⟨b, hb⟩ := Option.isSome_iff_exists.1 h0
    rw [Nat.add_zero] at hb
    simp [State.readTags, State.readByte, hb, ih (fun k hk => h k (List.mem_cons_of_mem _ hk)), State.tagOf, State.byteAt]

/-- Reading a tag byte that has no value faults. -/
theorem State.readTags_bad (s : State) (ks : List Nat) (h : ∃ k ∈ ks, ¬ s.Written (s.base k) 1) :
    ∃ a, s.readTags ks = .error (.fault (.unwrittenByte a)) ∧ s.mem.read a = none := by
  induction ks with
  | nil => simp at h
  | cons k rest ih =>
    cases hb : s.mem.read (s.base k) with
    | none => exact ⟨s.base k, by simp [State.readTags, State.readByte, hb], hb⟩
    | some b =>
      obtain ⟨a, h1, h2⟩ := ih (by
        obtain ⟨k', hk', h'⟩ := h
        rcases List.mem_cons.1 hk' with rfl | h2
        · exact absurd (fun j hj => by obtain rfl : j = 0 := by omega
                                       simp [hb]) h'
        · exact ⟨k', h2, h'⟩)
      exact ⟨a, by simp [State.readTags, State.readByte, hb, h1], h2⟩

/-- Two members of a list are equal. -/
theorem hasDuplicate_iff (l : List Nat) : hasDuplicate l = true ↔ ¬ l.Nodup := by
  induction l with
  | nil => simp [hasDuplicate]
  | cons x rest ih => 
    simp only [hasDuplicate, Bool.or_eq_true, ih, List.contains_iff_mem, List.nodup_cons]
    tauto

end Sys2Proof.Machine
end

