-- ==== Sys2Proof/Laws/Host.lean ====
section
/-! SUPPORT. Everything a host access by the buffer port, and a host write to a descriptor, can do. -/

namespace Sys2Proof.Machine

theorem State.busy_of_idle {s : State} (h : s.run = .idle) : s.busy = false := by simp [State.busy, h]

/-- A read by the buffer port outside BUFMEM, IDLE or BUSY (20_memory.md R68). -/
theorem State.bufRead_outside {s : State} {addr : Nat} (h : s.par.bufBytes ≤ addr) :
    s.bufRead addr = .next { s with rdata := 0 } := by simp [State.bufRead, h]

/-- A write by the buffer port outside BUFMEM, IDLE or BUSY (20_memory.md R68). -/
theorem State.bufWrite_outside {s : State} {addr : Nat} (v : Byte) (h : s.par.bufBytes ≤ addr) :
    s.bufWrite addr v = .next s := by simp [State.bufWrite, h]

/-- Everything a read by the buffer port can do. -/
theorem State.bufRead_cases (s : State) (addr : Nat) :
    (s.par.bufBytes ≤ addr ∧ s.bufRead addr = .next { s with rdata := 0 }) ∨
    (addr < s.par.bufBytes ∧ s.busy = true ∧ s.bufRead addr = .fault .hostBufAccessWhileBusy) ∨
    (addr < s.par.bufBytes ∧ s.busy = false ∧
      ((∃ b, s.mem.read addr = some b ∧ s.bufRead addr = .next { s with rdata := b.zeroExtend 32 }) ∨
        (s.mem.read addr = none ∧ s.bufRead addr = .fault (.unwrittenByte addr)))) := by
  rcases Nat.lt_or_ge addr s.par.bufBytes with h | h
  · have hn : ¬ s.par.bufBytes ≤ addr := Nat.not_le.mpr h
    cases hb : s.busy with
    | true => exact .inr (.inl ⟨h, rfl, by simp [State.bufRead, hn, hb]⟩)
    | false =>
      refine .inr (.inr ⟨h, rfl, ?_⟩)
      cases hm : s.mem.read addr with
      | some b => exact .inl ⟨b, rfl, by simp [State.bufRead, hn, hb, hm, zext32]⟩
      | none => exact .inr ⟨rfl, by simp [State.bufRead, hn, hb, hm]⟩
  · exact .inl ⟨h, State.bufRead_outside h⟩

/-- Everything a write by the buffer port can do. -/
theorem State.bufWrite_cases (s : State) (addr : Nat) (v : Byte) :
    (s.par.bufBytes ≤ addr ∧ s.bufWrite addr v = .next s) ∨
    (addr < s.par.bufBytes ∧ s.busy = true ∧ s.bufWrite addr v = .fault .hostBufAccessWhileBusy) ∨
    (addr < s.par.bufBytes ∧ s.busy = false ∧ s.bufWrite addr v = .next (s.setMem (s.mem.write addr v))) := by
  rcases Nat.lt_or_ge addr s.par.bufBytes with h | h
  · have hn : ¬ s.par.bufBytes ≤ addr := Nat.not_le.mpr h
    cases hb : s.busy with
    | true => exact .inr (.inl ⟨h, rfl, by simp [State.bufWrite, hn, hb]⟩)
    | false => exact .inr (.inr ⟨h, rfl, by simp [State.bufWrite, hn, hb]⟩)
  · exact .inl ⟨h, State.bufWrite_outside v h⟩

/-- Everything a host write to a descriptor can do (44_control.md R244, 70_reset_and_hazards.md R301). -/
theorem State.writeDesc_cases (s : State) (k : Nat) (d : Desc) :
    (s.busy = true ∧ s.writeDesc k d = .fault .hostDescWriteWhileBusy) ∨
    (s.busy = false ∧ s.writeDesc k d = .next (s.setDesc k d)) := by
  cases hb : s.busy with
  | true => exact .inl ⟨rfl, by simp [State.writeDesc, hb]⟩
  | false => exact .inr ⟨rfl, by simp [State.writeDesc, hb]⟩

end Sys2Proof.Machine
end

