-- ==== Sys2Proof/Laws/PerInstr.lean ====
section
/-! SUPPORT. The fields of a command word, and for each command that its word carries its opcode, its reserved field 0
and its slot fields (30_encoding.md R91, R100). -/

namespace Sys2Proof

/-- Concatenation as arithmetic. -/
theorem toNat_concat {m n : Nat} (x : BitVec m) (y : BitVec n) : (x ++ y).toNat = x.toNat * 2 ^ n + y.toNat := by
  rw [BitVec.toNat_append, Nat.shiftLeft_eq, Nat.mul_comm, Nat.two_pow_add_eq_or_of_lt y.isLt]

/-- The command word as a number (30_encoding.md R91). -/
theorem toNat_commandWord (opc : Byte) (d a b : SlotField) :
    (commandWord opc d a b).toNat = opc.toNat + 2 ^ 8 * d.toNat + 2 ^ 12 * a.toNat + 2 ^ 16 * b.toNat := by
  have h : (commandWord opc d a b).toNat = ((0 : BitVec 12) ++ b ++ a ++ d ++ opc).toNat := rfl
  rw [h]
  simp only [toNat_concat]
  simp
  omega

@[simp] theorem opcField_commandWord (opc : Byte) (d a b : SlotField) : opcField (commandWord opc d a b) = opc := by
  apply BitVec.eq_of_toNat_eq
  simp only [opcField, BitVec.extractLsb'_toNat, toNat_commandWord, Nat.shiftRight_eq_div_pow]
  omega

@[simp] theorem mdField_commandWord (opc : Byte) (d a b : SlotField) : mdField (commandWord opc d a b) = d := by
  apply BitVec.eq_of_toNat_eq
  simp only [mdField, BitVec.extractLsb'_toNat, toNat_commandWord, Nat.shiftRight_eq_div_pow]
  omega

@[simp] theorem maField_commandWord (opc : Byte) (d a b : SlotField) : maField (commandWord opc d a b) = a := by
  apply BitVec.eq_of_toNat_eq
  simp only [maField, BitVec.extractLsb'_toNat, toNat_commandWord, Nat.shiftRight_eq_div_pow]
  omega

@[simp] theorem mbField_commandWord (opc : Byte) (d a b : SlotField) : mbField (commandWord opc d a b) = b := by
  apply BitVec.eq_of_toNat_eq
  simp only [mbField, BitVec.extractLsb'_toNat, toNat_commandWord, Nat.shiftRight_eq_div_pow]
  omega

@[simp] theorem rsvField_commandWord (opc : Byte) (d a b : SlotField) : rsvField (commandWord opc d a b) = 0 := by
  apply BitVec.eq_of_toNat_eq
  simp only [rsvField, BitVec.extractLsb'_toNat, toNat_commandWord, Nat.shiftRight_eq_div_pow]
  simp
  omega

end Sys2Proof

namespace Sys2Proof.Laws.EncodedFields

open Sys2Proof

/-- The word of a command carries its opcode, RSV = 0, and its slot fields and 0, in the order MD, MA, MB. -/
def Statement (i : Instr) : Prop :=
  opcField (encode i) = i.opcode ∧ rsvField (encode i) = 0 ∧
    [mdField (encode i), maField (encode i), mbField (encode i)].filter (· ≠ 0) = i.slotFields.filter (· ≠ 0)

theorem nop : Statement .nop := by
  refine ⟨by decide, by decide, by decide⟩

theorem fadd : Statement .fadd := by
  refine ⟨by decide, by decide, by decide⟩

theorem fmul : Statement .fmul := by
  refine ⟨by decide, by decide, by decide⟩

theorem fdiv : Statement .fdiv := by
  refine ⟨by decide, by decide, by decide⟩

theorem finv : Statement .finv := by
  refine ⟨by decide, by decide, by decide⟩

theorem fexp : Statement .fexp := by
  refine ⟨by decide, by decide, by decide⟩

theorem mcreate (d : SlotField) : Statement (.mcreate d) := by
  simp [Statement, Sys2Proof.encode, Instr.slotFields, List.filter_cons]

theorem mident (d : SlotField) : Statement (.mident d) := by
  simp [Statement, Sys2Proof.encode, Instr.slotFields, List.filter_cons]

theorem mvand (d : SlotField) : Statement (.mvand d) := by
  simp [Statement, Sys2Proof.encode, Instr.slotFields, List.filter_cons]

theorem mget (d : SlotField) : Statement (.mget d) := by
  simp [Statement, Sys2Proof.encode, Instr.slotFields, List.filter_cons]

theorem mset (d : SlotField) : Statement (.mset d) := by
  simp [Statement, Sys2Proof.encode, Instr.slotFields, List.filter_cons]

theorem mdim (d : SlotField) : Statement (.mdim d) := by
  simp [Statement, Sys2Proof.encode, Instr.slotFields, List.filter_cons]

theorem mgetrow (d : SlotField) : Statement (.mgetrow d) := by
  simp [Statement, Sys2Proof.encode, Instr.slotFields, List.filter_cons]

theorem msub (d a : SlotField) : Statement (.msub d a) := by
  simp [Statement, Sys2Proof.encode, Instr.slotFields, List.filter_cons]

theorem maug (d a b : SlotField) : Statement (.maug d a b) := by
  simp [Statement, Sys2Proof.encode, Instr.slotFields, List.filter_cons]

theorem mswap (d : SlotField) : Statement (.mswap d) := by
  simp [Statement, Sys2Proof.encode, Instr.slotFields, List.filter_cons]

theorem mtimes (d a b : SlotField) : Statement (.mtimes d a b) := by
  simp [Statement, Sys2Proof.encode, Instr.slotFields, List.filter_cons]

theorem mgauss (d : SlotField) : Statement (.mgauss d) := by
  simp [Statement, Sys2Proof.encode, Instr.slotFields, List.filter_cons]

theorem minv (d a : SlotField) : Statement (.minv d a) := by
  simp [Statement, Sys2Proof.encode, Instr.slotFields, List.filter_cons]

theorem code (d : SlotField) : Statement (.code d) := by
  simp [Statement, Sys2Proof.encode, Instr.slotFields, List.filter_cons]

theorem check (d : SlotField) : Statement (.check d) := by
  simp [Statement, Sys2Proof.encode, Instr.slotFields, List.filter_cons]

theorem config : Statement .config := by
  refine ⟨by decide, by decide, by decide⟩

theorem encode : Statement .encode := by
  refine ⟨by decide, by decide, by decide⟩

theorem decode : Statement .decode := by
  refine ⟨by decide, by decide, by decide⟩

theorem emget : Statement .emget := by
  refine ⟨by decide, by decide, by decide⟩

theorem emexport (d : SlotField) : Statement (.emexport d) := by
  simp [Statement, Sys2Proof.encode, Instr.slotFields, List.filter_cons]

end Sys2Proof.Laws.EncodedFields
end

