-- ==== Sys2Proof/Tests/Slice0.lean ====
section
/-! SUPPORT. Tests of the model against the spec (`test_…`: expected values from 95_test_vectors.md, 30_encoding.md and
the command rules) and, for each statement with hypotheses, a state and operands that meet them (`witness_…`). -/

namespace Sys2Proof.Tests

set_option Elab.async false

open Sys2Proof.Machine

/-! ### Small states -/

/-- `s` with a command in flight: the word and the snapshot (missing arguments are 0). -/
def flight (s : State) (w : Word) (args : List Word) : State :=
  { s with run := .busy { word := w, args := Vector.ofFn fun i => args.getD i 0 } }

/-- A fact about the next state, if there is one. -/
def after {α : Type} (o : Host.Outcome State Fault Refusal) (f : State → α) : Option α :=
  match o with
  | .next t => some (f t)
  | .fault _ => none
  | .refused _ => none

/-- ERR_CODE, ERR_INFO and the result registers after a command. -/
def report (s : State) (w : Word) (args : List Word) : Option (List Word) :=
  after (step (flight s w args)) fun t => [t.errCode, t.errInfo, t.result0, t.result1]

/-- ERR_CODE after a command. -/
def code (s : State) (w : Word) (args : List Word) : Option Word := after (step (flight s w args)) State.errCode

/-- A slot after a command. -/
def slotAfter (s : State) (w : Word) (args : List Word) (m : SlotField) : Option Matrix :=
  after (step (flight s w args)) fun t => t.slot m

/-- The bytes at some addresses after a command. -/
def bytesAfter (s : State) (w : Word) (args : List Word) (addrs : List Nat) : Option (List (Option Byte)) :=
  after (step (flight s w args)) fun t => addrs.map t.mem.read

/-- `s` with the given slots, in order from m0. -/
def withSlots (l : List Matrix) : State :=
  (l.zipIdx).foldl (fun s x => s.setSlot (BitVec.ofNat 4 x.2) x.1) State.reset

/-- `s` with the given descriptors (index, BASE, LEN) and blocks of bytes. -/
def withBuffers (s : State) (ds : List (Nat × Nat × Nat)) (blocks : List (Nat × List Byte)) : State :=
  let t := ds.foldl (fun s x => s.setDesc x.1 { base := BitVec.ofNat 32 x.2.1, len := BitVec.ofNat 32 x.2.2 }) s
  blocks.foldl (fun s x => s.writeBlock x.1 x.2) t

/-- V(5, 3) (95_test_vectors.md L2.3). -/
def v53 : Matrix := { rows := 5, cols := 3, e := [[1, 0, 0], [1, 1, 1], [1, 2, 4], [1, 3, 5], [1, 4, 0x10]] }

/-- [[01, 02], [03, 04]] (L2.4). -/
def m1234 : Matrix := { rows := 2, cols := 2, e := [[1, 2], [3, 4]] }

/-- The inverse of `m1234` under 0x11D (L2.4). -/
def m1234inv : Matrix := { rows := 2, cols := 2, e := [[2, 1], [0x8F, 0x8E]] }

/-- The coder after `CONFIG ; 3, 2` under 0x11D (L1.3). -/
def coder32 : Coder :=
  { d := 3
    p := 2
    em := { rows := 5, cols := 3, e := [[1, 0, 0], [0, 1, 0], [0, 0, 1], [1, 1, 1], [0x0F, 8, 6]] }
    pr := { rows := 2, cols := 3, e := [[1, 1, 1], [0x0F, 8, 6]] } }

/-- Configured with (3, 2), the shards of L2.7 in descriptors 0 to 4, parity filled with EE. -/
def encodeState : State :=
  withBuffers { State.reset with coder := some coder32 }
    [(0, 0x100, 2), (1, 0x110, 2), (2, 0x120, 2), (3, 0x130, 2), (4, 0x140, 2)]
    [(0x100, [1, 2]), (0x110, [3, 4]), (0x120, [5, 6]), (0x130, [0xEE, 0xEE]), (0x140, [0xEE, 0xEE])]

/-- The shards of L2.8. -/
def shards32 : List (List Byte) := [[1, 2], [3, 4], [5, 6], [7, 0], [9, 0x2A]]

/-- The start of L2.8: raw descriptors 20, 21, … with the given tags (none is absent), outputs 30 to 34. -/
def decodeState (raw : List (Option Nat)) : State :=
  let outs := (List.range 5).map fun t => (30 + t, 0x600 + 0x10 * t, 2)
  let ins := raw.zipIdx.map fun x => (20 + x.2, 0x400 + 0x10 * x.2, if x.1.isSome then 3 else 0)
  let data := raw.zipIdx.filterMap fun x =>
    x.1.map fun t => (0x400 + 0x10 * x.2, BitVec.ofNat 8 t :: shards32.getD t [0, 0])
  withBuffers { State.reset with coder := some coder32 } (outs ++ ins)
    (data ++ (List.range 5).map fun t => (0x600 + 0x10 * t, [0xEE, 0xEE]))

/-- The outputs of L2.8. -/
def outputs : List Nat := [0x600, 0x601, 0x610, 0x611, 0x620, 0x621, 0x630, 0x631, 0x640, 0x641]

/-! ### Well-formedness and decoding -/

theorem test_wellFormed_md : (Instr.mcreate 7).wellFormed = true ∧ (Instr.mcreate 8).wellFormed = false := by decide
theorem test_wellFormed_ma : (Instr.msub 7 7).wellFormed = true ∧ (Instr.msub 7 8).wellFormed = false := by decide
theorem test_wellFormed_mb : (Instr.maug 0 7 7).wellFormed = true ∧ (Instr.maug 0 7 15).wellFormed = false := by decide

/-- Words written from 30_encoding.md R91 and R100: `RSV[11:0] MB MA MD OPC[7:0]`, bit 31 first. -/
theorem test_decode_control_field_loop :
    ([(0b00000000000000000000000000000000, .nop), (0b00000000000000000000000000000001, .fadd),
      (0b00000000000000000000000000000010, .fmul), (0b00000000000000000000000000000011, .fdiv),
      (0b00000000000000000000000000000100, .finv), (0b00000000000000000000000000000101, .fexp),
      (0b00000000000000000110000000100000, .code 6), (0b00000000000000001001000000100001, .check 9),
      (0b00000000000000000000000000110000, .config), (0b00000000000000000000000000110001, .encode),
      (0b00000000000000000000000000110010, .decode), (0b00000000000000000000000000110011, .emget),
      (0b00000000000000000000010100110100, .emexport 5)] : List (Nat × Instr)).all
      (fun x => decodeTableWord 32 x.1 == some x.2 && encode x.2 == BitVec.ofNat 32 x.1) = true := by decide

/-- The same for the matrix commands. -/
theorem test_decode_matrix :
    ([(0b00000000000000000000001100010000, .mcreate 3), (0b00000000000000000000010100010001, .mident 5),
      (0b00000000000000000000011000010010, .mvand 6), (0b00000000000000000111000000010011, .mget 7),
      (0b00000000000000000000101000010100, .mset 10), (0b00000000000000000001000000010101, .mdim 1),
      (0b00000000000000000010000000010110, .mgetrow 2), (0b00000000000000000010000100010111, .msub 1 2),
      (0b00000000000001000010000100011000, .maug 1 2 4), (0b00000000000000000000010000011001, .mswap 4),
      (0b00000000000000010000001000011010, .mtimes 2 0 1), (0b00000000000000000000000100011011, .mgauss 1),
      (0b00000000000000000000000100011100, .minv 1 0)] : List (Nat × Instr)).all
      (fun x => decodeTableWord 32 x.1 == some x.2 && encode x.2 == BitVec.ofNat 32 x.1) = true := by decide

/-- 95_test_vectors.md L2.9: every check of 30_encoding.md R97, and the slot numbers 7 and 8 on either side of NMAT. -/
theorem test_decoding_checks :
    ([0x00000000, 0x00000006, 0x0000000F, 0x00000022, 0x00000035, 0x000000FF, 0x000001FF, 0x00100000, 0x80000001,
      0x00F00034, 0x00000100, 0x00001001, 0x00010002, 0x00001010, 0x0000F014, 0x00000115, 0x00007015, 0x00008015,
      0x00080018, 0x0009211A] : List Word).map (fun w => code State.reset w []) =
    ([0x00000000, 0x00060107, 0x000F0107, 0x00220107, 0x00350107, 0x00FF0107, 0x00FF0107, 0x00000207, 0x00010207,
      0x00340207, 0x00000307, 0x00010307, 0x00020307, 0x00100307, 0x00140307, 0x00150307, 0x00150000, 0x00150102,
      0x00180102, 0x001A0102] : List Word).map some := by decide +kernel

/-! ### Field commands (95_test_vectors.md L2.1) -/

theorem test_nop : report { State.reset with err := true } 0 [] = some [0, 0, 0, 0] ∧
    after (step (flight { State.reset with err := true } 0 [])) State.statusWord = some 0x06 := by decide +kernel

theorem test_fadd :
    [[0x57, 0x83], [0xFF, 0xFF], [0, 0xFF], [256, 1], [0xFFFFFFFF, 0], [0, 256], [0, 0xFFFFFFFF]].map
      (report State.reset 1) =
    [some [0x00010000, 0, 0xD4, 0], some [0x00010000, 0, 0, 0], some [0x00010000, 0, 0xFF, 0],
      some [0x00010702, 0, 0, 0], some [0x00010702, 0, 0, 0], some [0x00010702, 0, 0, 0],
      some [0x00010702, 0, 0, 0]] := by decide +kernel

theorem test_fmul :
    [[2, 3], [7, 0x0B], [0, 0x55], [2, 0x80], [0x80, 0x80], [0xFF, 0xFF], [0x53, 0xCA], [0x57, 0x83], [300, 1],
      [1, 0xFFFFFFFB]].map (report State.reset 2) =
    [some [0x00020000, 0, 0x06, 0], some [0x00020000, 0, 0x31, 0], some [0x00020000, 0, 0, 0],
      some [0x00020000, 0, 0x1D, 0], some [0x00020000, 0, 0x13, 0], some [0x00020000, 0, 0xE2, 0],
      some [0x00020000, 0, 0x8F, 0], some [0x00020000, 0, 0x31, 0], some [0x00020702, 0, 0, 0],
      some [0x00020702, 0, 0, 0]] := by decide +kernel

theorem test_fdiv :
    [[6, 3], [0x1D, 0x80], [0, 7], [5, 0], [0, 0], [300, 0], [0, 256]].map (report State.reset 3) =
    [some [0x00030000, 0, 2, 0], some [0x00030000, 0, 2, 0], some [0x00030000, 0, 0, 0],
      some [0x00030105, 0, 0, 0], some [0x00030205, 0, 0, 0], some [0x00030702, 0, 0, 0],
      some [0x00030702, 0, 0, 0]] := by decide +kernel

theorem test_finv :
    [[1], [0x80], [0x8E], [0], [256], [0xFFFFFFFF]].map (report State.reset 4) =
    [some [0x00040000, 0, 1, 0], some [0x00040000, 0, 0x1B, 0], some [0x00040000, 0, 2, 0],
      some [0x00040105, 0, 0, 0], some [0x00040702, 0, 0, 0], some [0x00040702, 0, 0, 0]] := by decide +kernel

theorem test_fexp :
    [[0, 0], [0, 1], [3, 2], [2, 255], [2, 256], [0xC4, 3], [5, 0x7FFFFFFF], [2, 0xFFFFFFFF], [256, 0xFFFFFFFF]].map
      (report State.reset 5) =
    [some [0x00050000, 0, 1, 0], some [0x00050000, 0, 0, 0], some [0x00050000, 0, 5, 0],
      some [0x00050000, 0, 1, 0], some [0x00050000, 0, 2, 0], some [0x00050000, 0, 0x35, 0],
      some [0x00050000, 0, 0xF4, 0], some [0x00050802, 0, 0, 0], some [0x00050702, 0, 0, 0]] := by decide +kernel

/-! ### Matrix commands (95_test_vectors.md L2.3, L2.4) -/

theorem test_mcreate_limits :
    [[0, 1], [1, 0], [257, 1], [1, 513], [2, 3]].map (code State.reset 0x110) =
    [some 0x00100402, some 0x00100402, some 0x00100402, some 0x00100402, some 0x00100000] := by decide +kernel

theorem test_mcreate : slotAfter State.reset 0x110 [2, 3] 1 =
    some { rows := 2, cols := 3, e := [[0, 0, 0], [0, 0, 0]] } := by decide +kernel

theorem test_mident : slotAfter State.reset 0x211 [3] 2 =
      some { rows := 3, cols := 3, e := [[1, 0, 0], [0, 1, 0], [0, 0, 1]] } ∧
    [[0], [257]].map (code State.reset 0x211) = [some 0x00110402, some 0x00110402] := by decide +kernel

theorem test_mvand : slotAfter State.reset 0x312 [5, 3] 3 = some v53 ∧
    [[257, 4], [4, 513], [0, 1]].map (code State.reset 0x412) =
      [some 0x00120402, some 0x00120402, some 0x00120402] := by decide +kernel

theorem test_mget :
    [[4, 2], [5, 0], [0, 3], [0xFFFFFFFF, 0], [0, 0xFFFFFFFF]].map (report (withSlots [v53]) 0x0013) =
      [some [0x00130000, 0, 0x10, 0], some [0x00130302, 0, 0, 0], some [0x00130302, 0, 0, 0],
        some [0x00130302, 0, 0, 0], some [0x00130302, 0, 0, 0]] ∧
    code State.reset 0x13 [0, 0] = some 0x00130202 := by decide +kernel

theorem test_mset_values :
    slotAfter (withSlots [m1234]) 0x14 [0, 1, 0xFFFFFFFF] 0 = some { rows := 2, cols := 2, e := [[1, 0xFF], [3, 4]] } ∧
    slotAfter (withSlots [m1234]) 0x14 [1, 0, 0xFFFFFF00] 0 = some { rows := 2, cols := 2, e := [[1, 2], [0, 4]] } ∧
    slotAfter (withSlots [m1234]) 0x14 [1, 1, 255] 0 = some { rows := 2, cols := 2, e := [[1, 2], [3, 0xFF]] } := by
  decide +kernel

theorem test_mset_checks :
    [[2, 0, 5], [0, 2, 999], [0, 0, 256], [0, 0, 0xFFFFFEFF]].map (code (withSlots [m1234]) 0x14) =
      [some 0x00140302, some 0x00140302, some 0x00140702, some 0x00140702] ∧
    code State.reset 0x14 [0, 0, 999] = some 0x00140202 := by decide +kernel

theorem test_mdim : report State.reset 0x15 [] = some [0x00150000, 0, 0, 0] ∧
    report (withSlots [m1234, v53]) 0x1015 [] = some [0x00150000, 0, 5, 3] := by decide +kernel

/-- The buffers of L2.3's MGETROW table. -/
def rowState : State :=
  withBuffers (withSlots [m1234, m1234, m1234, v53]) [(0, 0x100, 3), (1, 0x200, 2), (2, 0xFFFFE, 3), (1023, 0xFFFFD, 3)] []

theorem test_mgetrow : bytesAfter rowState 0x3016 [4, 0] [0xFF, 0x100, 0x101, 0x102, 0x103] =
      some [none, some 1, some 4, some 0x10, none] ∧
    bytesAfter rowState 0x3016 [2, 1023] [0xFFFFC, 0xFFFFD, 0xFFFFE, 0xFFFFF] =
      some [none, some 1, some 2, some 4] := by decide +kernel

theorem test_mgetrow_checks :
    [[4, 1], [5, 0], [0xFFFFFFFF, 0], [0, 1024], [0, 0xFFFFFFFF], [0, 2]].map (code rowState 0x3016) =
      [some 0x00160B02, some 0x00160302, some 0x00160302, some 0x00160A02, some 0x00160A02, some 0x00160B02] ∧
    code rowState 0x4016 [0, 0] = some 0x00160202 := by decide +kernel

theorem test_msub : slotAfter (withSlots [v53]) 0x117 [3, 1, 5, 3] 1 =
    some { rows := 2, cols := 2, e := [[3, 5], [4, 0x10]] } := by decide +kernel

theorem test_msub_checks :
    [[1, 1, 1, 3], [0, 0, 6, 3], [0, 0, 5, 4], [0xFFFFFFFF, 0, 2, 2], [0, 2, 1, 2], [0, 0, 5, 3]].map
      (code (withSlots [v53]) 0x117) =
      [some 0x00170302, some 0x00170302, some 0x00170302, some 0x00170302, some 0x00170302, some 0x00170000] ∧
    code (withSlots [v53]) 0x1117 [0, 0, 1, 1] = some 0x00170202 := by decide +kernel

theorem test_maug : slotAfter (withSlots [m1234, m1234inv]) 0x10218 [] 2 =
    some { rows := 2, cols := 4, e := [[1, 2, 2, 1], [3, 4, 0x8F, 0x8E]] } := by decide +kernel

theorem test_maug_checks :
    code (withSlots [v53, m1234]) 0x10018 [] = some 0x00180502 ∧
    code (withSlots [v53]) 0x10018 [] = some 0x00180202 ∧ code (withSlots [v53]) 0x01018 [] = some 0x00180202 ∧
    code (withSlots [{ rows := 1, cols := 300, e := [] }]) 0x00018 [] = some 0x00180402 := by decide +kernel

theorem test_mswap : slotAfter (withSlots [m1234]) 0x19 [0, 1] 0 = some { rows := 2, cols := 2, e := [[3, 4], [1, 2]] } ∧
    slotAfter (withSlots [m1234]) 0x19 [1, 1] 0 = some m1234 := by decide +kernel

theorem test_mswap_checks :
    [[0, 2], [2, 0], [0xFFFFFFFF, 0], [0, 0xFFFFFFFF]].map (code (withSlots [m1234]) 0x19) =
      [some 0x00190302, some 0x00190302, some 0x00190302, some 0x00190302] ∧
    code State.reset 0x19 [0, 0] = some 0x00190202 := by decide +kernel

/-- L2.3: a destination that is also both sources. -/
theorem test_mtimes : slotAfter (withSlots [v53, m1234inv]) 0x1111A [] 1 =
      some { rows := 2, cols := 2, e := [[0x8B, 0x8C], [0xCA, 0xC8]] } ∧
    slotAfter (withSlots [v53, m1234inv, m1234]) 0x1231A [] 3 = some { rows := 2, cols := 2, e := [[1, 0], [0, 1]] } := by
  decide +kernel

theorem test_mtimes_checks :
    code (withSlots [v53]) 0x0001A [] = some 0x001A0502 ∧ code (withSlots [v53]) 0x1001A [] = some 0x001A0202 ∧
    code (withSlots [v53]) 0x0101A [] = some 0x001A0202 := by decide +kernel

/-- L2.4: a pivot row exchange, a diagonal entry scaled. -/
theorem test_mgauss : slotAfter (withSlots [{ rows := 2, cols := 4, e := [[0, 3, 1, 0], [5, 7, 0, 1]] }]) 0x1B [] 0 =
    some { rows := 2, cols := 4, e := [[1, 0, 0xC5, 0xA7], [0, 1, 0xF4, 0]] } := by decide +kernel

theorem test_mgauss_checks :
    report (withSlots [{ rows := 2, cols := 2, e := [[1, 0], [0, 0]] }]) 0x1B [] = some [0x001B0103, 1, 0, 0] ∧
    (slotAfter (withSlots [{ rows := 2, cols := 2, e := [[1, 0], [0, 0]] }]) 0x1B [] 0).map
      (fun a => (a.rows, a.cols, a.e.map List.length)) = some (2, 2, [2, 2]) ∧
    code (withSlots [v53]) 0x1B [] = some 0x001B0502 ∧ code State.reset 0x1B [] = some 0x001B0202 := by decide +kernel

theorem test_minv : slotAfter (withSlots [m1234]) 0x11C [] 1 = some m1234inv := by decide +kernel

theorem test_minv_checks :
    report (withSlots [{ rows := 2, cols := 2, e := [[1, 2], [2, 4]] }, m1234]) 0x11C [] = some [0x001C0103, 1, 0, 0] ∧
    slotAfter (withSlots [{ rows := 2, cols := 2, e := [[1, 2], [2, 4]] }, m1234]) 0x11C [] 1 = some m1234 ∧
    report (withSlots [{ rows := 1, cols := 1, e := [[0]] }]) 0x11C [] = some [0x001C0103, 0, 0, 0] ∧
    code (withSlots [v53]) 0x11C [] = some 0x001C0602 ∧ code State.reset 0x11C [] = some 0x001C0202 := by
  decide +kernel

/-! ### Coding loop (95_test_vectors.md L2.5; 42_coding_loop.md R181's example) -/

/-- R181's example: the parity rows of EM(3, 2) in m3, inputs in descriptors 10 to 12, outputs in 20 and 21. -/
def codeState : State :=
  withBuffers (withSlots [m1234, m1234, m1234, { rows := 2, cols := 3, e := [[1, 1, 1], [0x0F, 8, 6]] }])
    [(10, 0x100, 2), (11, 0x110, 2), (12, 0x120, 2), (20, 0x200, 2), (21, 0x210, 2), (22, 0x201, 2), (23, 0xFFFFF, 2)]
    [(0x100, [1, 2]), (0x110, [3, 4]), (0x120, [5, 6]), (0x200, [0xEE, 0xEE, 0xEE]), (0x210, [0xEE, 0xEE])]

theorem test_code :
    bytesAfter codeState 0x3020 [0, 10, 3, 20, 2, 0, 2] [0x200, 0x201, 0x210, 0x211] =
      some [some 7, some 0, some 9, some 0x2A] ∧
    bytesAfter codeState 0x3020 [0, 10, 3, 20, 2, 1, 1] [0x200, 0x201, 0x210, 0x211] =
      some [some 0xEE, some 0, some 0xEE, some 0x2A] ∧
    bytesAfter codeState 0x3020 [2, 10, 3, 20, 0, 2, 0] [0x200, 0x201] = some [some 0xEE, some 0xEE] := by
  decide +kernel

theorem test_code_checks :
    [[0, 10, 0, 20, 2, 0, 2], [0, 10, 4, 20, 2, 0, 2], [0, 10, 3, 20, 0xFFFFFFFF, 0, 2], [1, 10, 3, 20, 2, 0, 2],
      [0xFFFFFFFF, 10, 3, 20, 2, 0, 2], [0, 10, 3, 20, 2, 0xFFFFFFFF, 2], [0, 10, 3, 20, 2, 0, 0xFFFFFFFF],
      [0, 1022, 3, 20, 2, 0, 2], [0, 10, 3, 1023, 2, 0, 2], [0, 10, 3, 23, 1, 0, 0], [0, 10, 3, 20, 2, 1, 2],
      [0, 10, 3, 12, 1, 0, 2], [0, 10, 3, 21, 2, 0, 2]].map (code codeState 0x3020) =
    [some 0x00200902, some 0x00200902, some 0x00200902, some 0x00200302, some 0x00200302, some 0x00200802,
      some 0x00200802, some 0x00200A02, some 0x00200A02, some 0x00200B02, some 0x00200B02, some 0x00200E02,
      some 0x00200000] ∧
    code codeState 0x3020 [0, 10, 3, 20, 1, 0, 2] = some 0x00200000 ∧
    code (withBuffers codeState [(21, 0x201, 2)] []) 0x3020 [0, 10, 3, 20, 2, 0, 2] = some 0x00200E02 ∧
    code codeState 0x4020 [0, 10, 3, 20, 2, 0, 2] = some 0x00200202 := by decide +kernel

theorem test_check :
    report State.reset 0x21 [1, 2, 3] = some [0x00210106, 0, 0, 0] ∧ code State.reset 0x9021 [] = some 0x00210102 := by
  decide +kernel

/-! ### The coder (95_test_vectors.md L1.3, L1.7, L2.6 to L2.8) -/

theorem test_config : after (step (flight State.reset 0x30 [3, 2])) State.coder = some (some coder32) := by
  decide +kernel

theorem test_config_checks :
    [[0, 3], [0xFFFFFFFB, 300], [3, 0xFFFFFFFF], [1, 256], [256, 1], [257, 0]].map (code State.reset 0x30) =
      [some 0x00300101, some 0x00300101, some 0x00300201, some 0x00300301, some 0x00300301, some 0x00300301] := by
  decide +kernel

theorem test_encode :
    bytesAfter encodeState 0x31 [0, 5, 0, 2] [0x130, 0x131, 0x140, 0x141] = some [some 7, some 0, some 9, some 0x2A] ∧
    bytesAfter encodeState 0x31 [0, 5, 1, 1] [0x130, 0x131, 0x140, 0x141] =
      some [some 0xEE, some 0, some 0xEE, some 0x2A] := by decide +kernel

theorem test_encode_checks :
    [[0, 4, 0, 2], [0, 5, 0xFFFFFFFF, 2], [1020, 5, 0, 2], [0xFFFFFFFF, 5, 0, 2], [0, 5, 1, 2], [0, 5, 2, 0]].map
      (code encodeState 0x31) =
      [some 0x00310C02, some 0x00310802, some 0x00310A02, some 0x00310A02, some 0x00310B02, some 0x00310000] ∧
    [(4, 0x140, 3), (4, 0x131, 2), (4, 0x101, 2), (4, 0xFFFFF, 2)].map
        (fun d => code (withBuffers encodeState [d] []) 0x31 [0, 5, 0, 2]) =
      [some 0x00310D02, some 0x00310E02, some 0x00310E02, some 0x00310B02] ∧
    code State.reset 0x31 [0, 5, 0, 2] = some 0x00310401 := by decide +kernel

theorem test_decode_general :
    bytesAfter (decodeState [some 0, none, some 2, none, some 4]) 0x32 [20, 5, 30, 0, 2] outputs =
      some ([1, 2, 3, 4, 5, 6, 7, 0, 9, 0x2A].map some) ∧
    report (decodeState [some 0, some 2, some 4]) 0x32 [20, 3, 30, 1, 1] = some [0x00320000, 0, 3, 0] ∧
    bytesAfter (decodeState [some 0, some 2, some 4]) 0x32 [20, 3, 30, 1, 1] outputs =
      some ([1, 2, 0, 4, 5, 6, 0, 0, 9, 0x2A].map some) := by decide +kernel

theorem test_decode_fast :
    report (decodeState [some 3, some 0, some 1, some 4, some 2]) 0x32 [20, 5, 30, 0, 2] = some [0x00320000, 0, 3, 1] ∧
    bytesAfter (decodeState [some 3, some 0, some 1, some 4, some 2]) 0x32 [20, 5, 30, 0, 2] outputs =
      some ([1, 2, 3, 4, 5, 6, 0xEE, 0xEE, 0xEE, 0xEE].map some) ∧
    report (decodeState [some 1, some 0, some 2, some 3, some 4]) 0x32 [20, 5, 30, 0, 2] =
      some [0x00321002, 0, 0, 0] := by decide +kernel

theorem test_decode_checks :
    [[20, 6, 30, 0, 2], [20, 0xFFFFFFFF, 30, 0, 2], [20, 3, 30, 0, 0xFFFFFFFE], [20, 3, 1020, 0, 2], [1022, 3, 30, 0, 2],
      [20, 0, 30, 0, 2], [20, 2, 30, 0, 2], [20, 3, 30, 1, 2]].map (report (decodeState [some 0, some 2, some 4]) 0x32) =
      [some [0x00320902, 0, 0, 0], some [0x00320902, 0, 0, 0], some [0x00320802, 0, 0, 0], some [0x00320A02, 0, 0, 0],
        some [0x00320A02, 0, 0, 0], some [0x00320004, 0, 0, 0], some [0x00320004, 2, 0, 0], some [0x00320B02, 0, 0, 0]] ∧
    [some 5, some 2].map (fun t => code (decodeState [some 0, some 2, t]) 0x32 [20, 3, 30, 0, 2]) =
      [some 0x00320F02, some 0x00320F02] ∧
    [(22, 0x420, 4), (31, 0x610, 1), (31, 0x601, 2), (31, 0x411, 2), (34, 0xFFFFF, 2)].map
        (fun d => code (withBuffers (decodeState [some 0, some 2, some 4]) [d] [(0x423, [0])]) 0x32 [20, 3, 30, 0, 2]) =
      [some 0x00320D02, some 0x00320B02, some 0x00320E02, some 0x00320E02, some 0x00320B02] ∧
    code State.reset 0x32 [0, 5, 10, 0, 2] = some 0x00320401 := by decide +kernel

theorem test_emget :
    [[0, 0], [4, 0], [4, 2], [5, 0], [0, 3], [0xFFFFFFFF, 0], [0, 0xFFFFFFFF]].map (report encodeState 0x33) =
      [some [0x00330000, 0, 1, 0], some [0x00330000, 0, 0x0F, 0], some [0x00330000, 0, 6, 0],
        some [0x00330302, 0, 0, 0], some [0x00330302, 0, 0, 0], some [0x00330302, 0, 0, 0],
        some [0x00330302, 0, 0, 0]] ∧
    code State.reset 0x33 [0, 0] = some 0x00330401 := by decide +kernel

theorem test_emexport : slotAfter encodeState 0x734 [] 7 = some coder32.em ∧
    code State.reset 0x34 [] = some 0x00340401 ∧ code encodeState 0x834 [] = some 0x00340102 := by decide +kernel

/-! ### The host (95_test_vectors.md L2.2, L2.10, L2.11) -/

theorem test_host_reads :
    [0x00000, 0x00004, 0x00008, 0x0000C, 0x00010, 0x00030, 0x00034, 0x00038, 0x0003C, 0x0005C, 0x00060, 0x00FFC, 0x01000,
      0x10004, 0x10200, 0x10204, 0x18000, 0x1FFFC].map State.reset.readOffset =
    [0x52534345, 0x00000001, 0, 0, 0, 8, 0x400, 0x00100000, 0x0000011D, 0, 0, 0, 0,
      0x00000000, 0x06040200, 0x0E0C0A08, 0x9D1D8000, 0xE21D01FE] := by decide +kernel

/-- The steps of a list of inputs, and then one more step for each `true` of `moves`. -/
def runAll (s : State) (xs : List Input) : State :=
  xs.foldl (fun s x => match applyInput x s with
    | .next t => t
    | .fault _ => s
    | .refused _ => s) s

/-- A host write by byte offset. -/
def wr (offset : Nat) (v : Word) : Input := .mmioWrite (BitVec.ofNat 15 (offset / 4)) v

/-- L2.10: the ARG snapshot, the overrun, the deferred soft reset. -/
theorem test_interleavings :
    [[wr 0x40 2, wr 0x44 3, wr 0x10 2, wr 0x40 5, .engine], [wr 0x10 1, wr 0x10 2, .engine],
        [wr 0x40 1, wr 0x44 0, wr 0x10 0x30, wr 0x08 2, .engine]].map
      (fun xs => [0x0C, 0x14, 0x1C, 0x40, 0x2C].map (runAll State.reset xs).readOffset) =
    [[0x02, 0x00020000, 0x06, 5, 0], [0x12, 0x00010000, 0, 0, 0], [0, 0, 0, 0, 0]] := by decide +kernel

/-- L2.10's status and interrupt sequence. -/
theorem test_status_and_interrupt :
    let t1 := runAll State.reset [wr 0x10 6, .engine]
    let t2 := runAll t1 [wr 0x0C 4]
    let t3 := runAll t2 [wr 0x0C 0x16, wr 0x08 1]
    let t4 := runAll t3 [wr 0x40 2, wr 0x44 0x80, wr 0x10 2, .engine]
    let t5 := runAll t4 [wr 0x0C 2, wr 0x00 0x12345678, wr 0x44 77, wr 0x1028 0x100, wr 0x102C 9]
    let t6 := runAll t5 [wr 0x08 3]
    [t1, t2, t3, t4, t5, t6].map (fun t => (t.statusWord, t.irq)) =
      [(0x06, false), (0x02, false), (0, false), (0x02, true), (0, false), (0, false)] ∧
    t4.result0 = 0x1D ∧ t5.readOffset 0 = 0x52534345 ∧ t5.desc 5 = { base := 0x100, len := 9 } ∧
    [0x08, 0x44, 0x1028, 0x102C].map t6.readOffset = [0, 0, 0, 0] := by decide +kernel

/-! ### Witnesses: states and operands that meet the hypotheses of the statements -/

theorem next_of_after {α : Type} {o : Host.Outcome State Fault Refusal} {f : State → α} (h : (after o f).isSome = true) :
    ∃ t, o = .next t := by
  cases o with
  | next t => exact ⟨t, rfl⟩
  | fault _ => simp [after] at h
  | refused _ => simp [after] at h

/-- The fault an instruction or a step ends in, if it does. -/
def faultOf (o : Host.Outcome State Fault Refusal) : Option Fault :=
  match o with
  | .next _ => none
  | .fault f => some f
  | .refused _ => none

theorem fault_of {o : Host.Outcome State Fault Refusal} {f : Fault} (h : faultOf o = some f) : o = .fault f := by
  cases o with
  | next _ => simp [faultOf] at h
  | fault g => simpa [faultOf] using h
  | refused _ => simp [faultOf] at h

/-- No member of a run has the property. -/
theorem none_inRange {base count : Nat} {P : Nat → Prop} (h : ∀ k ∈ List.range' base count, ¬ P k) :
    ¬ ∃ k, InRange k base count ∧ P k := by
  rintro ⟨k, ⟨h1, h2⟩, hp⟩
  exact h k (List.mem_range'_1.mpr ⟨h1, h2⟩) hp

/-- No pair of members of two runs has the property. -/
theorem none_inRange_pair {base count base' count' : Nat} {P : Nat → Nat → Prop}
    (h : ∀ k ∈ List.range' base count, ∀ j ∈ List.range' base' count', ¬ P k j) :
    ¬ ∃ k j, InRange k base count ∧ InRange j base' count' ∧ P k j := by
  rintro ⟨k, j, ⟨h1, h2⟩, ⟨h3, h4⟩, hp⟩
  exact h k (List.mem_range'_1.mpr ⟨h1, h2⟩) j (List.mem_range'_1.mpr ⟨h3, h4⟩) hp

theorem coder32_ok : coder32.Ok where
  d_pos := by decide
  total_le := by decide
  em_rows := rfl
  em_cols := rfl
  em_shaped := by unfold Matrix.Shaped; decide
  pr_rows := rfl
  pr_cols := rfl
  pr_shaped := by unfold Matrix.Shaped; decide
  pr_get := by
    have h : ∀ i, i < 2 → ∀ j, j < 3 → coder32.pr.get i j = coder32.em.get (3 + i) j := by decide +kernel
    exact fun i j hi hj => h i hi j hj

theorem buildEM_32 : buildEM 0x11D 3 2 = .ok coder32.em := by decide +kernel

/-- A configured machine running ENCODE, with buffers, a slot and a soft reset pending. -/
def busyState : State := { flight (encodeState.setSlot 7 v53) 0x31 [0, 5, 0, 2] with srstPending := true }

theorem witness_StepKeepsInvariant : busyState.Inv ∧ ∃ t, step busyState = .next t := by
  refine ⟨⟨by decide +kernel, by decide +kernel, ⟨by decide +kernel, by decide +kernel, by decide +kernel⟩, ?_, ?_, ?_,
    ?_, ?_, ?_⟩, ?_⟩
  · have h : ∀ m : SlotField, (busyState.slot m).rows ≤ 256 ∧ (busyState.slot m).cols ≤ 512 ∧
        ((busyState.slot m).rows = 0 ↔ (busyState.slot m).cols = 0) ∧
        (busyState.slot m).e.length = (busyState.slot m).rows ∧
        ∀ row ∈ (busyState.slot m).e, row.length = (busyState.slot m).cols := by decide +kernel
    exact fun m => ⟨(h m).1, (h m).2.1, (h m).2.2.1, (h m).2.2.2⟩
  · intro c hc
    have h : busyState.coder = some coder32 := by decide +kernel
    rw [h] at hc
    cases hc
    exact coder32_ok
  · intro c hc
    have h : busyState.coder = some coder32 := by decide +kernel
    rw [h] at hc
    cases hc
    exact buildEM_32
  · intro _; decide +kernel
  · decide +kernel
  · decide +kernel
  · exact next_of_after (f := State.done) (by decide +kernel)

/-- Both clauses about the list of inputs, and the one about `withFetchWord`. -/
theorem witness_StepRunsDecodedCommand :
    (let s := flight State.reset 0x2117 [];
      ∃ c, s.run = .busy c ∧ Sys2Proof.decode c.word = .ok (.msub 1 2) ∧ s.inputs = []) ∧
    (let s := { flight State.reset 0x2117 [] with inputs := [.engine, .hardReset] };
      ∃ c, s.run = .busy c ∧ Sys2Proof.decode c.word = .ok (.msub 1 2) ∧ s.inputs = .engine :: [.hardReset]) ∧
    Sys2Proof.decode 0x0001021A = .ok (.mtimes 2 0 1) := by
  exact ⟨⟨_, rfl, rfl, rfl⟩, ⟨_, rfl, rfl, rfl⟩, rfl⟩

theorem witness_StepTakesInputsInOrder :
    let s := { State.reset with inputs := [.engine, .hardReset] }
    s.inputs = .engine :: [.hardReset] ∧ s.run = .idle := ⟨rfl, rfl⟩

/-- Each line is met by a word of `test_decoding_checks`; the last one by slot number 7. -/
theorem witness_CommandWordChecks :
    let s := flight State.reset 0x7015 []
    (∃ c, s.run = .busy c ∧ c.word = 0x7015) ∧ s.inputs = [] ∧ LegalOpcode 0x15 ∧ ¬ LegalOpcode 0x1D ∧
      ¬ LegalOpcode 0x0F ∧ ¬ LegalOpcode 0x22 ∧ ¬ LegalOpcode 0x35 := by
  refine ⟨⟨_, rfl, rfl⟩, rfl, ?_⟩
  unfold LegalOpcode
  decide

theorem witness_MaskMatch :
    (0x00002117 : Word) &&& 0xFFFF00FF = 0x17 ∧ (0x0001021A : Word) &&& 0xFFF000FF = 0x1A ∧
    (0x00000102 : Word) &&& 0xFFFFFFFF ≠ 0x02 := by decide

theorem witness_CmdWrites :
    (flight State.reset 0x15 []).run = .busy { word := 0x15, args := Vector.replicate 8 0 } ∧
    State.reset.run = .idle ∧
    (let t := State.reset.accept 0x0001021A;
      t.run = .busy { word := 0x0001021A, args := State.reset.args } ∧ t.inputs = []) := by decide +kernel

/-- Every range of offsets at its ends, and the first and last descriptor. -/
theorem witness_HostWrites : DescTableOk encodeState.bd ∧ encodeState.bd ≠ [] ∧
    (0xFFFFFFFD : Word).getLsbD 1 = false ∧ encodeState.run = .idle ∧
    [0, 4, 0x14, 0x3C, 0x60, 0xFFC, 0x3000, 0x1FFFC].all (fun o => decide (o < 0x20000 ∧ o % 4 = 0 ∧
      (o < 0x00008 ∨ (0x00014 ≤ o ∧ o < 0x00040) ∨ (0x00060 ≤ o ∧ o < 0x01000) ∨ 0x03000 ≤ o))) = true ∧
    0x01000 + 8 * 1023 < 0x03000 := by
  refine ⟨⟨by decide +kernel, by decide +kernel, by decide +kernel⟩, ?_⟩
  decide +kernel

theorem witness_HostReads : encodeState.coder = some coder32 ∧ State.reset.coder = none ∧
    [0x60, 0xFFC, 0x3000, 0xFFFC].all (fun o => decide (o % 4 = 0 ∧
      ((0x00060 ≤ o ∧ o < 0x01000) ∨ (0x03000 ≤ o ∧ o < 0x10000)))) = true := by decide +kernel

/-- The ends of BUFMEM, a byte that has a value and one that has none, IDLE and BUSY. -/
theorem witness_BufferPort : encodeState.par.bufBytes ≤ 2 ^ 20 ∧ 2 ^ 20 - 1 < encodeState.par.bufBytes ∧
    encodeState.run = .idle ∧ encodeState.mem.read 0x141 = some 0xEE ∧ encodeState.mem.read (2 ^ 20 - 1) = none ∧
    busyState.par.bufBytes ≤ 2 ^ 20 ∧ 2 ^ 20 - 1 < busyState.par.bufBytes ∧ busyState.busy = true := by decide +kernel

/-- 93 H4: while BUSY, an access at BUFMEM_BYTES reads 0x00 and writes nothing; the last byte below is BUFMEM. -/
theorem test_buffer_port_while_busy :
    [.bufRead (2 ^ 20), .bufWrite (2 ^ 20) 1].map (fun x => after (applyInput x { busyState with rdata := 9 })
      fun t => (t.rdata, decide (t.mem = busyState.mem), t.busy)) = [some (0, true, true), some (9, true, true)] ∧
    [.bufRead (2 ^ 20 - 1), .bufWrite (2 ^ 20 - 1) 1].map (fun x => faultOf (applyInput x busyState)) =
      [some .hostBufAccessWhileBusy, some .hostBufAccessWhileBusy] := by decide +kernel

theorem witness_MultabWindow :
    let s := flight State.reset 2 [255, 255]
    255 < 256 ∧ 16383 < 16384 ∧ 3 < 4 ∧ 4 * 16383 + 3 = 256 * 255 + 255 ∧ s.arg 0 = 255 ∧ s.arg 1 = 255 ∧
      s.srstPending = false := by decide +kernel

theorem witness_SoftReset : (2 : Word).getLsbD 1 = true ∧ State.reset.run = .idle ∧ busyState.busy = true ∧
    busyState.inputs = [] ∧ busyState.srstPending = true ∧ (∃ t, step busyState = .next t) :=
  ⟨by decide, rfl, by decide +kernel, by decide +kernel, rfl, witness_StepKeepsInvariant.2⟩

theorem witness_InterruptLine :
    (let s := { flight State.reset 6 [] with ie := true };
      (∃ c, s.run = .busy c) ∧ s.inputs = [] ∧ s.srstPending = false ∧ s.ie = true ∧ ∃ t, step s = .next t) ∧
    (2 : Word).getLsbD 1 = true ∧ (∃ t, { State.reset with done := true }.writeOffset 0x0000C 2 = .next t) ∧
    (2 : Word).getLsbD 0 = false ∧ (∃ t, State.reset.writeOffset 0x00008 2 = .next t) ∧
    (let s := { State.reset with done := true };
      s.done = true ∧ ∃ t, s.writeOffset 0x00008 1 = .next t) := by
  refine ⟨⟨⟨_, rfl⟩, rfl, rfl, rfl, next_of_after (f := State.done) (by decide +kernel)⟩, by decide, ⟨_, rfl⟩, by decide,
    ⟨_, rfl⟩, rfl, ⟨_, rfl⟩⟩

theorem witness_Completion :
    let s := flight encodeState 0x31 [0, 5, 0, 2]
    (∃ c, s.run = .busy c) ∧ s.inputs = [] ∧ s.srstPending = false := ⟨⟨_, rfl⟩, by decide +kernel, by decide +kernel⟩

/-- Each of the three faults is reached. -/
theorem witness_WhereAStepStops :
    step (flight { encodeState with mem := [] } 0x31 [0, 5, 0, 2]) = .fault (.unwrittenByte 0x100) ∧
    step { flight State.reset 0 [] with inputs := [.bufRead 0] } = .fault .hostBufAccessWhileBusy ∧
    step { flight State.reset 0 [] with inputs := [.bufWrite 0 1] } = .fault .hostBufAccessWhileBusy ∧
    step { flight State.reset 0 [] with inputs := [.mmioWrite 0x400 1] } = .fault .hostDescWriteWhileBusy ∧
    step { flight State.reset 0 [] with inputs := [.mmioWrite 0xBFF 1] } = .fault .hostDescWriteWhileBusy :=
  ⟨fault_of (by decide +kernel), fault_of (by decide +kernel), fault_of (by decide +kernel),
    fault_of (by decide +kernel), fault_of (by decide +kernel)⟩

theorem witness_NopOnlyCompletes : (flight State.reset 0 []).cmd.word = 0 ∧ (flight State.reset 0 []).srstPending = false := by
  decide +kernel

/-- The lines are met by `test_fadd` and `test_fmul`, at 255 and 256 and at 0 and -1. -/
theorem witness_FaddIsXor_FmulIsProduct : let s := flight State.reset 1 [0, 255]
    ¬ (s.arg 0 < 0 ∨ 255 < s.arg 0) ∧ ¬ (s.arg 1 < 0 ∨ 255 < s.arg 1) := by decide +kernel

theorem witness_FdivIsQuotient : let s := flight State.reset 3 [6, 255]
    ¬ (s.arg 0 < 0 ∨ 255 < s.arg 0) ∧ ¬ (s.arg 1 < 0 ∨ 255 < s.arg 1) ∧ ¬ (s.arg 1 = 0 ∧ s.arg 0 ≠ 0) ∧
      ¬ (s.arg 1 = 0 ∧ s.arg 0 = 0) ∧ IrreduciblePoly s.par.fieldPoly :=
  ⟨by decide +kernel, by decide +kernel, by decide +kernel, by decide +kernel, irreducible_default⟩

theorem witness_FinvIsInverse : let s := flight State.reset 4 [255]
    ¬ (s.arg 0 < 0 ∨ 255 < s.arg 0) ∧ ¬ s.arg 0 = 0 ∧ IrreduciblePoly s.par.fieldPoly :=
  ⟨by decide +kernel, by decide +kernel, irreducible_default⟩

theorem witness_FexpIsPower : let s := flight State.reset 5 [255, 0x7FFFFFFF]
    ¬ (s.arg 0 < 0 ∨ 255 < s.arg 0) ∧ ¬ s.arg 1 < 0 ∧ s.par.fieldPoly.getLsbD 8 = true := by decide +kernel

/-- The largest shape passes; MIDENT's largest size too. -/
theorem witness_McreateMakesZeros_MidentMakesIdentity_MvandMakesPowers : let s := flight State.reset 0x710 [256, 512]
    ¬ 8 ≤ (7 : SlotField).toNat ∧ ¬ (s.arg 0 < 1 ∨ 256 < s.arg 0 ∨ s.arg 1 < 1 ∨ 512 < s.arg 1) ∧
      s.par.fieldPoly.getLsbD 8 = true := by decide +kernel

theorem witness_MgetReadsEntry_MsetWritesEntry : let s := flight (withSlots [m1234]) 0x14 [1, 1, 0xFFFFFF00]
    ¬ (s.slot 0).rows = 0 ∧
      ¬ (s.arg 0 < 0 ∨ (s.slot 0).rows ≤ s.arg 0 ∨ s.arg 1 < 0 ∨ (s.slot 0).cols ≤ s.arg 1) ∧
      ¬ (s.arg 2 < -256 ∨ 255 < s.arg 2) ∧ (s.slot 0).Shaped := by
  unfold Matrix.Shaped
  decide +kernel

theorem witness_MgetrowWritesRow : let s := flight rowState 0x3016 [2, 1023]
    ¬ (s.slot 3).rows = 0 ∧ ¬ (s.arg 0 < 0 ∨ (s.slot 3).rows ≤ s.arg 0) ∧ ¬ (s.arg 1 < 0 ∨ 1024 ≤ s.arg 1) ∧
      ¬ s.par.bufBytes < s.base (s.natArg 1) + s.len (s.natArg 1) ∧ ¬ s.len (s.natArg 1) < (s.slot 3).cols := by
  decide +kernel

theorem witness_MsubCopiesRange : let s := flight (withSlots [v53]) 0x117 [0, 0, 5, 3]
    ¬ (s.slot 0).rows = 0 ∧
      (0 ≤ s.arg 0 ∧ s.arg 0 < s.arg 2 ∧ s.arg 2 ≤ (s.slot 0).rows ∧
        0 ≤ s.arg 1 ∧ s.arg 1 < s.arg 3 ∧ s.arg 3 ≤ (s.slot 0).cols) := by decide +kernel

/-- Source and destination slots may be the same. -/
theorem witness_MaugJoinsRows_MtimesIsProduct : let s := flight (withSlots [m1234, m1234inv]) 0x10018 []
    ¬ (s.slot 0).rows = 0 ∧ ¬ (s.slot 1).rows = 0 ∧ ¬ (s.slot 0).rows ≠ (s.slot 1).rows ∧
      ¬ 512 < (s.slot 0).cols + (s.slot 1).cols ∧ ¬ (s.slot 0).cols ≠ (s.slot 1).rows := by decide +kernel

theorem witness_MswapExchangesRows : let s := flight (withSlots [m1234]) 0x19 [1, 1]
    ¬ (s.slot 0).rows = 0 ∧ (s.slot 0).Shaped ∧
      ¬ (s.arg 0 < 0 ∨ (s.slot 0).rows ≤ s.arg 0 ∨ s.arg 1 < 0 ∨ (s.slot 0).rows ≤ s.arg 1) := by
  unfold Matrix.Shaped
  decide +kernel

/-- [[01, 00], [00, 00]] (L2.4). -/
def singular22 : Machine.Matrix := { rows := 2, cols := 2, e := [[1, 0], [0, 0]] }

theorem shaped_small : m1234.Shaped ∧ m1234inv.Shaped ∧ singular22.Shaped := by
  unfold Matrix.Shaped
  decide

theorem gauss_m1234 : m1234.gauss 0x11D = .ok { rows := 2, cols := 2, e := [[1, 0], [0, 1]] } := by decide +kernel
theorem gauss_singular22 : singular22.gauss 0x11D = .error 1 := by decide +kernel
theorem minvert_m1234 : m1234.minvert 0x11D = .ok m1234inv := by decide +kernel
theorem minvert_singular22 : singular22.minvert 0x11D = .error 1 := by decide +kernel

/-- Both outcomes of the elimination. -/
theorem witness_MgaussReducesSlot :
    (let s := flight (withSlots [m1234]) 0x1B [];
      (s.slot 0).Shaped ∧ ¬ (s.slot 0).rows = 0 ∧ ¬ (s.slot 0).cols < (s.slot 0).rows ∧
        ∃ w, (s.slot 0).gauss s.par.fieldPoly = .ok w) ∧
    (let s := flight (withSlots [singular22]) 0x1B [];
      (s.slot 0).Shaped ∧ ¬ (s.slot 0).rows = 0 ∧ ¬ (s.slot 0).cols < (s.slot 0).rows ∧
        ∃ r, (s.slot 0).gauss s.par.fieldPoly = .error r) :=
  ⟨⟨shaped_small.1, by decide +kernel, by decide +kernel, _, gauss_m1234⟩,
    ⟨shaped_small.2.2, by decide +kernel, by decide +kernel, _, gauss_singular22⟩⟩

theorem witness_MinvReplacesSlot :
    (let s := flight (withSlots [m1234]) 0x11C [];
      ¬ (s.slot 0).rows = 0 ∧ ¬ (s.slot 0).rows ≠ (s.slot 0).cols ∧ ∃ v, (s.slot 0).minvert s.par.fieldPoly = .ok v) ∧
    (let s := flight (withSlots [singular22]) 0x11C [];
      ¬ (s.slot 0).rows = 0 ∧ ¬ (s.slot 0).rows ≠ (s.slot 0).cols ∧
        ∃ r, (s.slot 0).minvert s.par.fieldPoly = .error r) :=
  ⟨⟨by decide +kernel, by decide +kernel, _, minvert_m1234⟩, ⟨by decide +kernel, by decide +kernel, _, minvert_singular22⟩⟩

/-- R181's example passes every check; with BUFMEM unwritten, the touched bytes have no value. -/
theorem witness_CodeWritesCombinations : let s := flight codeState 0x3020 [0, 10, 3, 20, 2, 0, 2]
    (¬ (s.slot 3).rows = 0 ∧ ¬ (s.arg 2 < 1 ∨ (s.slot 3).cols < s.arg 2) ∧ ¬ s.arg 4 < 0 ∧
      ¬ (s.arg 0 < 0 ∨ (s.slot 3).rows < s.arg 0 + s.arg 4) ∧ ¬ (s.arg 5 < 0 ∨ s.arg 6 < 0) ∧
      ¬ (s.arg 1 < 0 ∨ 1024 < s.arg 1 + s.arg 2) ∧ ¬ (s.arg 3 < 0 ∨ 1024 < s.arg 3 + s.arg 4)) ∧
    ¬ (s.Misplaced 10 3 ∨ s.Misplaced 20 2) ∧ ¬ (s.TooShort 10 3 (0 + 2) ∨ s.TooShort 20 2 (0 + 2)) ∧
    ¬ s.TouchedAlias 10 3 20 2 0 2 ∧ (∀ i, i < 3 → s.Written (s.base (10 + i) + 0) 2) ∧
    ¬ ({ s with mem := [] } : State).Written (s.base 10 + 0) 2 := by
  refine ⟨by decide +kernel, not_or.mpr ⟨none_inRange ?_, none_inRange ?_⟩, not_or.mpr ⟨none_inRange ?_, none_inRange ?_⟩,
    not_or.mpr ⟨none_inRange_pair ?_, none_inRange_pair ?_⟩, ?_, ?_⟩
  · decide +kernel
  · decide +kernel
  · decide +kernel
  · decide +kernel
  · unfold Overlaps; decide +kernel
  · unfold Overlaps; decide +kernel
  · unfold State.Written; decide +kernel
  · unfold State.Written; decide +kernel

theorem witness_CheckIsUnimplemented : ¬ 8 ≤ (7 : SlotField).toNat ∧ 8 ≤ (8 : SlotField).toNat := by decide

theorem minvert_top21 : ∃ inv, ((Machine.Matrix.vandermonde 0x11D 3 2).msub 0 0 2 2).minvert 0x11D = .ok inv := by
  refine ⟨{ rows := 2, cols := 2, e := [[1, 0], [1, 1]] }, ?_⟩
  decide +kernel

theorem witness_ConfigBuildsCoder : let s := flight State.reset 0x30 [2, 1]
    ¬ s.arg 0 ≤ 0 ∧ ¬ s.arg 1 < 0 ∧ ¬ 256 < s.arg 0 + s.arg 1 ∧
      ∃ inv, ((Machine.Matrix.vandermonde s.par.fieldPoly (s.natArg 0 + s.natArg 1) (s.natArg 0)).msub 0 0 (s.natArg 0)
        (s.natArg 0)).minvert s.par.fieldPoly = .ok inv :=
  ⟨by decide +kernel, by decide +kernel, by decide +kernel, minvert_top21⟩

theorem witness_EncodeWritesParity : let s := flight encodeState 0x31 [0, 5, 0, 2]
    s.coder = some coder32 ∧ coder32.Ok ∧ State.reset.coder = none ∧
    (¬ s.arg 1 ≠ coder32.t ∧ ¬ (s.arg 2 < 0 ∨ s.arg 3 < 0) ∧ ¬ (s.arg 0 < 0 ∨ 1024 < s.arg 0 + coder32.t)) ∧
    ¬ s.Misplaced 0 5 ∧ ¬ s.LengthsDiffer 0 5 ∧ ¬ s.TooShort 0 5 (0 + 2) ∧ ¬ s.TouchedAlias 0 3 3 2 0 2 ∧
    (∀ i, i < 3 → s.Written (s.base (0 + i) + 0) 2) ∧
    ¬ ({ s with mem := [] } : State).Written (s.base 0 + 0) 2 := by
  refine ⟨by decide +kernel, coder32_ok, rfl, by decide +kernel, none_inRange ?_, none_inRange_pair ?_, none_inRange ?_,
    not_or.mpr ⟨none_inRange_pair ?_, none_inRange_pair ?_⟩, ?_, ?_⟩
  · decide +kernel
  · decide +kernel
  · decide +kernel
  · unfold Overlaps; decide +kernel
  · unfold Overlaps; decide +kernel
  · unfold State.Written; decide +kernel
  · unfold State.Written; decide +kernel

/-! ### Witnesses for DECODE -/

/-- The general path: tags 4, 2, 0. -/
def generalState : State := flight (decodeState [some 4, some 2, some 0]) 0x32 [20, 3, 30, 1, 1]

/-- The fast path: tags 3, 0, 1, 4, 2. -/
def fastState : State := flight (decodeState [some 3, some 0, some 1, some 4, some 2]) 0x32 [20, 5, 30, 0, 2]

theorem not_fast_generalState : ¬ generalState.Fast coder32 := by unfold State.Fast; decide +kernel
theorem fast_fastState : fastState.Fast coder32 := by unfold State.Fast; decide +kernel

theorem passes_decodeChecks (s : State) (h1 : ¬ (s.arg 1 < 0 ∨ (coder32.t : Int) < s.arg 1))
    (h2 : ¬ (s.arg 3 < 0 ∨ s.arg 4 < 0)) (h3 : ¬ (s.arg 0 < 0 ∨ 1024 < s.arg 0 + s.arg 1))
    (h4 : ¬ (s.arg 2 < 0 ∨ 1024 < s.arg 2 + (coder32.t : Int)))
    (h5 : ¬ (s.Misplaced (s.natArg 0) (s.natArg 1) ∨ s.Misplaced (s.natArg 2) coder32.t))
    (h6 : ¬ (¬ s.Fast coder32 ∧ s.pres.length < coder32.d)) : Passes (s.decodeChecks coder32) := by
  intro line hl
  simp only [State.decodeChecks, List.mem_cons, List.not_mem_nil, or_false] at hl
  rcases hl with rfl | rfl | rfl | rfl | rfl | rfl
  · exact h1
  · exact h2
  · exact h3
  · exact h4
  · exact h5
  · exact h6

theorem passes_tagChecks (s : State)
    (h1 : ¬ ((∃ k ∈ s.pres, coder32.t ≤ s.tagOf k) ∨ (∃ k ∈ s.pres, ∃ j ∈ s.pres, k ≠ j ∧ s.tagOf k = s.tagOf j)))
    (h2 : ¬ ∃ k ∈ s.pres, ∃ j ∈ s.pres, s.len k ≠ s.len j)
    (h3 : ¬ (s.payloadLen : Int) < s.arg 3 + s.arg 4) : Passes (s.tagChecks coder32) := by
  intro line hl
  simp only [State.tagChecks, List.mem_cons, List.not_mem_nil, or_false] at hl
  rcases hl with rfl | rfl | rfl
  · exact h1
  · exact h2
  · exact h3

theorem passes_outputChecks (s : State) (count : Nat) (h1 : ¬ s.TooShort (s.natArg 2) count s.payloadLen)
    (h2 : ∀ k ∈ List.range' (s.natArg 2) count, ∀ j ∈ List.range' (s.natArg 2) count,
      ¬ (k ≠ j ∧ Overlaps (s.base k) s.payloadLen (s.base j) s.payloadLen))
    (h3 : ∀ k ∈ List.range' (s.natArg 2) count,
      ¬ ∃ j ∈ s.pres, Overlaps (s.base k) s.payloadLen (s.base j) (s.len j)) :
    Passes (s.outputChecks count) := by
  intro line hl
  simp only [State.outputChecks, List.mem_cons, List.not_mem_nil, or_false] at hl
  rcases hl with rfl | rfl
  · exact h1
  · exact not_or.mpr ⟨none_inRange_pair h2, none_inRange h3⟩

theorem general_decodeChecks : Passes (generalState.decodeChecks coder32) :=
  passes_decodeChecks _ (by decide +kernel) (by decide +kernel) (by decide +kernel) (by decide +kernel)
    (not_or.mpr ⟨none_inRange (by decide +kernel), none_inRange (by decide +kernel)⟩)
    (fun h => absurd h.2 (by decide +kernel))

theorem fast_decodeChecks : Passes (fastState.decodeChecks coder32) :=
  passes_decodeChecks _ (by decide +kernel) (by decide +kernel) (by decide +kernel) (by decide +kernel)
    (not_or.mpr ⟨none_inRange (by decide +kernel), none_inRange (by decide +kernel)⟩)
    (fun h => h.1 fast_fastState)

theorem general_tagChecks : (∀ k ∈ generalState.pres, generalState.Written (generalState.base k) 1) ∧
    Passes (generalState.tagChecks coder32) :=
  ⟨by unfold State.Written; decide +kernel,
    passes_tagChecks _ (by decide +kernel) (by decide +kernel) (by decide +kernel)⟩

theorem fast_tagChecks : (∀ k ∈ fastState.pres, fastState.Written (fastState.base k) 1) ∧
    Passes (fastState.tagChecks coder32) :=
  ⟨by unfold State.Written; decide +kernel,
    passes_tagChecks _ (by decide +kernel) (by decide +kernel) (by decide +kernel)⟩

theorem general_outputChecks : Passes (generalState.outputChecks coder32.t) :=
  passes_outputChecks _ _ (none_inRange (by decide +kernel)) (by unfold Overlaps; decide +kernel)
    (by unfold Overlaps; decide +kernel)

theorem fast_outputChecks : Passes (fastState.orderCheck coder32 :: fastState.outputChecks coder32.d) := by
  intro line hl
  rcases List.mem_cons.mp hl with rfl | hl
  · have h : (fastState.pres.map fastState.tagOf).filter (fun t => decide (t < coder32.d)) = List.range coder32.d := by
      decide +kernel
    exact fun hc => hc h
  · exact passes_outputChecks _ _ (none_inRange (by decide +kernel)) (by unfold Overlaps; decide +kernel)
      (by unfold Overlaps; decide +kernel) line hl

/-- Written tags, and a tag that has no value. -/
theorem witness_DecodeCommonChecks : generalState.coder = some coder32 ∧ coder32.Ok ∧ State.reset.coder = none ∧
    Passes (generalState.decodeChecks coder32) ∧
    (∀ k ∈ generalState.pres, generalState.Written (generalState.base k) 1) ∧ 20 ∈ generalState.pres ∧
    ¬ ({ generalState with mem := [] } : State).Written (generalState.base 20) 1 :=
  ⟨by decide +kernel, coder32_ok, rfl, general_decodeChecks, general_tagChecks.1, by decide +kernel,
    by unfold State.Written; decide +kernel⟩

theorem witness_DecodeFastPath : fastState.coder = some coder32 ∧ coder32.Ok ∧ fastState.Fast coder32 ∧
    Passes (fastState.decodeChecks coder32) ∧ (∀ k ∈ fastState.pres, fastState.Written (fastState.base k) 1) ∧
    Passes (fastState.tagChecks coder32) ∧ Passes (fastState.orderCheck coder32 :: fastState.outputChecks coder32.d) ∧
    fastState.payloadLen = 2 ∧
    (∀ t k, t < coder32.d → fastState.Carries t k → fastState.Written (fastState.base k + 1) fastState.payloadLen) := by
  refine ⟨by decide +kernel, coder32_ok, fast_fastState, fast_decodeChecks, fast_tagChecks.1, fast_tagChecks.2,
    fast_outputChecks, by decide +kernel, ?_⟩
  have h : ∀ k ∈ fastState.pres, fastState.Written (fastState.base k + 1) fastState.payloadLen := by
    unfold State.Written; decide +kernel
  exact fun t k _ hc => h k hc.1

/-- The rows 0, 2 and 4 of EM(3, 2), and their inverse under 0x11D. -/
def chosenRows : Machine.Matrix := { rows := 3, cols := 3, e := [[1, 0, 0], [0, 0, 1], [0x0F, 8, 6]] }

theorem minvert_chosenRows : ∃ inv, chosenRows.minvert 0x11D = .ok inv := by
  have h : (match chosenRows.minvert 0x11D with
    | .ok _ => true
    | .error _ => false) = true := by decide +kernel
  cases hm : chosenRows.minvert 0x11D with
  | ok v => exact ⟨v, rfl⟩
  | error r => rw [hm] at h; cases h

theorem witness_DecodeGeneralPath : generalState.coder = some coder32 ∧ coder32.Ok ∧ ¬ generalState.Fast coder32 ∧
    Passes (generalState.decodeChecks coder32) ∧
    (∀ k ∈ generalState.pres, generalState.Written (generalState.base k) 1) ∧
    Passes (generalState.tagChecks coder32) ∧ Passes (generalState.outputChecks coder32.t) ∧
    (chosenRows.Is 3 3 fun r k => coder32.em.get ([0, 2, 4].getD r 0) k) ∧
    (∃ inv, chosenRows.minvert generalState.par.fieldPoly = .ok inv) ∧
    (∀ t k, t < coder32.t → generalState.Carries t k →
      generalState.Written (generalState.base k + 1) generalState.payloadLen) ∧
    generalState.Carries 0 22 ∧ generalState.Carries 2 21 ∧ generalState.Carries 4 20 ∧
    ¬ generalState.ShardPresent 1 ∧ ¬ generalState.ShardPresent 3 := by
  have hc : ∀ k ∈ generalState.pres, generalState.tagOf k ≠ 1 ∧ generalState.tagOf k ≠ 3 ∧
      generalState.Written (generalState.base k + 1) generalState.payloadLen := by
    unfold State.Written; decide +kernel
  refine ⟨by decide +kernel, coder32_ok, not_fast_generalState, general_decodeChecks, general_tagChecks.1,
    general_tagChecks.2, general_outputChecks, ⟨rfl, rfl, by unfold Matrix.Shaped; decide, ?_⟩, minvert_chosenRows,
    fun t k _ h => (hc k h.1).2.2, ?_, ?_, ?_, ?_, ?_⟩
  · have h : ∀ r, r < 3 → ∀ k, k < 3 → chosenRows.get r k = coder32.em.get ([0, 2, 4].getD r 0) k := by decide +kernel
    exact fun r k hr hk => h r hr k hk
  · unfold State.Carries; decide +kernel
  · unfold State.Carries; decide +kernel
  · unfold State.Carries; decide +kernel
  · rintro ⟨k, hk, ht⟩; exact (hc k hk).1 ht
  · rintro ⟨k, hk, ht⟩; exact (hc k hk).2.1 ht

/-- The clause on a singular choice of rows: a coder whose EM is all zero meets it. -/
theorem witness_DecodeGeneralPath_singular :
    (Machine.Matrix.zeros 1 1).minvert 0x11D = .error 0 ∧
    Coder.Ok { d := 1, p := 0, em := Machine.Matrix.zeros 1 1, pr := { rows := 0, cols := 1, e := [] } } := by
  refine ⟨by decide +kernel, by decide, by decide, rfl, rfl, by unfold Matrix.Shaped; decide, rfl, rfl,
    by unfold Matrix.Shaped; decide, ?_⟩
  intro i j hi
  exact absurd hi (Nat.not_lt_zero i)

theorem witness_EmgetReadsEntry : let s := flight encodeState 0x33 [4, 2]
    s.coder = some coder32 ∧ State.reset.coder = none ∧
      ¬ (s.arg 0 < 0 ∨ (coder32.t : Int) ≤ s.arg 0 ∨ s.arg 1 < 0 ∨ (coder32.d : Int) ≤ s.arg 1) := by decide +kernel

theorem witness_EmexportCopiesMatrix : ¬ 8 ≤ (7 : SlotField).toNat ∧ ¬ (flight encodeState 0x734 []).coder = none := by
  decide +kernel

/-! ### Witnesses for the rules over all commands, the field and the matrices -/

/-- For ResultRegisterWriters, SlotAndCoderWriters, BufmemWriters and HostStateFrame: a success that writes a result, a
failure, a failed MGAUSS, a failed CONFIG, and a success that writes BUFMEM. -/
theorem witness_writers_and_frame :
    (let s := flight State.reset 2 [2, 3];
      s.srstPending = false ∧ after (exec .fmul s) (fun t => t.errCode.extractLsb' 0 8) = some 0) ∧
    (let s := flight State.reset 2 [256, 3];
      s.srstPending = false ∧ after (exec .fmul s) (fun t => t.errCode.extractLsb' 0 8) = some 2) ∧
    (let s := flight (withSlots [singular22]) 0x1B [];
      s.srstPending = false ∧ after (exec (.mgauss 0) s) (fun t => t.errCode.extractLsb' 0 8) = some 3) ∧
    (let s := flight encodeState 0x30 [0, 1];
      s.srstPending = false ∧ after (exec .config s) (fun t => (t.errCode.extractLsb' 0 8, t.coder)) =
        some (1, some coder32)) ∧
    (let s := flight encodeState 0x31 [0, 5, 0, 2];
      s.srstPending = false ∧ s.mem.read 0x130 = some 0xEE ∧
        after (exec .encode s) (fun t => (t.errCode.extractLsb' 0 8, t.mem.read 0x130)) = some (0, some 7)) := by
  decide +kernel

/-- Snapshots that differ in a register FINV does not list; a run that completes, and one that faults. -/
theorem witness_SnapshotOnly :
    (∀ k : Fin 8, k.val < argCount .finv →
      (#v[2, 9, 9, 9, 9, 9, 9, 9] : Vector Word 8)[k] = (#v[2, 0, 0, 0, 0, 0, 0, 0] : Vector Word 8)[k]) ∧
    (∃ t, exec .finv (flight State.reset 4 [2]) = .next t) ∧
    exec .encode (flight { encodeState with mem := [] } 0x31 [0, 5, 0, 2]) = .fault (.unwrittenByte 0x100) :=
  ⟨by decide, next_of_after (f := State.done) (by decide +kernel), fault_of (by decide +kernel)⟩

theorem witness_ConstantsNeverChange : ∃ t, step { busyState with inputs := [.hardReset] } = .next t := ⟨_, rfl⟩

theorem witness_GmulIsPolynomialProduct : (0x11D : BitVec 9).getLsbD 8 = true := by decide

theorem witness_FieldLaws : IrreduciblePoly 0x11D ∧ (2 : Byte) ≠ 0 := ⟨irreducible_default, by decide⟩

theorem witness_GaussReduces : IrreduciblePoly 0x11D ∧ m1234.Shaped ∧ m1234.rows ≤ m1234.cols ∧
    (∃ v, m1234.gauss 0x11D = .ok v) ∧ singular22.Shaped ∧ singular22.rows ≤ singular22.cols ∧
    singular22.gauss 0x11D = .error 1 :=
  ⟨irreducible_default, shaped_small.1, by decide, ⟨_, gauss_m1234⟩, shaped_small.2.2, by decide, gauss_singular22⟩

theorem witness_MinvInverts : let s := flight (withSlots [m1234]) 0x11C []
    (1 : SlotField).toNat < 8 ∧ (0 : SlotField).toNat < 8 ∧ IrreduciblePoly s.par.fieldPoly ∧ (s.slot 0).Shaped ∧
      (s.slot 0).rows ≠ 0 ∧ (s.slot 0).Invertible s.par.fieldPoly := by
  refine ⟨by decide, by decide, irreducible_default, shaped_small.1, by decide +kernel, by decide +kernel, m1234inv,
    ⟨by decide +kernel, by decide +kernel, by unfold Matrix.Shaped; decide +kernel, ?_⟩, shaped_small.2.1, rfl, rfl⟩
  have h : ∀ r, r < 2 → ∀ c, c < 2 → (m1234inv.mtimes 0x11D m1234).get r c = if r = c then 1 else 0 := by
    decide +kernel
  exact fun r c hr hc => h r hr c hc

theorem witness_EncodingMatrixTop : IrreduciblePoly 0x11D ∧ 3 + 2 ≤ 256 ∧ buildEM 0x11D 3 2 = .ok coder32.em ∧
    ∃ em, buildEM 0x11D 1 2 = .ok em :=
  ⟨irreducible_default, by decide, buildEM_32, ⟨{ rows := 3, cols := 1, e := [[1], [1], [1]] }, by decide +kernel⟩⟩

theorem witness_EncodingMatrixInvertible : IrreduciblePoly 0x11D ∧ 3 + 2 ≤ 256 ∧
    (∀ i, i < 3 → 2 * i < 3 + 2) ∧ (∀ i j, i < j → j < 3 → 2 * i ≠ 2 * j) ∧
    (chosenRows.Is 3 3 fun r k => coder32.em.get (2 * r) k) := by
  refine ⟨irreducible_default, by decide, by omega, by omega, rfl, rfl, by unfold Matrix.Shaped; decide, ?_⟩
  have h : ∀ r, r < 3 → ∀ k, k < 3 → chosenRows.get r k = coder32.em.get (2 * r) k := by decide +kernel
  exact fun r k hr hk => h r hr k hk

/-- Shard t's byte j (L2.8). -/
def shardByte (t j : Nat) : Byte := (shards32.getD t []).getD j 0

theorem shards_consistent (poly : BitVec 9) (hp : poly = 0x11D) : ∀ t j, t < 5 → j < 2 →
    shardByte t j = dot poly 3 (coder32.em.get t) fun i => shardByte i j := by
  subst hp
  have h : ∀ t, t < 5 → ∀ j, j < 2 → shardByte t j = dot 0x11D 3 (coder32.em.get t) fun i => shardByte i j := by
    decide +kernel
  exact fun t j ht hj => h t ht j hj

/-- On both paths. -/
theorem witness_DecodeRecoversShards : ∀ s ∈ [generalState, fastState],
    IrreduciblePoly s.par.fieldPoly ∧ s.coder = some coder32 ∧ coder32.Ok ∧
    buildEM s.par.fieldPoly coder32.d coder32.p = .ok coder32.em ∧ Passes (s.decodeChecks coder32) ∧
    (∀ k ∈ s.pres, s.Written (s.base k) 1) ∧ Passes (s.tagChecks coder32) ∧
    (s.Fast coder32 → Passes (s.orderCheck coder32 :: s.outputChecks coder32.d)) ∧
    (¬ s.Fast coder32 → Passes (s.outputChecks coder32.t)) ∧
    (∀ t j, t < coder32.t → j < s.payloadLen →
      shardByte t j = dot s.par.fieldPoly coder32.d (coder32.em.get t) fun i => shardByte i j) ∧
    (∀ t k j, s.Carries t k → j < s.payloadLen → s.mem.read (s.base k + 1 + j) = some (shardByte t j)) := by
  intro s hs
  rcases List.mem_cons.mp hs with rfl | hs
  · have hl : generalState.payloadLen = 2 := by decide +kernel
    have hr : ∀ k ∈ generalState.pres, ∀ j, j < 2 →
        generalState.mem.read (generalState.base k + 1 + j) = some (shardByte (generalState.tagOf k) j) := by
      decide +kernel
    refine ⟨irreducible_default, by decide +kernel, coder32_ok, buildEM_32, general_decodeChecks, general_tagChecks.1,
      general_tagChecks.2, fun h => absurd h not_fast_generalState, fun _ => general_outputChecks, ?_, ?_⟩
    · rw [hl]; exact shards_consistent _ (by decide +kernel)
    · rw [hl]; rintro t k j ⟨hk, rfl⟩ hj; exact hr k hk j hj
  · rw [List.mem_singleton] at hs
    subst hs
    have hl : fastState.payloadLen = 2 := by decide +kernel
    have hr : ∀ k ∈ fastState.pres, ∀ j, j < 2 →
        fastState.mem.read (fastState.base k + 1 + j) = some (shardByte (fastState.tagOf k) j) := by
      decide +kernel
    refine ⟨irreducible_default, by decide +kernel, coder32_ok, buildEM_32, fast_decodeChecks, fast_tagChecks.1,
      fast_tagChecks.2, fun _ => fast_outputChecks, fun h => absurd fast_fastState h, ?_, ?_⟩
    · rw [hl]; exact shards_consistent _ (by decide +kernel)
    · rw [hl]; rintro t k j ⟨hk, rfl⟩ hj; exact hr k hk j hj

end Sys2Proof.Tests
end

section
/-! PROOF. Which state a command's effect phase can write (10_state.md R23, R32, R33; 20_memory.md R60), how a command
can end (44_control.md R242, 60_exceptions.md R270), and from these the writers of the slots and of the coder state. -/

namespace Sys2Proof.Machine

/-! ### What a check phase gives -/

/-- Every value the computation `c` can give satisfies `P`. -/
def Gives {α : Type} (c : Check α) (P : α → Prop) : Prop := ∀ a, c = .ok a → P a

section Gives

variable {α β : Type} {P Q : α → Prop}

theorem Gives.ok {a : α} (h : P a) : Gives (.ok a) P := fun _ hb => Except.ok.inj hb ▸ h

theorem Gives.raising (r : Raise) : Gives (raising r) P := fun _ hb => nomatch hb

/-- Whatever the first part gives, only the second part's value counts. -/
theorem Gives.bind {x : Check β} {f : β → Check α} (h : ∀ b, Gives (f b) P) : Gives (x >>= f) P := fun a ha =>
  have ⟨b, _, hb⟩ := (check_bind_eq_ok x f a).1 ha
  h b a hb

theorem Gives.mono {c : Check α} (h : Gives c P) (hPQ : ∀ a, P a → Q a) : Gives c Q := fun a ha => hPQ a (h a ha)

end Gives

/-! ### What each command's effect phase writes -/

/-- `Effect s i u`: the effect phase of command `i`, run in `s`, can leave `u`. One case per set of registers written. -/
inductive Effect (s : State) : Instr → State → Prop
  | nothing : Effect s .nop s
  | result {i : Instr} (hi : i ∈ [.fadd, .fmul, .fdiv, .finv, .fexp, .emget] ∨ ∃ a, i = .mget a) (v : Word) :
      Effect s i (s.setResult0 v)
  | shape (a : SlotField) (v w : Word) : Effect s (.mdim a) ((s.setResult0 v).setResult1 w)
  | slot {i : Instr} {d : SlotField} (hi : destination i = some d) (a : Matrix) : Effect s i (s.setSlot d a)
  | bytes {i : Instr} (hi : i = .encode ∨ ∃ a, i = .mgetrow a ∨ i = .code a) (m : Memory) : Effect s i (s.setMem m)
  | shards (m : Memory) (v w : Word) : Effect s .decode (((s.setMem m).setResult0 v).setResult1 w)
  | coder (c : Coder) : Effect s .config (s.setCoder c)

/-- The coding loop writes BUFMEM and nothing else (42_coding_loop.md R180). -/
theorem State.codeLoop_gives {s : State} {rows : List (List Byte)} {ins outs : List Nat} {off cnt : Nat} :
    Gives (s.codeLoop rows ins outs off cnt) fun u => ∃ m, u = s.setMem m := by
  unfold State.codeLoop
  split
  · exact .ok ⟨s.mem, rfl⟩
  · exact .bind fun _ => .ok ⟨_, State.writeBlocks_eq ..⟩

/-- DECODE's fast path writes BUFMEM and the result registers (43_erasure_coder.md R212). -/
theorem State.decodeFast_gives {s : State} {c : Coder} {pres : List Tagged} {outs : List Nat} {l : Nat} :
    Gives (s.decodeFast c pres outs l) (Effect s .decode) :=
  .bind fun _ => .bind fun _ => .bind fun _ => .ok (by rw [State.writeBlocks_eq]; exact .shards ..)

/-- DECODE's general path writes BUFMEM and the result registers (43_erasure_coder.md R213). -/
theorem State.decodeGeneral_gives {s : State} {c : Coder} {pres : List Tagged} {outs : List Nat} {l off cnt : Nat} :
    Gives (s.decodeGeneral c pres outs l off cnt) (Effect s .decode) :=
  .bind fun _ => .bind fun _ => .bind fun _ => .ok (by rw [State.writeBlocks_eq]; exact .shards ..)

/-! ### How a command ends -/

/-- `Ending s i t`: command `i`, run in `s`, can end in `t`: its effects and a success, an error's report over `s`
(60_exceptions.md R270), or the error of MGAUSS that also spoils its slot (41_matrix.md R167). -/
inductive Ending (s : State) (i : Instr) : State → Prop
  | success {u : State} (h : Effect s i u) : Ending s i u.completed
  | failure (r : Raise) : Ending s i (s.errored r.detail r.cause r.info)
  | singular {d : SlotField} (hi : i = .mgauss d) (rows cols row : Nat) :
      Ending s i ((s.scrambleSlot d rows cols).errored 1 3 row)

theorem Ending.of_finish {i : Instr} {s t : State} {c : Check State} (h : finish s c = .next t)
    (hc : Gives c (Effect s i)) : Ending s i t := by
  rcases finish_cases s c with ⟨u, hu, e⟩ | ⟨r, _, e⟩ | ⟨f, _, e⟩ <;> rw [e] at h <;> cases h
  · exact .success (hc u hu)
  · exact .failure r

theorem execMgauss_ending {d : SlotField} {s t : State} (h : execMgauss d s = .next t) : Ending s (.mgauss d) t := by
  unfold execMgauss at h
  split at h
  · exact .of_finish h fun _ hu => nomatch hu
  next m _ =>
    split at h
    · exact .of_finish h (.ok (.slot rfl _))
    next row _ =>
      rw [raising, finish_raise] at h
      cases h
      exact .singular rfl ..

/-- Everything a command that ends can have done. Each `bind` below passes over one check of the command, and the last
step is its effect. -/
theorem exec_ending {i : Instr} {s t : State} (h : exec i s = .next t) : Ending s i t := by
  cases i with
  | mgauss d => exact execMgauss_ending h
  | nop => exact .of_finish (c := .ok s) h (.ok .nothing)
  | fadd | fmul | fexp | emget => exact .of_finish h (.bind fun _ => .bind fun _ => .ok (.result (by simp) _))
  | fdiv => exact .of_finish h (.bind fun _ => .bind fun _ => .bind fun _ => .ok (.result (by simp) _))
  | finv => exact .of_finish h (.bind fun _ => .bind fun _ => .ok (.result (by simp) _))
  | mget a => exact .of_finish h (.bind fun _ => .bind fun _ => .bind fun _ => .ok (.result (by simp) _))
  | mdim a => exact .of_finish h (.bind fun _ => .ok (.shape a _ _))
  | mcreate d | mident d | mvand d | emexport d =>
    exact .of_finish h (.bind fun _ => .bind fun _ => .ok (.slot rfl _))
  | mset d => exact .of_finish h (.bind fun _ => .bind fun _ => .bind fun _ => .bind fun _ => .ok (.slot rfl _))
  | mswap d | msub d a => exact .of_finish h (.bind fun _ => .bind fun _ => .bind fun _ => .ok (.slot rfl _))
  | mtimes d a b | minv d a =>
    exact .of_finish h (.bind fun _ => .bind fun _ => .bind fun _ => .bind fun _ => .ok (.slot rfl _))
  | maug d a b =>
    exact .of_finish h
      (.bind fun _ => .bind fun _ => .bind fun _ => .bind fun _ => .bind fun _ => .ok (.slot rfl _))
  | check a => exact .of_finish h (.bind fun _ => .raising _)
  | config => exact .of_finish h (.bind fun _ => .bind fun _ => .bind fun _ => .bind fun _ => .ok (.coder _))
  | mgetrow a =>
    refine .of_finish h ?_
    iterate 6 refine .bind fun _ => ?_
    exact .ok (.bytes (by simp) _)
  | code a =>
    refine .of_finish h ?_
    iterate 10 refine .bind fun _ => ?_
    exact State.codeLoop_gives.mono fun | _, ⟨m, rfl⟩ => .bytes (by simp) m
  | encode =>
    refine .of_finish h ?_
    iterate 8 refine .bind fun _ => ?_
    exact State.codeLoop_gives.mono fun | _, ⟨m, rfl⟩ => .bytes (by simp) m
  | decode =>
    refine .of_finish h ?_
    iterate 11 refine .bind fun _ => ?_
    split
    · exact State.decodeFast_gives
    · exact State.decodeGeneral_gives

/-! ### The frame of an effect -/

theorem Effect.srstPending_eq {i : Instr} {s u : State} (h : Effect s i u) : u.srstPending = s.srstPending := by
  cases h <;> rfl

theorem Effect.coder_eq {i : Instr} {s u : State} (h : Effect s i u) (hi : i ≠ .config) : u.coder = s.coder := by
  cases h with
  | coder => exact absurd rfl hi
  | nothing | result | shape | slot | bytes | shards => rfl

theorem Effect.slot_eq {i : Instr} {s u : State} {j : SlotField} (h : Effect s i u) (hj : destination i ≠ some j) :
    u.slot j = s.slot j := by
  cases h with
  | slot hd a => exact s.slot_setSlot_other a fun e => hj (e ▸ hd)
  | nothing | result | shape | bytes | shards | coder => rfl

theorem State.slot_scrambleSlot_other (s : State) {d j : SlotField} (rows cols : Nat) (h : d ≠ j) :
    (s.scrambleSlot d rows cols).slot j = s.slot j := s.slot_setSlot_other _ h

/-! ### What a completion without a pending soft reset leaves -/

section Finished

variable {s : State} (hs : s.srstPending = false) (detail cause : Byte) (info : Nat) (failed : Bool)
include hs

theorem State.finished_coder : (s.finished detail cause info failed).coder = s.coder := by
  rw [State.finished_no_reset _ _ _ _ _ hs]

theorem State.finished_slot (j : SlotField) : (s.finished detail cause info failed).slot j = s.slot j := by
  rw [State.finished_no_reset _ _ _ _ _ hs]; rfl

/-- ERR_CODE's low byte is the cause (10_state.md R28). -/
theorem State.finished_cause : (s.finished detail cause info failed).errCode.extractLsb' 0 8 = cause := by
  rw [State.finished_no_reset _ _ _ _ _ hs]
  exact BitVec.extractLsb'_append_eq_right

end Finished

/-! ### The writers -/

/-- 10_state.md R33. -/
theorem Ending.coder_eq {i : Instr} {s t : State} (h : Ending s i t) (hs : s.srstPending = false)
    (hi : i ≠ .config ∨ t.errCode.extractLsb' 0 8 ≠ 0) : t.coder = s.coder := by
  cases h with
  | success hu =>
    have hp := hu.srstPending_eq.trans hs
    have hi : i ≠ .config := hi.resolve_right fun hc => hc (State.finished_cause hp ..)
    exact (State.finished_coder hp ..).trans (hu.coder_eq hi)
  | failure r => exact State.finished_coder hs ..
  | singular => exact State.finished_coder (s := s.scrambleSlot ..) hs ..

/-- 10_state.md R32. -/
theorem Ending.slot_eq {i : Instr} {s t : State} {j : SlotField} (h : Ending s i t) (hs : s.srstPending = false)
    (hj : destination i ≠ some j) : t.slot j = s.slot j := by
  cases h with
  | success hu => exact (State.finished_slot (hu.srstPending_eq.trans hs) ..).trans (hu.slot_eq hj)
  | failure r => exact State.finished_slot hs ..
  | singular hi rows cols row =>
    subst hi
    exact (State.finished_slot (s := s.scrambleSlot ..) hs ..).trans
      (s.slot_scrambleSlot_other rows cols fun e => hj (e ▸ rfl))

/-- 00_scope.md R15, with the exception of 41_matrix.md R167. -/
theorem Ending.slot_eq_of_failed {i : Instr} {s t : State} {j : SlotField} (h : Ending s i t)
    (hs : s.srstPending = false) (hf : t.errCode.extractLsb' 0 8 ≠ 0) (hj : i ≠ .mgauss j) : t.slot j = s.slot j := by
  cases h with
  | success hu => exact absurd (State.finished_cause (hu.srstPending_eq.trans hs) ..) hf
  | failure r => exact State.finished_slot hs ..
  | singular hi rows cols row =>
    exact (State.finished_slot (s := s.scrambleSlot ..) hs ..).trans
      (s.slot_scrambleSlot_other rows cols fun e => hj (e ▸ hi))

/-- Settles O49: everything a command that ends can have done (`exec_ending`), and the frame of each ending. -/
theorem slotAndCoderWriters : Obligations.SlotAndCoderWriters := by
  intro i s t j hs h
  have hend := exec_ending h
  exact ⟨hend.coder_eq hs, hend.slot_eq hs, hend.slot_eq_of_failed hs⟩

end Sys2Proof.Machine
end

section
/-! PROOF. Every step keeps the invariant: what each update of the state asks for to keep it, what the passed checks of
a command give, and from these the commands, the host accesses and the step. -/

namespace Sys2Proof.Machine

/-! ### What a check phase gives once a check has passed -/

section Gives

variable {α β : Type} {P : α → Prop} {s : State}

/-- The second part may use what the first part gave. -/
theorem Gives.bind_of_eq {x : Check β} {f : β → Check α} (h : ∀ b, x = .ok b → Gives (f b) P) : Gives (x >>= f) P :=
  fun a ha =>
    have ⟨b, hb, hf⟩ := (check_bind_eq_ok x f a).1 ha
    h b hb a hf

theorem Gives.raiseIf {c : Prop} [Decidable c] {r : Raise} {f : Unit → Check α} (h : ¬ c → Gives (f ()) P) :
    Gives (raiseIf c r >>= f) P :=
  .bind_of_eq fun _ hu => h ((raiseIf_ok_iff r _).1 hu)

/-- The branch a passed check leaves. -/
theorem Gives.of_ite_error {c : Prop} [Decidable c] {e : Stop} {k : Check α} (h : ¬ c → Gives k P) :
    Gives (if c then .error e else k) P := by
  split
  · exact fun _ ha => nomatch ha
  next hc => exact h hc

/-- 41_matrix.md R141. -/
theorem Gives.readSlot {m : SlotField} {f : Matrix → Check α} (h : (s.slot m).rows ≠ 0 → Gives (f (s.slot m)) P) :
    Gives (s.readSlot m >>= f) P := by
  rw [State.readSlot_bind]
  exact .of_ite_error h

/-- 10_state.md R33. -/
theorem Gives.readCoder {f : Coder → Check α} (h : ∀ c, s.coder = some c → Gives (f c) P) :
    Gives (s.readCoder >>= f) P := by
  cases hc : s.coder with
  | none => rw [State.readCoder_none s hc]; exact fun _ ha => nomatch ha
  | some c => rw [State.readCoder_some s c hc]; exact h c hc

/-- 41_matrix.md R150, R152. -/
theorem Gives.checkDims {rows cols : Int} {f : Unit → Check α}
    (h : (1 ≤ rows ∧ rows ≤ 256) ∧ (1 ≤ cols ∧ cols ≤ 512) → Gives (f ()) P) :
    Gives (checkDims rows cols >>= f) P :=
  .raiseIf fun hc => h (by push Not at hc; simpa [and_assoc] using hc)

/-- 41_matrix.md R153. -/
theorem Gives.checkIndex {a : Matrix} {row col : Int} {f : Unit → Check α}
    (h : row.toNat < a.rows → col.toNat < a.cols → Gives (f ()) P) : Gives (a.checkIndex row col >>= f) P :=
  .raiseIf fun hc => h (by omega) (by omega)

/-- 10_state.md R41. -/
theorem Gives.checkPlaced {ks : List Nat} {f : Unit → Check α}
    (h : (∀ k ∈ ks, s.base k + s.len k ≤ s.par.bufBytes) → Gives (f ()) P) : Gives (s.checkPlaced ks >>= f) P := by
  rw [State.checkPlaced_bind]
  exact .of_ite_error fun hc => h (by push Not at hc; exact hc)

/-- 42_coding_loop.md R183: the touched ranges lie inside BUFMEM. -/
theorem Gives.rangeCheck {ks : List Nat} {off cnt : Nat} {f : Unit → Check α}
    (h : (∀ k ∈ ks, s.base k + off + cnt ≤ s.par.bufBytes) → Gives (f ()) P) :
    Gives (s.rangeCheck ks off cnt >>= f) P := by
  rw [State.rangeCheck_bind]
  refine .of_ite_error fun hplaced => .of_ite_error fun hlen => h fun k hk => ?_
  push Not at hplaced hlen
  have := hplaced k hk
  have := hlen k hk
  omega

/-- 43_erasure_coder.md R212: every output has room for l bytes. -/
theorem Gives.checkOutputs {pres : List Tagged} {outs : List Nat} {l : Nat} {f : Unit → Check α}
    (h : (∀ o ∈ outs, l ≤ s.len o) → Gives (f ()) P) : Gives (s.checkOutputs pres outs l >>= f) P :=
  .bind_of_eq fun _ hu => h <| by
    obtain ⟨_, hroom, _⟩ := (check_bind_eq_ok _ _ _).1 hu
    simpa [List.all_eq_false] using (raiseIf_ok_iff _ _).1 hroom

end Gives

/-- 41_matrix.md R165. -/
theorem orSingular_eq_ok {α : Type} {x : Except Nat α} {v : α} : orSingular x = .ok v ↔ x = .ok v := by
  cases x <;> simp [orSingular, raising]

/-! ### Matrices that fit a slot -/

namespace Matrix.SlotOk

variable {a b : Matrix}

theorem cols_pos (h : a.SlotOk) (hr : a.rows ≠ 0) : 1 ≤ a.cols :=
  Nat.one_le_iff_ne_zero.2 fun hc => hr (h.empty_iff.2 hc)

theorem of_sameShape (h : a.SlotOk) (hb : a.SameShape b) : b.SlotOk := by
  obtain ⟨hrows, hcols, hshaped⟩ := hb
  exact ⟨hrows ▸ h.rows_le, hcols ▸ h.cols_le, by rw [hrows, hcols]; exact h.empty_iff, hshaped⟩

end Matrix.SlotOk

/-- A non-empty matrix of at most 256 rows and 512 columns fits a slot (10_state.md R31). -/
theorem Matrix.Shaped.slotOk {a : Matrix} (h : a.Shaped) (hr : 1 ≤ a.rows ∧ a.rows ≤ 256)
    (hc : 1 ≤ a.cols ∧ a.cols ≤ 512) : a.SlotOk :=
  ⟨hr.2, hc.2, by omega, h⟩

/-- EM fits a slot (10_state.md R33). -/
theorem Coder.Ok.em_slotOk {c : Coder} (h : c.Ok) : c.em.SlotOk := by
  have := h.d_pos
  have := h.total_le
  exact h.em_shaped.slotOk (by rw [h.em_rows]; omega) (by rw [h.em_cols]; omega)

/-- The coder state CONFIG builds (43_erasure_coder.md R200). -/
theorem Coder.ok_of_buildEM {poly : BitVec 9} {d p : Nat} {em : Matrix} (hd : 1 ≤ d) (ht : d + p ≤ 256)
    (h : buildEM poly d p = .ok em) : Coder.Ok { d := d, p := p, em := em, pr := em.msub d 0 (d + p) d } := by
  obtain ⟨_, _, _, hrows, hcols, hshaped⟩ := buildEM_ok poly d p em h
  refine ⟨hd, ht, hrows, hcols, hshaped, Nat.add_sub_cancel_left .., rfl, Matrix.build_shaped .., fun i j hi hj => ?_⟩
  calc (em.msub d 0 (d + p) d).get i j
      _ = em.get (d + i) (0 + j) := Matrix.get_build _ _ _ i j (Nat.lt_sub_iff_add_lt'.2 (Nat.add_lt_add_left hi d)) hj
      _ = em.get (d + i) j := by rw [Nat.zero_add]

/-! ### What the parts of a command give -/

/-- MGAUSS works on its slot's matrix (41_matrix.md R167). -/
theorem gaussOperand_gives {s : State} {d : SlotField} : Gives (gaussOperand d s) (· = s.slot d) :=
  .bind fun _ => .readSlot fun _ => .raiseIf (P := (· = s.slot d)) fun _ => .ok rfl

/-- Every payload read has the length asked for (43_erasure_coder.md R211). -/
theorem State.payloads_length {s : State} (pres : List Tagged) (l : Nat) (ts : List Nat) :
    Gives (s.payloads pres l ts) fun shards => ∀ bytes, some bytes ∈ shards → bytes.length = l := by
  induction ts with
  | nil => exact .ok fun _ hb => nomatch hb
  | cons t rest ih =>
    unfold State.payloads
    split
    next => exact .bind_of_eq fun more hmore => .ok fun bytes hb => ih more hmore bytes (by simpa using hb)
    next k _ =>
      refine .bind_of_eq fun block hblock => .bind_of_eq fun more hmore => .ok fun bytes hb => ?_
      rcases List.mem_cons.1 hb with e | hb
      · exact Option.some.inj e ▸ s.readBlock_length _ _ _ hblock
      · exact ih more hmore bytes hb

theorem length_codeRow (poly : BitVec 9) (ins : List (List Byte)) (cnt : Nat) (row : List Byte) :
    (codeRow poly ins cnt row).length = cnt := by simp [codeRow]

/-- A decoded shard has the payload length, for a range that ends inside it (43_erasure_coder.md R213). -/
theorem length_rebuild {poly : BitVec 9} {ins : List (List Byte)} {l off cnt : Nat} {row : List Byte}
    {present : Option (List Byte)} (hpresent : ∀ bytes, present = some bytes → bytes.length = l)
    (hrange : off + cnt ≤ l) : (rebuild poly ins l off cnt row present).length = l := by
  cases present with
  | some bytes => exact hpresent bytes rfl
  | none => simp [rebuild, spliceZero, length_codeRow]; omega

/-- An entry of a list of shards, absent beyond its end, is one of the list when it is present. -/
theorem mem_of_getD_eq_some {shards : List (Option (List Byte))} {t : Nat} {bytes : List Byte}
    (h : shards.getD t none = some bytes) : some bytes ∈ shards := by
  rw [List.getD_eq_getElem?_getD] at h
  cases hx : shards[t]? with
  | none => rw [hx] at h; cases h
  | some x =>
    rw [hx] at h
    exact List.mem_of_getElem? (hx.trans (congrArg some h))

/-! ### What keeps the invariant: the updates -/

theorem Memory.writeAll_wf (s : State) (off : Nat) (l : List (Nat × List Byte)) (m : Memory) (h : m.wf = true) :
    (Memory.writeAll s off m l).wf = true := by
  induction l generalizing m with
  | nil => exact h
  | cons x rest ih => exact ih _ (Memory.writeBlock_wf m _ _ h)

/-- Blocks that end at or below n keep every listed address below n. -/
theorem Memory.writeAll_below (s : State) (off n : Nat) (l : List (Nat × List Byte)) (m : Memory)
    (hm : ∀ x ∈ m, x.1 < n) (hl : ∀ x ∈ l, s.base x.1 + off + x.2.length ≤ n) :
    ∀ x ∈ Memory.writeAll s off m l, x.1 < n := by
  induction l generalizing m with
  | nil => exact hm
  | cons x rest ih =>
    exact ih _ (Memory.writeBlock_below m _ _ n hm (.inr (hl x (List.mem_cons_self ..))))
      fun y hy => hl y (List.mem_cons_of_mem _ hy)

theorem Raise.cause_le (r : Raise) : r.cause.toNat ≤ 7 := by cases r <;> simp [Raise.cause]

/-- ERR_CODE's reserved byte is 0 after a completion (10_state.md R28). -/
theorem State.finished_reserved {s : State} (hs : s.srstPending = false) (detail cause : Byte) (info : Nat)
    (failed : Bool) : (s.finished detail cause info failed).errCode.extractLsb' 24 8 = 0 := by
  rw [State.finished_no_reset _ _ _ _ _ hs]
  exact (BitVec.extractLsb'_append_eq_of_le (by decide)).trans <|
    (BitVec.extractLsb'_append_eq_of_le (by decide)).trans BitVec.extractLsb'_append_eq_left

namespace State.Inv

variable {s t : State} (h : s.Inv)
include h

theorem setResult0 (v : Word) : (s.setResult0 v).Inv := { h with }

theorem setResult1 (v : Word) : (s.setResult1 v).Inv := { h with }

theorem setSlot {d : SlotField} {a : Matrix} (ha : a.SlotOk) : (s.setSlot d a).Inv :=
  { h with
    slots_ok := fun m => by
      rw [State.slot_setSlot]
      split
      · exact ha
      · exact h.slots_ok m }

/-- The free values keep the slot's shape (41_matrix.md R167). -/
theorem scrambleSlot {m : Matrix} (hm : m.SlotOk) (d : SlotField) : (s.scrambleSlot d m.rows m.cols).Inv :=
  have hfree : (Matrix.build m.rows m.cols fun r c => Config.freeByte (s.draws + r * m.cols + c)).SlotOk :=
    hm.of_sameShape ⟨rfl, rfl, Matrix.build_shaped ..⟩
  { h.setSlot (d := d) hfree with }

theorem setMem {m : Memory} (hwf : m.wf = true) (hbelow : ∀ x ∈ m, x.1 < s.par.bufBytes) : (s.setMem m).Inv :=
  { h with mem_wf := hwf, mem_below := hbelow }

theorem setCoder {c : Coder} (hok : c.Ok) (hem : buildEM s.par.fieldPoly c.d c.p = .ok c.em) : (s.setCoder c).Inv :=
  { h with
    coder_ok := fun _ hc => Option.some.inj hc ▸ hok
    coder_em := fun _ hc => Option.some.inj hc ▸ hem }

theorem setDesc {k : Nat} (hk : k < 1024) (d : Desc) : (s.setDesc k d).Inv :=
  { h with bd_ok := s.setDesc_ok k d h.bd_ok hk }

theorem softReset : s.softReset.Inv where
  mem_wf := h.mem_wf
  mem_below := h.mem_below
  bd_ok := ⟨.nil, fun _ hx => (nomatch hx), fun _ hx => (nomatch hx)⟩
  slots_ok m := by rw [State.slot_softReset]; exact Matrix.empty_slotOk
  coder_ok _ hc := nomatch hc
  coder_em _ hc := nomatch hc
  pending_busy hp := nomatch hp
  report_reserved := by simp
  report_cause := by simp

theorem finished {detail cause : Byte} {info : Nat} {failed : Bool} (hc : cause.toNat ≤ 7) :
    (s.finished detail cause info failed).Inv := by
  cases hp : s.srstPending with
  | true => rw [State.finished_reset _ _ _ _ _ hp]; exact h.softReset
  | false =>
    have hcause := State.finished_cause hp detail cause info failed
    have hreserved := State.finished_reserved hp detail cause info failed
    rw [State.finished_no_reset _ _ _ _ _ hp] at hcause hreserved ⊢
    exact
      { h with
        pending_busy := fun hb => absurd (hp.symm.trans hb) Bool.false_ne_true
        report_reserved := hreserved
        report_cause := (congrArg BitVec.toNat hcause).trans_le hc }

/-- A command keeps the invariant when its effects do. -/
theorem of_finish {c : Check State} (ht : finish s c = .next t) (hc : Gives c State.Inv) : t.Inv := by
  rcases finish_cases s c with ⟨u, hu, e⟩ | ⟨r, _, e⟩ | ⟨f, _, e⟩ <;> rw [e] at ht <;> cases ht
  · exact (hc u hu).finished (by decide)
  · exact h.finished r.cause_le

/-- Blocks of at most n bytes, written to buffers with room for them. -/
theorem writeBlocks {off n : Nat} {outs : List Nat} {blocks : List (List Byte)}
    (hroom : ∀ o ∈ outs, s.base o + off + n ≤ s.par.bufBytes) (hlen : ∀ b ∈ blocks, b.length ≤ n) :
    (State.writeBlocks off s (outs.zip blocks)).Inv := by
  rw [State.writeBlocks_eq]
  refine h.setMem (Memory.writeAll_wf _ _ _ _ h.mem_wf) (Memory.writeAll_below _ _ _ _ _ h.mem_below fun x hx => ?_)
  obtain ⟨ho, hb⟩ := List.of_mem_zip hx
  have := hroom _ ho
  have := hlen _ hb
  omega

end State.Inv

/-! ### What keeps the invariant: the matrix commands -/

section Commands

variable {s t : State} (hs : s.Inv)
include hs

theorem execMcreate_keepsInv {d : SlotField} (h : execMcreate d s = .next t) : t.Inv :=
  hs.of_finish h <| .bind fun _ => .checkDims fun hdims => .ok <| hs.setSlot <|
    (Matrix.build_shaped ..).slotOk (by simp; omega) (by simp; omega)

theorem execMident_keepsInv {d : SlotField} (h : execMident d s = .next t) : t.Inv :=
  hs.of_finish h <| .bind fun _ => .raiseIf fun (hn : ¬ (s.arg 0 < 1 ∨ s.arg 0 > 256)) => .ok <| hs.setSlot <|
    (Matrix.build_shaped ..).slotOk (by simp; omega) (by simp; omega)

theorem execMvand_keepsInv {d : SlotField} (h : execMvand d s = .next t) : t.Inv :=
  hs.of_finish h <| .bind fun _ => .checkDims fun hdims => .ok <| hs.setSlot <|
    (Matrix.build_shaped ..).slotOk (by simp; omega) (by simp; omega)

theorem execMset_keepsInv {d : SlotField} (h : execMset d s = .next t) : t.Inv :=
  hs.of_finish h <| .bind fun _ => .readSlot fun _ => .checkIndex fun hrow _ => .bind fun _ => .ok <| hs.setSlot <|
    (hs.slots_ok d).of_sameShape ⟨rfl, rfl, Matrix.setEntry_shaped _ _ _ _ (hs.slots_ok d).shaped hrow⟩

theorem execMsub_keepsInv {d a : SlotField} (h : execMsub d a s = .next t) : t.Inv :=
  hs.of_finish h <| .bind fun _ => .readSlot fun _ => .raiseIf fun hin => .ok <| hs.setSlot <|
    have hrows := (hs.slots_ok a).rows_le
    have hcols := (hs.slots_ok a).cols_le
    (Matrix.build_shaped ..).slotOk (by simp; omega) (by simp; omega)

theorem execMaug_keepsInv {d a b : SlotField} (h : execMaug d a b s = .next t) : t.Inv :=
  hs.of_finish h <| .bind fun _ => .readSlot fun hl => .readSlot fun _ => .raiseIf fun _ =>
    .raiseIf fun (hsum : ¬ (s.slot a).cols + (s.slot b).cols > 512) => .ok <| hs.setSlot <|
      have hrows := (hs.slots_ok a).rows_le
      have hcols := (hs.slots_ok a).cols_pos hl
      (Matrix.build_shaped ..).slotOk (by simp; omega) (by simp; omega)

theorem execMswap_keepsInv {d : SlotField} (h : execMswap d s = .next t) : t.Inv :=
  hs.of_finish h <| .bind fun _ => .readSlot fun _ => .raiseIf fun hin => .ok <| hs.setSlot <|
    (hs.slots_ok d).of_sameShape
      ⟨rfl, rfl, Matrix.swapRows_shaped _ _ _ (hs.slots_ok d).shaped (by omega) (by omega)⟩

theorem execMtimes_keepsInv {d a b : SlotField} (h : execMtimes d a b s = .next t) : t.Inv :=
  hs.of_finish h <| .bind fun _ => .readSlot fun hl => .readSlot fun hr => .raiseIf fun _ => .ok <| hs.setSlot <|
    have hrows := (hs.slots_ok a).rows_le
    have hcols := (hs.slots_ok b).cols_le
    have hpos := (hs.slots_ok b).cols_pos hr
    (Matrix.build_shaped ..).slotOk (by simp; omega) (by simp; omega)

theorem execMinv_keepsInv {d a : SlotField} (h : execMinv d a s = .next t) : t.Inv :=
  hs.of_finish h <| .bind fun _ => .readSlot fun hne => .raiseIf fun _ => .bind_of_eq fun inv hinv =>
    .ok <| hs.setSlot <| by
      have hrows := (hs.slots_ok a).rows_le
      obtain ⟨hr, hc, hshaped⟩ := Matrix.minvert_shape _ _ inv (orSingular_eq_ok.1 hinv)
      exact hshaped.slotOk (by omega) (by omega)

theorem execMgauss_keepsInv {d : SlotField} (h : execMgauss d s = .next t) : t.Inv := by
  unfold execMgauss at h
  split at h
  · exact hs.of_finish h fun _ hu => nomatch hu
  next m hm =>
    obtain rfl : m = s.slot d := gaussOperand_gives m hm
    have hslot := hs.slots_ok d
    split at h
    next w hw => exact hs.of_finish h (.ok (hs.setSlot (hslot.of_sameShape (Matrix.gauss_shape _ _ _ hslot.shaped hw))))
    next => exact (hs.scrambleSlot hslot d).of_finish h (.raising _)

/-! ### What keeps the invariant: the commands that write BUFMEM -/

/-- The coding loop writes its range of the output buffers (42_coding_loop.md R180). -/
theorem State.codeLoop_keepsInv {rows : List (List Byte)} {ins outs : List Nat} {off cnt : Nat}
    (hroom : ∀ o ∈ outs, s.base o + off + cnt ≤ s.par.bufBytes) :
    Gives (s.codeLoop rows ins outs off cnt) State.Inv := by
  unfold State.codeLoop
  split
  · exact .ok hs
  · exact .bind fun _ => .ok (hs.writeBlocks hroom fun b hb => by
      obtain ⟨row, _, rfl⟩ := List.mem_map.1 hb
      exact (length_codeRow ..).le)

theorem execMgetrow_keepsInv {a : SlotField} (h : execMgetrow a s = .next t) : t.Inv :=
  hs.of_finish h <| .bind fun _ => .readSlot fun _ => .raiseIf fun _ => .bind fun _ => .checkPlaced fun hplaced =>
    .raiseIf fun hlen => .ok <| by
      have hroom := hplaced _ (List.mem_singleton.2 rfl)
      exact hs.setMem (Memory.writeBlock_wf _ _ _ hs.mem_wf)
        (Memory.writeBlock_below _ _ _ _ hs.mem_below (.inr (by simp; omega)))

theorem execCode_keepsInv {a : SlotField} (h : execCode a s = .next t) : t.Inv := by
  refine hs.of_finish h ?_
  iterate 8 refine .bind fun _ => ?_
  exact .rangeCheck fun hroom => .bind fun _ =>
    State.codeLoop_keepsInv hs fun o ho => hroom o (List.mem_append_right _ ho)

theorem execEncode_keepsInv (h : execEncode s = .next t) : t.Inv := by
  refine hs.of_finish h ?_
  iterate 6 refine .bind fun _ => ?_
  exact .rangeCheck fun hroom => .bind fun _ =>
    State.codeLoop_keepsInv hs fun o ho => hroom o (List.mem_append_right _ ho)

/-! ### What keeps the invariant: the coder -/

theorem execConfig_keepsInv (h : execConfig s = .next t) : t.Inv :=
  hs.of_finish h <| .raiseIf fun _ => .raiseIf fun _ => .raiseIf fun (ht : ¬ s.arg 0 + s.arg 1 > 256) =>
    .bind_of_eq fun _ hem => .ok <| hs.setCoder (Coder.ok_of_buildEM (by omega) (by omega) hem) hem

theorem execEmexport_keepsInv {d : SlotField} (h : execEmexport d s = .next t) : t.Inv :=
  hs.of_finish h <| .bind fun _ => .readCoder fun c hc => .ok <| hs.setSlot (hs.coder_ok c hc).em_slotOk

/-! ### What keeps the invariant: DECODE -/

/-- 43_erasure_coder.md R212. -/
theorem State.decodeFast_keepsInv {c : Coder} {pres : List Tagged} {outs : List Nat} {l : Nat}
    (hplaced : ∀ o ∈ outs, s.base o + s.len o ≤ s.par.bufBytes) :
    Gives (s.decodeFast c pres outs l) State.Inv :=
  .raiseIf fun _ => .checkOutputs fun hlen => .bind_of_eq fun shards hshards => .ok <| by
    refine ((hs.writeBlocks (n := l) (fun o ho => ?_) fun block hblock => ?_).setResult0 _).setResult1 _
    · have := hlen o ho
      have := hplaced o (List.mem_of_mem_take ho)
      omega
    · obtain ⟨shard, hshard, rfl⟩ := List.mem_map.1 hblock
      cases shard with
      | none => exact Nat.zero_le l
      | some bytes => exact (State.payloads_length _ _ _ shards hshards bytes hshard).le

/-- 43_erasure_coder.md R213. -/
theorem State.decodeGeneral_keepsInv {c : Coder} {pres : List Tagged} {outs : List Nat} {l off cnt : Nat}
    (hplaced : ∀ o ∈ outs, s.base o + s.len o ≤ s.par.bufBytes) (hrange : off + cnt ≤ l) :
    Gives (s.decodeGeneral c pres outs l off cnt) State.Inv :=
  .checkOutputs fun hlen => .bind fun _ => .bind_of_eq fun shards hshards => .ok <| by
    have hpresent : ∀ t bytes, shards.getD t none = some bytes → bytes.length = l := fun _ bytes h =>
      State.payloads_length _ _ _ shards hshards bytes (mem_of_getD_eq_some h)
    refine ((hs.writeBlocks (n := l) (fun o ho => ?_) fun block hblock => ?_).setResult0 _).setResult1 _
    · have := hlen o ho
      have := hplaced o ho
      omega
    · rcases List.mem_append.1 hblock with hb | hb <;> obtain ⟨t, _, rfl⟩ := List.mem_map.1 hb <;>
        exact (length_rebuild (hpresent _) hrange).le

theorem execDecode_keepsInv (h : execDecode s = .next t) : t.Inv := by
  refine hs.of_finish h ?_
  refine .bind fun _ => .bind fun _ => .raiseIf fun hpos => .bind fun _ => .bind fun _ => .checkPlaced fun hplaced => ?_
  refine .bind fun _ => .bind fun _ => .bind fun _ => .bind fun _ => .raiseIf fun hrange => ?_
  have houts := fun o ho => hplaced o (List.mem_append_right _ ho)
  split
  · exact State.decodeFast_keepsInv hs houts
  · exact State.decodeGeneral_keepsInv hs houts (by omega)

end Commands

/-! ### What keeps the invariant: every command -/

theorem exec_keepsInv {i : Instr} {s t : State} (hs : s.Inv) (h : exec i s = .next t) : t.Inv := by
  cases i with
  | nop => exact hs.of_finish (c := .ok s) h (.ok hs)
  | fadd | fmul | fexp | emget => exact hs.of_finish h (.bind fun _ => .bind fun _ => .ok (hs.setResult0 _))
  | fdiv => exact hs.of_finish h (.bind fun _ => .bind fun _ => .bind fun _ => .ok (hs.setResult0 _))
  | finv => exact hs.of_finish h (.bind fun _ => .bind fun _ => .ok (hs.setResult0 _))
  | mget a => exact hs.of_finish h (.bind fun _ => .bind fun _ => .bind fun _ => .ok (hs.setResult0 _))
  | mdim a => exact hs.of_finish h (.bind fun _ => .ok ((hs.setResult0 _).setResult1 _))
  | check a => exact hs.of_finish h (.bind fun _ => .raising _)
  | mcreate d => exact execMcreate_keepsInv hs h
  | mident d => exact execMident_keepsInv hs h
  | mvand d => exact execMvand_keepsInv hs h
  | mset d => exact execMset_keepsInv hs h
  | mgetrow a => exact execMgetrow_keepsInv hs h
  | msub d a => exact execMsub_keepsInv hs h
  | maug d a b => exact execMaug_keepsInv hs h
  | mswap d => exact execMswap_keepsInv hs h
  | mtimes d a b => exact execMtimes_keepsInv hs h
  | mgauss d => exact execMgauss_keepsInv hs h
  | minv d a => exact execMinv_keepsInv hs h
  | code a => exact execCode_keepsInv hs h
  | config => exact execConfig_keepsInv hs h
  | encode => exact execEncode_keepsInv hs h
  | decode => exact execDecode_keepsInv hs h
  | emexport d => exact execEmexport_keepsInv hs h

/-! ### What a host write can do -/

/-- `HostWrite s v r t`: a host write of `v` to register `r` in `s` can leave `t` (44_control.md R241, R243, R244). -/
inductive HostWrite (s : State) (v : Word) (r : Reg) : State → Prop
  | ignored : HostWrite s v r s
  | ctrl : HostWrite s v r (s.writeCtrl v)
  | status : HostWrite s v r (s.clearStatus v)
  | cmd : HostWrite s v r (s.writeCmd v)
  | arg (i : Fin 8) : HostWrite s v r { s with args := s.args.set i v }
  | desc {k : Nat} (hr : r = .bdBase k ∨ r = .bdLen k) (d : Desc) : HostWrite s v r (s.setDesc k d)

theorem State.writeReg_hostWrite {s t : State} {v : Word} {r : Reg} (h : s.writeReg v r = .next t) :
    HostWrite s v r t := by
  cases r with
  | ctrl => cases h; exact .ctrl
  | status => cases h; exact .status
  | cmd => cases h; exact .cmd
  | arg i => cases h; exact .arg i
  | bdBase k =>
    rcases s.writeDesc_cases k { s.desc k with base := v } with ⟨_, e⟩ | ⟨_, e⟩ <;> cases e.symm.trans h
    exact .desc (.inl rfl) _
  | bdLen k =>
    rcases s.writeDesc_cases k { s.desc k with len := v } with ⟨_, e⟩ | ⟨_, e⟩ <;> cases e.symm.trans h
    exact .desc (.inr rfl) _
  | id | version | errCode | errInfo | result0 | result1 | cfgD | cfgP | cfgT | pNmat | pNdesc | pBufmem | pPoly
  | multab | reserved => cases h; exact .ignored

theorem getD_lowRegs_mem (n : Nat) : lowRegs.getD n .reserved ∈ Reg.reserved :: lowRegs := by
  rw [List.getD_eq_getElem?_getD]
  cases h : lowRegs[n]? with
  | none => exact List.mem_cons_self ..
  | some r => exact List.mem_cons_of_mem _ (List.mem_of_getElem? h)

/-- The offsets name the descriptors below NDESC only (10_state.md R44). -/
theorem regAt_desc_lt {off : BitVec 15} {k : Nat} (h : regAt off = .bdBase k ∨ regAt off = .bdLen k) : k < 1024 := by
  have hlow := getD_lowRegs_mem off.toNat
  simp only [regAt, Config.ndesc] at h
  split_ifs at h
  · rcases h with h | h <;> rw [h] at hlow <;> simp [lowRegs] at hlow
  all_goals simp only [Reg.bdBase.injEq, Reg.bdLen.injEq, or_false, false_or] at h
  all_goals omega

/-! ### What keeps the invariant: the host's accesses and the step -/

namespace State.Inv

variable {s t : State} (h : s.Inv)
include h

theorem writeCtrl (v : Word) : (s.writeCtrl v).Inv := by
  unfold State.writeCtrl
  dsimp only
  split
  · split
    next hb => exact { h with pending_busy := fun _ => hb }
    · exact { h.softReset with }
  · exact { h with }

theorem writeCmd (v : Word) : (s.writeCmd v).Inv := by
  unfold State.writeCmd
  split
  · exact { h with }
  · exact { h with pending_busy := fun _ => rfl }

theorem mmioWrite {off : BitVec 15} {v : Word} (ht : s.mmioWrite off v = .next t) : t.Inv := by
  cases State.writeReg_hostWrite ht with
  | ignored => exact h
  | ctrl => exact h.writeCtrl v
  | status => exact { h with }
  | cmd => exact h.writeCmd v
  | arg i => exact { h with }
  | desc hr d => exact h.setDesc (regAt_desc_lt hr) d

theorem bufWrite {addr : Nat} {v : Byte} (ht : s.bufWrite addr v = .next t) : t.Inv := by
  rcases s.bufWrite_cases addr v with ⟨_, e⟩ | ⟨_, _, e⟩ | ⟨haddr, _, e⟩ <;> cases e.symm.trans ht
  · exact h
  · refine h.setMem (Memory.write_wf _ _ _ h.mem_wf) fun x hx => ?_
    rcases Memory.mem_write _ _ _ x hx with rfl | hx
    · exact haddr
    · exact h.mem_below x hx

theorem bufRead {addr : Nat} (ht : s.bufRead addr = .next t) : t.Inv := by
  rcases s.bufRead_cases addr with ⟨_, e⟩ | ⟨_, _, e⟩ | ⟨_, _, ⟨b, _, e⟩ | ⟨_, e⟩⟩ <;> cases e.symm.trans ht <;>
    exact { h with }

theorem hardReset : s.hardReset.Inv := { h.softReset with mem_wf := rfl, mem_below := fun _ hx => nomatch hx }

/-- A word that is no command completes with ILLEGAL; any other is a command (44_control.md R242). -/
theorem runWord {w : Word} (ht : runWord w s = .next t) : t.Inv := by
  unfold Machine.runWord at ht
  split at ht
  next r _ =>
    rw [State.failWith_eq] at ht
    cases ht
    exact h.finished r.cause_le
  · exact exec_keepsInv h ht

theorem engineStep (ht : engineStep s = .next t) : t.Inv := by
  unfold Machine.engineStep at ht
  split at ht
  · cases ht; exact h
  · exact h.runWord ht

theorem applyInput {x : Input} (ht : applyInput x s = .next t) : t.Inv := by
  cases x with
  | engine => exact h.engineStep ht
  | mmioWrite off v => exact h.mmioWrite ht
  | mmioRead off => cases ht; exact { h with }
  | bufWrite addr v => exact h.bufWrite ht
  | bufRead addr => exact h.bufRead ht
  | hardReset => cases ht; exact h.hardReset

end State.Inv

/-- Settles O3: the engine's step and every input keep the invariant, and taking an input off the list does. -/
theorem stepKeepsInvariant : Obligations.StepKeepsInvariant := by
  intro s t hs h
  unfold step at h
  split at h
  · exact hs.engineStep h
  next x rest _ =>
    have hrest : State.Inv { s with inputs := rest } := { hs with }
    exact hrest.applyInput h

end Sys2Proof.Machine
end

section
/-! PROOF. What no command writes (10_state.md R21, R23, R27, R40), what no step writes (R24, R25, R36, R37), and the
host's view of it: the registers it reads (R44) and the interrupt line (R47). -/

namespace Sys2Proof.Machine

/-! ### The registers a command leaves alone -/

theorem Effect.par_eq {i : Instr} {s u : State} (h : Effect s i u) : u.par = s.par := by cases h <;> rfl

theorem Effect.results_eq {i : Instr} {s u : State} (h : Effect s i u)
    (hi : i ∉ [.fadd, .fmul, .fdiv, .finv, .fexp, .emget, .decode]) (ha : ∀ a, i ≠ .mget a ∧ i ≠ .mdim a) :
    u.result0 = s.result0 ∧ u.result1 = s.result1 := by
  cases h with
  | result hw =>
    rcases hw with hw | ⟨a, rfl⟩
    · exact absurd (List.mem_append_left [Instr.decode] hw) hi
    · exact absurd rfl (ha a).1
  | shape a => exact absurd rfl (ha a).2
  | shards => exact absurd (by simp) hi
  | nothing | slot | bytes | coder => exact ⟨rfl, rfl⟩

theorem Effect.result1_eq {i : Instr} {s u : State} (h : Effect s i u) (hi : i ≠ .decode) (ha : ∀ a, i ≠ .mdim a) :
    u.result1 = s.result1 := by
  cases h with
  | shape a => exact absurd rfl (ha a)
  | shards => exact absurd rfl hi
  | nothing | result | slot | bytes | coder => rfl

section Finished

variable {s : State} (hs : s.srstPending = false) (detail cause : Byte) (info : Nat) (failed : Bool)
include hs

theorem State.finished_result0 : (s.finished detail cause info failed).result0 = s.result0 := by
  rw [State.finished_no_reset _ _ _ _ _ hs]

theorem State.finished_result1 : (s.finished detail cause info failed).result1 = s.result1 := by
  rw [State.finished_no_reset _ _ _ _ _ hs]

end Finished

section Ending

variable {i : Instr} {s t : State} (h : Ending s i t)
include h

/-- What a command can write with no soft reset pending, and what it leaves of DONE, the run state and ERR. -/
theorem Ending.frame (hs : s.srstPending = false) :
    ∃ failed, t = { s with
      result0 := t.result0
      result1 := t.result1
      err := s.err || failed
      done := true
      errCode := t.errCode
      errInfo := t.errInfo
      slots := t.slots
      coder := t.coder
      mem := t.mem
      run := .idle
      draws := t.draws } := by
  cases h with
  | success hu =>
    refine ⟨false, ?_⟩
    rw [State.completed, State.finished_no_reset _ _ _ _ _ (hu.srstPending_eq.trans hs)]
    cases hu <;> rfl
  | failure r => exact ⟨true, by rw [State.errored, State.finished_no_reset _ _ _ _ _ hs]⟩
  | singular =>
    refine ⟨true, ?_⟩
    rw [State.errored, State.finished_no_reset (State.scrambleSlot ..) _ _ _ _ hs]
    rfl

theorem Ending.par_eq : t.par = s.par := by
  cases h with
  | success hu => exact (State.finished_par ..).trans hu.par_eq
  | failure | singular => exact State.finished_par ..

/-- A command leaves the result registers alone, or succeeds and leaves them as its effects do (00_scope.md R15). -/
theorem Ending.results (hs : s.srstPending = false) :
    (t.result0 = s.result0 ∧ t.result1 = s.result1) ∨
    (t.errCode.extractLsb' 0 8 = 0 ∧ ∃ u, Effect s i u ∧ t.result0 = u.result0 ∧ t.result1 = u.result1) := by
  cases h with
  | success hu =>
    have hp := hu.srstPending_eq.trans hs
    exact .inr ⟨State.finished_cause hp .., _, hu, State.finished_result0 hp .., State.finished_result1 hp ..⟩
  | failure => exact .inl ⟨State.finished_result0 hs .., State.finished_result1 hs ..⟩
  | singular =>
    exact .inl ⟨State.finished_result0 (s := State.scrambleSlot ..) hs ..,
      State.finished_result1 (s := State.scrambleSlot ..) hs ..⟩

end Ending

/-- Settles O48: only a success writes the result registers, and only by an effect that names them. -/
theorem resultRegisterWriters : Obligations.ResultRegisterWriters := by
  intro i s t hs h
  rcases (exec_ending h).results hs with ⟨h0, h1⟩ | ⟨hok, u, hu, h0, h1⟩
  · exact ⟨fun _ => ⟨h0, h1⟩, fun _ _ => ⟨h0, h1⟩, fun _ _ => h1⟩
  · refine ⟨fun hf => absurd hok hf, fun hi ha => ?_, fun hi ha => h1.trans (hu.result1_eq hi ha)⟩
    obtain ⟨e0, e1⟩ := hu.results_eq hi ha
    exact ⟨h0.trans e0, h1.trans e1⟩

/-- Settles O51: each field named is one that no way of ending writes (`Ending.frame`). -/
theorem hostStateFrame : Obligations.HostStateFrame := by
  intro i s t hs h
  obtain ⟨failed, e⟩ := (exec_ending h).frame hs
  rw [e]
  exact ⟨rfl, rfl, rfl, rfl, rfl, rfl, rfl, hs, rfl, rfl, fun herr => by simp [herr]⟩

/-! ### The parameters -/

/-- A word that is no command ends as a failing command does (30_encoding.md R97, 44_control.md R242). -/
theorem runWord_ending {w : Word} {s t : State} (h : runWord w s = .next t) : ∃ i, Ending s i t := by
  unfold runWord at h
  split at h
  next r _ =>
    rw [State.failWith_eq] at h
    cases h
    exact ⟨.nop, .failure r⟩
  next i _ => exact ⟨i, exec_ending h⟩

theorem engineStep_par {s t : State} (h : engineStep s = .next t) : t.par = s.par := by
  unfold engineStep at h
  split at h
  · cases h; rfl
  · obtain ⟨_, hend⟩ := runWord_ending h
    exact hend.par_eq

theorem State.writeCtrl_par (s : State) (v : Word) : (s.writeCtrl v).par = s.par := by
  unfold State.writeCtrl
  dsimp only
  split
  · split <;> rfl
  · rfl

theorem State.writeCmd_par (s : State) (v : Word) : (s.writeCmd v).par = s.par := by
  unfold State.writeCmd
  split <;> rfl

theorem HostWrite.par_eq {s t : State} {v : Word} {r : Reg} (h : HostWrite s v r t) : t.par = s.par := by
  cases h with
  | ctrl => exact s.writeCtrl_par v
  | cmd => exact s.writeCmd_par v
  | ignored | status | arg | desc => rfl

theorem applyInput_par {x : Input} {s t : State} (h : applyInput x s = .next t) : t.par = s.par := by
  cases x with
  | engine => exact engineStep_par h
  | mmioWrite off v => exact (State.writeReg_hostWrite h).par_eq
  | mmioRead | hardReset => cases h; rfl
  | bufWrite addr v =>
    rcases s.bufWrite_cases addr v with ⟨_, e⟩ | ⟨_, _, e⟩ | ⟨_, _, e⟩ <;> cases e.symm.trans h <;> rfl
  | bufRead addr =>
    rcases s.bufRead_cases addr with ⟨_, e⟩ | ⟨_, _, e⟩ | ⟨_, _, ⟨_, _, e⟩ | ⟨_, e⟩⟩ <;> cases e.symm.trans h <;> rfl

/-- No step changes the parameters (00_scope.md R7). -/
theorem step_par {s t : State} (h : step s = .next t) : t.par = s.par := by
  unfold step at h
  split at h
  · exact engineStep_par h
  · exact (applyInput_par h).trans rfl

/-! ### The register map -/

section RegisterMap

variable {n k : Nat}

theorem regAt_reserved (h : (0x18 ≤ n ∧ n < 0x400) ∨ (0xC00 ≤ n ∧ n < 0x4000)) :
    regAt (BitVec.ofNat 15 n) = .reserved := by
  have hn : n % 2 ^ 15 = n := Nat.mod_eq_of_lt (by omega)
  simp only [regAt, BitVec.toNat_ofNat, hn, Config.ndesc]
  rcases h with h | h
  · rw [if_neg (by omega), if_neg (by omega), if_pos (by omega)]
  · rw [if_neg (by omega), if_neg (by omega), if_neg (by omega), if_neg (by omega), if_pos (by omega)]

theorem regAt_multab (h : 0x4000 ≤ n ∧ n < 0x8000) : regAt (BitVec.ofNat 15 n) = .multab (n - 0x4000) := by
  have hn : n % 2 ^ 15 = n := Nat.mod_eq_of_lt (by omega)
  simp only [regAt, BitVec.toNat_ofNat, hn, Config.ndesc]
  rw [if_neg (by omega), if_neg (by omega), if_neg (by omega), if_neg (by omega), if_neg (by omega)]

theorem regAt_bdBase (hk : k < 1024) : regAt (BitVec.ofNat 15 (0x400 + 2 * k)) = .bdBase k := by
  have hn : (0x400 + 2 * k) % 2 ^ 15 = 0x400 + 2 * k := Nat.mod_eq_of_lt (by omega)
  simp only [regAt, BitVec.toNat_ofNat, hn, Config.ndesc]
  rw [if_neg (by omega), if_neg (by omega), if_neg (by omega), if_pos (by omega), if_pos (by omega)]
  congr 1
  omega

theorem regAt_bdLen (hk : k < 1024) : regAt (BitVec.ofNat 15 (0x401 + 2 * k)) = .bdLen k := by
  have hn : (0x401 + 2 * k) % 2 ^ 15 = 0x401 + 2 * k := Nat.mod_eq_of_lt (by omega)
  simp only [regAt, BitVec.toNat_ofNat, hn, Config.ndesc]
  rw [if_neg (by omega), if_neg (by omega), if_neg (by omega), if_pos (by omega), if_neg (by omega)]
  congr 1
  omega

theorem regAt_arg (i : Fin 8) : regAt (BitVec.ofNat 15 (0x10 + i.val)) = .arg i := by
  decide +revert

end RegisterMap

/-- The registers and table entries that are constants of the machine (10_state.md R24, R25, R36). -/
def Reg.isConstant : Reg → Bool
  | .id | .version | .pNmat | .pNdesc | .pBufmem | .pPoly | .multab _ => true
  | _ => false

theorem State.readReg_constant {s t : State} (h : t.par = s.par) {r : Reg} (hr : r.isConstant = true) :
    t.readReg r = s.readReg r := by
  cases r with
  | id | version | pNmat | pNdesc => rfl
  | pBufmem | pPoly | multab => simp only [State.readReg, h]
  | _ => cases hr

/-- 10_state.md R24, R25, R36, R44. -/
theorem regAt_constant {o : Nat}
    (h : o < 0x00008 ∨ (0x00030 ≤ o ∧ o < 0x00040) ∨ (0x10000 ≤ o ∧ o < 0x20000)) :
    (regAt (BitVec.ofNat 15 (o / 4))).isConstant = true := by
  by_cases htab : 0x10000 ≤ o
  · rw [regAt_multab (by omega)]; rfl
  · have hlow : ∀ n < 16, n < 2 ∨ 12 ≤ n → (regAt (BitVec.ofNat 15 n)).isConstant = true := by decide
    exact hlow _ (by omega) (by omega)

/-- Settles O53: what a constant offset reads depends on the parameters alone, and no step changes them. -/
theorem constantsNeverChange : Obligations.ConstantsNeverChange := by
  intro s t h
  have hpar := step_par h
  exact ⟨hpar, fun o ho => State.readReg_constant hpar (regAt_constant ho)⟩

/-! ### What the host reads -/

/-- STATUS as the sum of its bits (10_state.md R27). -/
theorem State.statusWord_eq (s : State) :
    s.statusWord = BitVec.ofNat 32
      ((if s.busy then 1 else 0) + (if s.done then 2 else 0) + (if s.err then 4 else 0) +
        (if s.coder.isSome then 8 else 0) + (if s.overrun then 16 else 0)) := by
  unfold State.statusWord State.configured
  generalize s.busy = b0, s.done = b1, s.err = b2, s.coder.isSome = b3, s.overrun = b4
  decide +revert

/-- 10_state.md R29. -/
theorem State.readReg_coder_some {s : State} {c : Coder} (h : s.coder = some c) :
    s.readReg .cfgD = u32 c.d ∧ s.readReg .cfgP = u32 c.p ∧ s.readReg .cfgT = u32 (c.d + c.p) := by
  simp [State.readReg, h, Coder.t]

/-- 10_state.md R29. -/
theorem State.readReg_coder_none {s : State} (h : s.coder = none) :
    s.readReg .cfgD = 0 ∧ s.readReg .cfgP = 0 ∧ s.readReg .cfgT = 0 := by
  simp [State.readReg, h]

/-- Settles O12: the register at each offset (`regAt`), and what that register reads. -/
theorem hostReads : Obligations.HostReads := by
  intro s
  refine ⟨fun _ _ => rfl, rfl, rfl, rfl, s.statusWord_eq, rfl, rfl, rfl, rfl, rfl, fun c hc => ?_, fun hc => ?_,
    rfl, rfl, rfl, rfl, fun i => ?_, fun k hk => ⟨?_, ?_⟩, fun o ho hr => ?_⟩
  · exact State.readReg_coder_some hc
  · exact State.readReg_coder_none hc
  · have e : (0x00040 + 4 * i.val) / 4 = 0x10 + i.val := by omega
    rw [State.readOffset, e, regAt_arg]
    rfl
  · have e : (0x01000 + 8 * k) / 4 = 0x400 + 2 * k := by omega
    rw [State.readOffset, e, regAt_bdBase hk]
    rfl
  · have e : (0x01004 + 8 * k) / 4 = 0x401 + 2 * k := by omega
    rw [State.readOffset, e, regAt_bdLen hk]
    rfl
  · rw [State.readOffset, regAt_reserved (by omega)]
    rfl

/-! ### The interrupt line -/

/-- A completion with IE = 1 and no soft reset pending leaves IRQ = 1 (60_exceptions.md R280). -/
theorem Ending.irq {i : Instr} {s t : State} (h : Ending s i t) (hs : s.srstPending = false) (hie : s.ie = true) :
    t.irq = true := by
  obtain ⟨_, e⟩ := h.frame hs
  rw [e]
  exact hie

theorem State.irq_clearStatus (s : State) {v : Word} (hv : v.getLsbD 1 = true) : (s.clearStatus v).irq = false := by
  simp [State.irq, hv]

/-- With IE written as 0, or after the soft reset a write of CTRL can ask for, the line is 0. -/
theorem State.irq_writeCtrl_of_disable (s : State) {v : Word} (hv : v.getLsbD 0 = false) :
    (s.writeCtrl v).irq = false := by
  unfold State.writeCtrl
  dsimp only
  split
  · split
    · simp only [State.irq, hv, Bool.and_false]
    · rfl
  · simp only [State.irq, hv, Bool.and_false]

/-- Settles O16: what each host write makes of DONE and IE, and what a completion does. -/
theorem interruptLine : Obligations.InterruptLine := by
  intro s
  refine ⟨by simp [State.irq], fun c t hrun hin hs hie h => ?_, fun v t hv h => ?_, fun v t hv h => ?_,
    fun t hdone h => ?_, rfl⟩
  · have hrunWord : runWord c.word s = .next t := by simpa [step, hin, engineStep, hrun] using h
    obtain ⟨_, hend⟩ := runWord_ending hrunWord
    exact hend.irq hs hie
  · obtain rfl : s.clearStatus v = t := Host.Outcome.next.inj h
    exact s.irq_clearStatus hv
  · obtain rfl : s.writeCtrl v = t := Host.Outcome.next.inj h
    exact s.irq_writeCtrl_of_disable hv
  · obtain rfl : { s with ie := true } = t := Host.Outcome.next.inj h
    simp [State.irq, hdone]

end Sys2Proof.Machine
end

section
/-! PROOF. A command reads the ARG registers only through its snapshot, and of the snapshot only the registers its row
lists (10_state.md R21, 30_encoding.md R93, R96, R100): two runs that differ elsewhere agree check by check. -/

namespace Sys2Proof.Machine

/-- `s` with other live ARG registers and another snapshot beside the word in flight. -/
def State.withSnapshot (s : State) (live args : Vector Word 8) : State :=
  { s with args := live, run := .busy { word := s.cmd.word, args := args } }

/-! ### What the two states share -/

section Reads

variable (s : State) (live args : Vector Word 8)

theorem State.readBlock_withSnapshot (addr n : Nat) :
    (s.withSnapshot live args).readBlock addr n = s.readBlock addr n := by
  induction n generalizing addr with
  | zero => rfl
  | succ n ih => rw [State.readBlock, ih]; rfl

theorem State.readBlocks_withSnapshot (off cnt : Nat) (ks : List Nat) :
    (s.withSnapshot live args).readBlocks off cnt ks = s.readBlocks off cnt ks := by
  induction ks with
  | nil => rfl
  | cons k rest ih => rw [State.readBlocks, ih, State.readBlock_withSnapshot]; rfl

theorem State.readTags_withSnapshot (ks : List Nat) :
    (s.withSnapshot live args).readTags ks = s.readTags ks := by
  induction ks with
  | nil => rfl
  | cons k rest ih => rw [State.readTags, ih]; rfl

theorem State.payloads_withSnapshot (pres : List Tagged) (l : Nat) (ts : List Nat) :
    (s.withSnapshot live args).payloads pres l ts = s.payloads pres l ts := by
  induction ts with
  | nil => rfl
  | cons t rest ih =>
    rw [State.payloads, State.payloads, ih]
    simp only [State.payload, State.readBlock_withSnapshot]
    rfl

theorem State.writeBlocks_withSnapshot (off : Nat) (blocks : List (Nat × List Byte)) :
    State.writeBlocks off (s.withSnapshot live args) blocks =
      (State.writeBlocks off s blocks).withSnapshot live args := by
  induction blocks generalizing s with
  | nil => rfl
  | cons x rest ih => exact ih (s.writeBlock (s.base x.1 + off) x.2)

theorem State.writeBlocks_srstPending (off : Nat) (blocks : List (Nat × List Byte)) :
    (State.writeBlocks off s blocks).srstPending = s.srstPending := by
  rw [State.writeBlocks_eq, State.setMem_srstPending]

end Reads

/-! ### Two runs side by side -/

/-- The outcomes of two runs agree up to the live ARG registers, which the second run keeps. -/
def SameRun (live : Vector Word 8) (o o' : Host.Outcome State Fault Refusal) : Prop :=
  (∀ t, o = .next t → o' = .next { t with args := live }) ∧ ∀ f, o = .fault f → o' = .fault f

/-- Two runs of a command's phases stop in the same way, or leave states that differ in the live ARG registers and the
snapshot. -/
inductive Twin (live args : Vector Word 8) : Check State → Check State → Prop
  | ok {u : State} (h : u.srstPending = false) : Twin live args (.ok u) (.ok (u.withSnapshot live args))
  | error (e : Stop) : Twin live args (.error e) (.error e)

section Twin

variable {live args : Vector Word 8} {α : Type}

/-- A check that both runs pass with the same value. -/
theorem Twin.bind {x x' : Check α} {f f' : α → Check State} (hx : x' = x) (h : ∀ a, Twin live args (f a) (f' a)) :
    Twin live args (x >>= f) (x' >>= f') := by
  subst hx
  cases x' with
  | ok a => exact h a
  | error e => exact .error e

theorem Twin.ite {p : Prop} [Decidable p] {c c' k k' : Check State} (h : Twin live args c c')
    (hk : Twin live args k k') : Twin live args (if p then c else k) (if p then c' else k') := by
  split
  · exact h
  · exact hk

theorem State.finished_withSnapshot {s : State} (hs : s.srstPending = false) (detail cause : Byte) (info : Nat)
    (failed : Bool) :
    (s.withSnapshot live args).finished detail cause info failed =
      { s.finished detail cause info failed with args := live } := by
  rw [State.finished_no_reset (s.withSnapshot live args) _ _ _ _ hs, State.finished_no_reset s _ _ _ _ hs]
  rfl

theorem Twin.finish {s : State} {c c' : Check State} (hs : s.srstPending = false) (h : Twin live args c c') :
    SameRun live (finish s c) (finish (s.withSnapshot live args) c') := by
  cases h with
  | ok hu =>
    rw [finish_ok, finish_ok, State.completed, State.completed, State.finished_withSnapshot hu]
    exact ⟨fun t ht => (by cases ht; rfl), fun _ hf => nomatch hf⟩
  | error e =>
    cases e with
    | raise r =>
      rw [finish_raise, finish_raise, State.errored, State.errored, State.finished_withSnapshot hs]
      exact ⟨fun t ht => (by cases ht; rfl), fun _ hf => nomatch hf⟩
    | fault f => exact ⟨fun _ ht => (nomatch ht), fun _ hf => hf⟩

end Twin

section Commands

variable {s : State} {live args : Vector Word 8} (hs : s.srstPending = false)
include hs

theorem State.codeLoop_twin {rows : List (List Byte)} {ins outs : List Nat} {off cnt : Nat} :
    Twin live args (s.codeLoop rows ins outs off cnt) ((s.withSnapshot live args).codeLoop rows ins outs off cnt) := by
  unfold State.codeLoop
  split
  · exact .ok hs
  · refine .bind (s.readBlocks_withSnapshot ..) fun blocks => ?_
    rw [State.writeBlocks_withSnapshot]
    exact .ok ((s.writeBlocks_srstPending ..).trans hs)

theorem State.decodeFast_twin {c : Coder} {pres : List Tagged} {outs : List Nat} {l : Nat} :
    Twin live args (s.decodeFast c pres outs l) ((s.withSnapshot live args).decodeFast c pres outs l) :=
  .bind rfl fun _ => .bind rfl fun _ => .bind (s.payloads_withSnapshot ..) fun shards => by
    rw [State.writeBlocks_withSnapshot]
    exact .ok ((s.writeBlocks_srstPending ..).trans hs)

theorem State.decodeGeneral_twin {c : Coder} {pres : List Tagged} {outs : List Nat} {l off cnt : Nat} :
    Twin live args (s.decodeGeneral c pres outs l off cnt)
      ((s.withSnapshot live args).decodeGeneral c pres outs l off cnt) :=
  .bind rfl fun _ => .bind rfl fun _ => .bind (s.payloads_withSnapshot ..) fun shards => by
    dsimp only
    rw [State.writeBlocks_withSnapshot]
    exact .ok ((s.writeBlocks_srstPending ..).trans hs)

theorem execMgauss_sameRun {d : SlotField} :
    SameRun live (execMgauss d s) (execMgauss d (s.withSnapshot live args)) := by
  have hoperand : gaussOperand d (s.withSnapshot live args) = gaussOperand d s := rfl
  have hpar : (s.withSnapshot live args).par = s.par := rfl
  unfold execMgauss
  rw [hoperand, hpar]
  split
  next stop _ => exact (Twin.error stop).finish hs
  next m _ =>
    split
    next w _ => exact Twin.finish hs (.ok (u := s.setSlot d w) hs)
    next row _ => exact (Twin.error (.raise (.singular row))).finish (s := s.scrambleSlot d m.rows m.cols) hs

/-- Each `bind` passes over one check, which the two runs share once the registers read are replaced by the other
run's; the last step is the effect. -/
theorem exec_sameRun {i : Instr} (h : ∀ k : Fin 8, k.val < argCount i → (s.withSnapshot live args).arg k = s.arg k) :
    SameRun live (exec i s) (exec i (s.withSnapshot live args)) := by
  cases i with
  | mgauss d => exact execMgauss_sameRun hs
  | nop => exact Twin.finish (c := .ok s) (c' := .ok (s.withSnapshot live args)) hs (.ok hs)
  | check a => exact Twin.finish hs (.bind rfl fun _ => .error _)
  | mdim a => exact Twin.finish hs (.bind rfl fun _ => .ok hs)
  | emexport d => exact Twin.finish hs (.bind rfl fun _ => .bind rfl fun _ => .ok hs)
  | mtimes d a b | minv d a =>
    exact Twin.finish hs (.bind rfl fun _ => .bind rfl fun _ => .bind rfl fun _ => .bind rfl fun _ => .ok hs)
  | maug d a b =>
    exact Twin.finish hs
      (.bind rfl fun _ => .bind rfl fun _ => .bind rfl fun _ => .bind rfl fun _ => .bind rfl fun _ => .ok hs)
  | fadd | fmul | finv | fexp | mcreate d | mident d | mvand d | emget =>
    refine Twin.finish hs ?_
    simp (disch := exact of_decide_eq_true rfl) only [State.fieldArg, h]
    exact .bind rfl fun _ => .bind rfl fun _ => .ok hs
  | fdiv | mget a | mswap d | msub d a =>
    refine Twin.finish hs ?_
    simp (disch := exact of_decide_eq_true rfl) only [State.fieldArg, h]
    exact .bind rfl fun _ => .bind rfl fun _ => .bind rfl fun _ => .ok hs
  | mset d | config =>
    refine Twin.finish hs ?_
    simp (disch := exact of_decide_eq_true rfl) only [h]
    exact .bind rfl fun _ => .bind rfl fun _ => .bind rfl fun _ => .bind rfl fun _ => .ok hs
  | mgetrow a =>
    refine Twin.finish hs ?_
    simp (disch := exact of_decide_eq_true rfl) only [h]
    iterate 6 refine .bind rfl fun _ => ?_
    exact .ok hs
  | code a =>
    refine Twin.finish hs ?_
    simp (disch := exact of_decide_eq_true rfl) only [h]
    iterate 10 refine .bind rfl fun _ => ?_
    exact State.codeLoop_twin hs
  | encode =>
    refine Twin.finish hs ?_
    simp (disch := exact of_decide_eq_true rfl) only [h]
    iterate 8 refine .bind rfl fun _ => ?_
    exact State.codeLoop_twin hs
  | decode =>
    refine Twin.finish hs ?_
    simp (disch := exact of_decide_eq_true rfl) only [h]
    iterate 7 refine .bind rfl fun _ => ?_
    refine .bind (s.readTags_withSnapshot ..) fun _ => ?_
    iterate 3 refine .bind rfl fun _ => ?_
    exact .ite (State.decodeFast_twin hs) (State.decodeGeneral_twin hs)

end Commands

/-- Settles O52: the second state is the first `withSnapshot`, and the registers a command lists read the same there. -/
theorem snapshotOnly : Obligations.SnapshotOnly := by
  intro i s c live args hrun hargs hs
  have hcmd := s.cmd_busy c hrun
  have hstate : { s with args := live, run := .busy { word := c.word, args := args } } = s.withSnapshot live args := by
    rw [State.withSnapshot, hcmd]
  rw [hstate]
  refine exec_sameRun hs fun k hk => ?_
  calc (s.withSnapshot live args).arg k
      _ = sint32 c.args[k] := congrArg sint32 (hargs k hk)
      _ = s.arg k := by rw [State.arg, hcmd]

end Sys2Proof.Machine
end

section
/-! PROOF. Where a step stops (20_memory.md R65, 70_reset_and_hazards.md R293, R300, R301): the checks of a command
raise and do not fault, every byte a command reads lies in a range its checks have passed, and the host's accesses
fault on a broken duty alone. -/

namespace Sys2Proof.Machine

/-! ### What passed checks say of the descriptors -/

/-- 10_state.md R41. -/
theorem State.checkPlaced_gives {s : State} {ks : List Nat} :
    Gives (s.checkPlaced ks) fun _ => ∀ k ∈ ks, s.base k + s.len k ≤ s.par.bufBytes := fun _ h => by
  simpa [State.wellPlaced] using (raiseIf_ok_iff _ _).1 h

/-- 42_coding_loop.md R183. -/
theorem State.rangeCheck_gives {s : State} {ks : List Nat} {off cnt : Nat} :
    Gives (s.rangeCheck ks off cnt) fun _ => ∀ k ∈ ks, off + cnt ≤ s.len k ∧ s.base k + s.len k ≤ s.par.bufBytes :=
  .bind_of_eq fun u hplaced _ hlen k hk =>
    have hroom : ∀ k ∈ ks, off + cnt ≤ s.len k := by simpa using (raiseIf_ok_iff _ _).1 hlen
    ⟨hroom k hk, State.checkPlaced_gives u hplaced k hk⟩

/-- 43_erasure_coder.md R210: one payload length. -/
theorem State.len_eq_head {s : State} {ks : List Nat} (h : s.sameLengths ks ≠ false) :
    ∀ k ∈ ks, s.len k = s.len (ks.headD 0) := by
  intro k hk
  by_contra hne
  refine h ((s.sameLengths_iff ks).2 ⟨k, hk, ks.headD 0, ?_, hne⟩)
  cases ks with
  | nil => cases hk
  | cons x rest => exact List.mem_cons_self ..

/-- 43_erasure_coder.md R211: the tags read belong to the descriptors asked for. -/
theorem State.readTags_desc {s : State} {ks : List Nat} :
    Gives (s.readTags ks) fun pres => pres.map Tagged.desc = ks := by
  induction ks with
  | nil => exact .ok rfl
  | cons k rest ih => exact .bind fun _ => .bind_of_eq fun tags htags => .ok (congrArg (k :: ·) (ih tags htags))

theorem mem_of_findTag {pres : List Tagged} {t k : Nat} (h : findTag pres t = some k) : k ∈ pres.map Tagged.desc := by
  obtain ⟨x, hx, rfl⟩ := Option.map_eq_some_iff.1 h
  exact List.mem_map_of_mem (List.mem_of_find?_eq_some hx)

/-! ### What a check phase can fault on -/

/-- Every fault the computation `c` can stop with satisfies `P`. -/
def Faults {α : Type} (c : Check α) (P : Fault → Prop) : Prop := ∀ f, c = .error (.fault f) → P f

/-- `f` is the read of a byte of BUFMEM that has no value in `s` (20_memory.md R65; log 6). -/
def State.Unwritten (s : State) (f : Fault) : Prop :=
  ∃ addr, f = .unwrittenByte addr ∧ s.mem.read addr = none ∧ addr < s.par.bufBytes

section Faults

variable {α β : Type} {P : Fault → Prop} {s : State}

theorem Faults.ok {a : α} : Faults (.ok a) P := fun _ h => nomatch h

theorem Faults.raising {r : Raise} : Faults (raising r : Check α) P := fun _ h => nomatch h

/-- The second part may use what the first part gave. -/
theorem Faults.bind {x : Check β} {f : β → Check α} (hx : Faults x P) (h : ∀ b, x = .ok b → Faults (f b) P) :
    Faults (x >>= f) P := fun e he =>
  (check_bind_eq_error x f _).elim fun hor _ => (hor he).elim (hx e) fun ⟨b, hb, hf⟩ => h b hb e hf

theorem Faults.ite {c : Prop} [Decidable c] {x y : Check α} (hx : c → Faults x P) (hy : ¬ c → Faults y P) :
    Faults (if c then x else y) P := by
  split
  next hc => exact hx hc
  next hc => exact hy hc

/-! ### The checks that raise and do not fault -/

theorem Faults.raiseIf {c : Prop} [Decidable c] {r : Raise} : Faults (raiseIf c r) P :=
  .ite (fun _ => .raising) fun _ => .ok

theorem Faults.fieldArg {i : Fin 8} : Faults (s.fieldArg i) P := .bind .raiseIf fun _ _ => .ok

theorem Faults.readSlot {m : SlotField} : Faults (s.readSlot m) P := .bind .raiseIf fun _ _ => .ok

theorem Faults.readCoder : Faults s.readCoder P := by
  unfold State.readCoder
  split
  · exact .ok
  · exact .raising

theorem Faults.rangeCheck {ks : List Nat} {off cnt : Nat} : Faults (s.rangeCheck ks off cnt) P :=
  .bind .raiseIf fun _ _ => .raiseIf

theorem Faults.checkOutputs {pres : List Tagged} {outs : List Nat} {l : Nat} :
    Faults (s.checkOutputs pres outs l) P := .bind .raiseIf fun _ _ => .raiseIf

theorem Faults.gdiv {poly : BitVec 9} {a b : Byte} : Faults (gdiv poly a b) P :=
  .bind .raiseIf fun _ _ => .bind .raiseIf fun _ _ => .ok

theorem Faults.entryValue {value : Int} : Faults (entryValue value) P := .bind .raiseIf fun _ _ => .ok

theorem Faults.orSingular {x : Except Nat α} : Faults (orSingular x) P := by
  cases x with
  | ok v => exact .ok
  | error row => exact .raising

theorem Faults.buildEM {poly : BitVec 9} {d p : Nat} : Faults (buildEM poly d p) P :=
  .bind .orSingular fun _ _ => .ok

theorem Faults.gaussOperand {d : SlotField} : Faults (gaussOperand d s) P :=
  .bind .raiseIf fun _ _ => .bind .readSlot fun _ _ => .bind .raiseIf fun _ _ => .ok

/-! ### The reads of BUFMEM -/

theorem Faults.readByte {addr : Nat} (h : addr < s.par.bufBytes) : Faults (s.readByte addr) s.Unwritten := by
  unfold State.readByte
  split
  · exact .ok
  next hnone => rintro _ ⟨⟩; exact ⟨addr, rfl, hnone, h⟩

theorem Faults.readBlock {addr n : Nat} (h : addr + n ≤ s.par.bufBytes) :
    Faults (s.readBlock addr n) s.Unwritten := by
  by_cases hw : s.Written addr n
  · rw [s.readBlock_ok addr n hw]
    exact .ok
  · obtain ⟨a, e, hnone, _, ha⟩ := s.readBlock_bad addr n hw
    rw [e]
    rintro _ ⟨⟩
    exact ⟨a, rfl, hnone, by omega⟩

theorem Faults.readBlocks {off cnt : Nat} {ks : List Nat} (h : ∀ k ∈ ks, s.base k + off + cnt ≤ s.par.bufBytes) :
    Faults (s.readBlocks off cnt ks) s.Unwritten := by
  induction ks with
  | nil => exact .ok
  | cons k rest ih =>
    obtain ⟨hk, hrest⟩ := List.forall_mem_cons.1 h
    exact .bind (.readBlock hk) fun _ _ => .bind (ih hrest) fun _ _ => .ok

theorem Faults.readTags {ks : List Nat} (h : ∀ k ∈ ks, s.base k < s.par.bufBytes) :
    Faults (s.readTags ks) s.Unwritten := by
  induction ks with
  | nil => exact .ok
  | cons k rest ih =>
    obtain ⟨hk, hrest⟩ := List.forall_mem_cons.1 h
    exact .bind (.readByte hk) fun _ _ => .bind (ih hrest) fun _ _ => .ok

theorem Faults.payloads {pres : List Tagged} {l : Nat} {ts : List Nat}
    (h : ∀ k ∈ pres.map Tagged.desc, s.base k + 1 + l ≤ s.par.bufBytes) :
    Faults (s.payloads pres l ts) s.Unwritten := by
  induction ts with
  | nil => exact .ok
  | cons t rest ih =>
    unfold State.payloads
    split
    next => exact .bind ih fun _ _ => .ok
    next k hk => exact .bind (.readBlock (h k (mem_of_findTag hk))) fun _ _ => .bind ih fun _ _ => .ok

theorem Faults.codeLoop {rows : List (List Byte)} {ins outs : List Nat} {off cnt : Nat}
    (h : ∀ k ∈ ins ++ outs, off + cnt ≤ s.len k ∧ s.base k + s.len k ≤ s.par.bufBytes) :
    Faults (s.codeLoop rows ins outs off cnt) s.Unwritten :=
  .ite (fun _ => .ok) fun _ => .bind
    (.readBlocks fun k hk => by have := h k (List.mem_append_left _ hk); omega) fun _ _ => .ok

theorem Faults.decodeFast {c : Coder} {pres : List Tagged} {outs : List Nat} {l : Nat}
    (h : ∀ k ∈ pres.map Tagged.desc, s.base k + 1 + l ≤ s.par.bufBytes) :
    Faults (s.decodeFast c pres outs l) s.Unwritten :=
  .bind .raiseIf fun _ _ => .bind .checkOutputs fun _ _ => .bind (.payloads h) fun _ _ => .ok

theorem Faults.decodeGeneral {c : Coder} {pres : List Tagged} {outs : List Nat} {l off cnt : Nat}
    (h : ∀ k ∈ pres.map Tagged.desc, s.base k + 1 + l ≤ s.par.bufBytes) :
    Faults (s.decodeGeneral c pres outs l off cnt) s.Unwritten :=
  .bind .checkOutputs fun _ _ => .bind .orSingular fun _ _ => .bind (.payloads h) fun _ _ => .ok

end Faults

/-! ### Where a command stops -/

/-- The outcome is a next state, or a fault that satisfies `P`; it is no refusal. -/
inductive StopsOnly (P : Fault → Prop) : Host.Outcome State Fault Refusal → Prop
  | next (t : State) : StopsOnly P (.next t)
  | fault {f : Fault} (h : P f) : StopsOnly P (.fault f)

theorem StopsOnly.not_refused {P : Fault → Prop} {o : Host.Outcome State Fault Refusal} (h : StopsOnly P o)
    (r : Refusal) : o ≠ .refused r := by
  cases h <;> exact fun e => nomatch e

theorem StopsOnly.of_fault {P : Fault → Prop} {f : Fault} (h : StopsOnly P (.fault f)) : P f := by
  cases h with
  | fault hf => exact hf

theorem StopsOnly.mono {P Q : Fault → Prop} {o : Host.Outcome State Fault Refusal} (h : StopsOnly P o)
    (hPQ : ∀ f, P f → Q f) : StopsOnly Q o := by
  cases h with
  | next t => exact .next t
  | fault hf => exact .fault (hPQ _ hf)

theorem StopsOnly.of_finish {P : Fault → Prop} {s : State} {c : Check State} (h : Faults c P) :
    StopsOnly P (finish s c) := by
  rcases finish_cases s c with ⟨t, _, e⟩ | ⟨r, _, e⟩ | ⟨f, hc, e⟩ <;> rw [e]
  · exact .next _
  · exact .next _
  · exact .fault (h f hc)

section Commands

variable {s : State}

theorem execMgauss_stops {d : SlotField} : StopsOnly s.Unwritten (execMgauss d s) := by
  unfold execMgauss
  split
  next stop hstop =>
    have hfaults : Faults (.error stop : Check State) s.Unwritten := fun f hf =>
      Faults.gaussOperand (d := d) f (hstop.trans (congrArg _ (Except.error.inj hf)))
    exact .of_finish hfaults
  next m _ =>
    split
    · exact .of_finish .ok
    · exact .of_finish .raising

/-- CODE reads its inputs' touched ranges (42_coding_loop.md R181, R183). -/
theorem execCode_stops {a : SlotField} : StopsOnly s.Unwritten (execCode a s) := by
  refine .of_finish (.bind .raiseIf fun _ _ => .bind .readSlot fun _ _ => ?_)
  iterate 6 refine .bind .raiseIf fun _ _ => ?_
  exact .bind .rangeCheck fun u hrange => .bind .raiseIf fun _ _ => .codeLoop (State.rangeCheck_gives u hrange)

/-- ENCODE reads its data shards' touched ranges (43_erasure_coder.md R205). -/
theorem execEncode_stops : StopsOnly s.Unwritten (execEncode s) := by
  refine .of_finish (.bind .readCoder fun _ _ => ?_)
  iterate 5 refine .bind .raiseIf fun _ _ => ?_
  exact .bind .rangeCheck fun u hrange => .bind .raiseIf fun _ _ => .codeLoop (State.rangeCheck_gives u hrange)

/-- DECODE reads the tags and the payloads of the present raw descriptors: each is well placed and not empty, and the
payload is what follows the tag (43_erasure_coder.md R210, R211). -/
theorem execDecode_stops : StopsOnly s.Unwritten (execDecode s) := by
  refine .of_finish (.bind .readCoder fun c _ => ?_)
  iterate 4 refine .bind .raiseIf fun _ _ => ?_
  refine .bind .raiseIf fun u hplaced => .bind .raiseIf fun _ _ => ?_
  have hpresent : ∀ k ∈ (descRun (s.arg 0) (s.arg 1)).filter fun k => decide (s.len k > 0),
      0 < s.len k ∧ s.base k + s.len k ≤ s.par.bufBytes := fun k hk => by
    obtain ⟨hraw, hlen⟩ := List.mem_filter.1 hk
    exact ⟨of_decide_eq_true hlen, State.checkPlaced_gives u hplaced k (List.mem_append_left _ hraw)⟩
  refine .bind (.readTags fun k hk => by have := hpresent k hk; omega) fun pres hpres => ?_
  refine .bind .raiseIf fun _ _ => .bind .raiseIf fun v hsame => .bind .raiseIf fun _ _ => ?_
  have hpayload : ∀ k ∈ pres.map Tagged.desc, s.base k + 1 +
      (s.len (((descRun (s.arg 0) (s.arg 1)).filter fun k => decide (s.len k > 0)).headD 0) - 1) ≤ s.par.bufBytes := by
    rw [State.readTags_desc pres hpres]
    intro k hk
    have := State.len_eq_head ((raiseIf_ok_iff _ v).1 hsame) k hk
    have := hpresent k hk
    omega
  exact .ite (fun _ => .decodeFast hpayload) fun _ => .decodeGeneral hpayload

/-- Each `bind` passes over one check of the command, which raises and does not fault. -/
theorem exec_stops (i : Instr) : StopsOnly s.Unwritten (exec i s) := by
  cases i with
  | nop => exact .of_finish (s := s) (c := .ok s) .ok
  | fadd | fmul => exact .of_finish (.bind .fieldArg fun _ _ => .bind .fieldArg fun _ _ => .ok)
  | fdiv =>
    exact .of_finish (.bind .fieldArg fun _ _ => .bind .fieldArg fun _ _ => .bind .gdiv fun _ _ => .ok)
  | finv => exact .of_finish (.bind .fieldArg fun _ _ => .bind .gdiv fun _ _ => .ok)
  | fexp => exact .of_finish (.bind .fieldArg fun _ _ => .bind .raiseIf fun _ _ => .ok)
  | mcreate d | mident d | mvand d => exact .of_finish (.bind .raiseIf fun _ _ => .bind .raiseIf fun _ _ => .ok)
  | mget a | msub d a | mswap d =>
    exact .of_finish (.bind .raiseIf fun _ _ => .bind .readSlot fun _ _ => .bind .raiseIf fun _ _ => .ok)
  | mset d =>
    exact .of_finish (.bind .raiseIf fun _ _ => .bind .readSlot fun _ _ => .bind .raiseIf fun _ _ =>
      .bind .entryValue fun _ _ => .ok)
  | mdim a => exact .of_finish (.bind .raiseIf fun _ _ => .ok)
  | mgetrow a =>
    refine .of_finish (.bind .raiseIf fun _ _ => .bind .readSlot fun _ _ => ?_)
    iterate 4 refine .bind .raiseIf fun _ _ => ?_
    exact .ok
  | maug d a b =>
    exact .of_finish (.bind .raiseIf fun _ _ => .bind .readSlot fun _ _ => .bind .readSlot fun _ _ =>
      .bind .raiseIf fun _ _ => .bind .raiseIf fun _ _ => .ok)
  | mtimes d a b =>
    exact .of_finish (.bind .raiseIf fun _ _ => .bind .readSlot fun _ _ => .bind .readSlot fun _ _ =>
      .bind .raiseIf fun _ _ => .ok)
  | mgauss d => exact execMgauss_stops
  | minv d a =>
    exact .of_finish (.bind .raiseIf fun _ _ => .bind .readSlot fun _ _ => .bind .raiseIf fun _ _ =>
      .bind .orSingular fun _ _ => .ok)
  | code a => exact execCode_stops
  | check a => exact .of_finish (.bind .raiseIf fun _ _ => .raising)
  | config =>
    exact .of_finish (.bind .raiseIf fun _ _ => .bind .raiseIf fun _ _ => .bind .raiseIf fun _ _ =>
      .bind .buildEM fun _ _ => .ok)
  | encode => exact execEncode_stops
  | decode => exact execDecode_stops
  | emget => exact .of_finish (.bind .readCoder fun _ _ => .bind .raiseIf fun _ _ => .ok)
  | emexport d => exact .of_finish (.bind .raiseIf fun _ _ => .bind .readCoder fun _ _ => .ok)

theorem runWord_stops (w : Word) : StopsOnly s.Unwritten (runWord w s) := by
  unfold runWord
  split
  · exact .next _
  next i _ => exact exec_stops i

theorem engineStep_stops : StopsOnly s.Unwritten (engineStep s) := by
  unfold engineStep
  split
  · exact .next _
  next c _ => exact runWord_stops c.word

end Commands

/-! ### Where a host access stops -/

section Host

variable {s : State}

/-- The offsets of the descriptors (10_state.md R44). -/
theorem regAt_desc_range {off : BitVec 15} {k : Nat} (h : regAt off = .bdBase k ∨ regAt off = .bdLen k) :
    0x400 ≤ off.toNat ∧ off.toNat < 0xC00 := by
  have hlow := getD_lowRegs_mem off.toNat
  simp only [regAt, Config.ndesc] at h
  split_ifs at h
  · rcases h with h | h <;> rw [h] at hlow <;> simp [lowRegs] at hlow
  all_goals simp at h
  all_goals omega

/-- A write to a register faults only where it breaks host duty 2 (70_reset_and_hazards.md R301). -/
theorem State.writeReg_stops (v : Word) (r : Reg) :
    StopsOnly (fun f => f = .hostDescWriteWhileBusy ∧ s.busy = true ∧ ∃ k, r = .bdBase k ∨ r = .bdLen k)
      (s.writeReg v r) := by
  cases r with
  | bdBase k =>
    rcases s.writeDesc_cases k { s.desc k with base := v } with ⟨hb, e⟩ | ⟨_, e⟩ <;> rw [State.writeReg, e]
    · exact .fault ⟨rfl, hb, k, .inl rfl⟩
    · exact .next _
  | bdLen k =>
    rcases s.writeDesc_cases k { s.desc k with len := v } with ⟨hb, e⟩ | ⟨_, e⟩ <;> rw [State.writeReg, e]
    · exact .fault ⟨rfl, hb, k, .inr rfl⟩
    · exact .next _
  | id | version | ctrl | status | cmd | errCode | errInfo | result0 | result1 | cfgD | cfgP | cfgT | pNmat | pNdesc
  | pBufmem | pPoly | arg | multab | reserved => exact .next _

/-- A fault a step of `s` can stop with (20_memory.md R65, 70_reset_and_hazards.md R300, R301; logs 6 and 7). -/
inductive State.StepFault (s : State) : Fault → Prop
  | read {f : Fault} (h : s.Unwritten f) : s.StepFault f
  | buffer (hbusy : s.busy = true) {addr : Nat} (haddr : addr < s.par.bufBytes) {rest : List Input}
      (hin : s.inputs = .bufRead addr :: rest ∨ ∃ v, s.inputs = .bufWrite addr v :: rest) :
      s.StepFault .hostBufAccessWhileBusy
  | desc (hbusy : s.busy = true) {off : BitVec 15} {v : Word} {rest : List Input}
      (hin : s.inputs = .mmioWrite off v :: rest) (hoff : 0x400 ≤ off.toNat ∧ off.toNat < 0xC00) :
      s.StepFault .hostDescWriteWhileBusy

theorem step_stops (s : State) : StopsOnly s.StepFault (step s) := by
  unfold step
  split
  · exact engineStep_stops.mono fun _ => .read
  next x rest hin =>
    cases x with
    | engine => exact (engineStep_stops (s := { s with inputs := rest })).mono fun _ h => .read h
    | mmioWrite off v =>
      refine (State.writeReg_stops (s := { s with inputs := rest }) v (regAt off)).mono ?_
      rintro _ ⟨rfl, hbusy, k, hreg⟩
      exact .desc hbusy hin (regAt_desc_range hreg)
    | mmioRead | hardReset => exact .next _
    | bufWrite addr v =>
      rcases State.bufWrite_cases { s with inputs := rest } addr v with ⟨_, e⟩ | ⟨haddr, hbusy, e⟩ | ⟨_, _, e⟩ <;>
        rw [applyInput, e]
      · exact .next _
      · exact .fault (.buffer hbusy haddr (.inr ⟨v, hin⟩))
      · exact .next _
    | bufRead addr =>
      rcases State.bufRead_cases { s with inputs := rest } addr with
          ⟨_, e⟩ | ⟨haddr, hbusy, e⟩ | ⟨haddr, _, ⟨_, _, e⟩ | ⟨hnone, e⟩⟩ <;> rw [applyInput, e]
      · exact .next _
      · exact .fault (.buffer hbusy haddr (.inl hin))
      · exact .next _
      · exact .fault (.read ⟨addr, rfl, hnone, haddr⟩)

end Host

/-- Settles O18: a step's faults are those of `State.StepFault` (`step_stops`), case by case. -/
theorem whereAStepStops : Obligations.WhereAStepStops := by
  intro s
  refine ⟨(step_stops s).not_refused, fun f hf => ?_⟩
  cases (hf ▸ step_stops s).of_fault with
  | read h => exact .inl h
  | buffer hbusy haddr hin => exact .inr (.inl ⟨rfl, hbusy, _, _, haddr, hin⟩)
  | desc hbusy hin hoff => exact .inr (.inr ⟨rfl, hbusy, _, _, _, hin, hoff⟩)

end Sys2Proof.Machine
end

section
/-! PROOF. Which commands write BUFMEM, and where (20_memory.md R60, R64; 00_scope.md R15): the frame of each ending, and
for the commands that write, the room their checks have found in the buffers written. -/

namespace Sys2Proof.Machine

/-! ### The commands that leave BUFMEM alone -/

theorem Effect.mem_eq {i : Instr} {s u : State} (h : Effect s i u) (hrow : ∀ a, i ≠ .mgetrow a ∧ i ≠ .code a)
    (henc : i ≠ .encode) (hdec : i ≠ .decode) : u.mem = s.mem := by
  cases h with
  | bytes hi =>
    rcases hi with rfl | ⟨a, rfl | rfl⟩
    · exact absurd rfl henc
    · exact absurd rfl (hrow a).1
    · exact absurd rfl (hrow a).2
  | shards => exact absurd rfl hdec
  | nothing | result | shape | slot | coder => rfl

/-- 20_memory.md R60. -/
theorem Ending.mem_eq {i : Instr} {s t : State} (h : Ending s i t) (hrow : ∀ a, i ≠ .mgetrow a ∧ i ≠ .code a)
    (henc : i ≠ .encode) (hdec : i ≠ .decode) : t.mem = s.mem := by
  cases h with
  | success hu => exact (State.finished_mem ..).trans (hu.mem_eq hrow henc hdec)
  | failure | singular => exact State.finished_mem ..

/-- 00_scope.md R15. -/
theorem Ending.mem_eq_of_failed {i : Instr} {s t : State} (h : Ending s i t) (hs : s.srstPending = false)
    (hf : t.errCode.extractLsb' 0 8 ≠ 0) : t.mem = s.mem := by
  cases h with
  | success hu => exact absurd (State.finished_cause (hu.srstPending_eq.trans hs) ..) hf
  | failure | singular => exact State.finished_mem ..

/-! ### Writes inside well-placed descriptors -/

/-- Descriptor k exists, is well placed and holds at least n bytes (10_state.md R40, R41). -/
def State.Room (s : State) (k n : Nat) : Prop := k < 1024 ∧ n ≤ s.len k ∧ s.base k + s.len k ≤ s.par.bufBytes

/-- `m` is BUFMEM as `s` has it but for bytes inside well-placed descriptors, and each byte with a value keeps one. -/
structure State.Rewrites (s : State) (m : Memory) : Prop where
  within : ∀ addr, m.read addr ≠ s.mem.read addr →
    ∃ k, k < 1024 ∧ InRange addr (s.base k) (s.len k) ∧ s.base k + s.len k ≤ s.par.bufBytes
  written : ∀ addr, (s.mem.read addr).isSome = true → (m.read addr).isSome = true

section Rewrites

variable {s : State}

theorem State.Rewrites.refl : s.Rewrites s.mem := ⟨fun _ h => absurd rfl h, fun _ h => h⟩

theorem State.Rewrites.writeBlock {m : Memory} (h : s.Rewrites m) {k off : Nat} {bytes : List Byte}
    (hroom : s.Room k (off + bytes.length)) : s.Rewrites (m.writeBlock (s.base k + off) bytes) := by
  obtain ⟨hk, hlen, hplaced⟩ := hroom
  refine ⟨fun addr hne => ?_, fun addr hw => ?_⟩ <;>
    by_cases hin : s.base k + off ≤ addr ∧ addr < s.base k + off + bytes.length
  · exact ⟨k, hk, ⟨by omega, by omega⟩, hplaced⟩
  · rw [Memory.read_writeBlock_outside _ _ _ _ hin] at hne
    exact h.within addr hne
  · rw [Memory.read_writeBlock, if_pos hin, List.getElem?_eq_getElem (by omega)]
    rfl
  · rw [Memory.read_writeBlock_outside _ _ _ _ hin]
    exact h.written addr hw

theorem State.Rewrites.writeAll {m : Memory} (h : s.Rewrites m) {off : Nat} {l : List (Nat × List Byte)}
    (hl : ∀ x ∈ l, s.Room x.1 (off + x.2.length)) : s.Rewrites (Memory.writeAll s off m l) := by
  induction l generalizing m with
  | nil => exact h
  | cons x rest ih =>
    obtain ⟨hx, hrest⟩ := List.forall_mem_cons.1 hl
    exact ih (h.writeBlock hx) hrest

theorem State.Room.mono {k n n' : Nat} (h : s.Room k n) (hn : n' ≤ n) : s.Room k n' := ⟨h.1, hn.trans h.2.1, h.2.2⟩

/-- Blocks of at most n bytes, written to buffers with room for them. -/
theorem State.rewrites_writeBlocks {off n : Nat} {outs : List Nat} {blocks : List (List Byte)}
    (hroom : ∀ o ∈ outs, s.Room o (off + n)) (hlen : ∀ b ∈ blocks, b.length ≤ n) :
    s.Rewrites (State.writeBlocks off s (outs.zip blocks)).mem := by
  rw [State.writeBlocks_eq]
  refine State.Rewrites.refl.writeAll fun x hx => ?_
  obtain ⟨ho, hb⟩ := List.of_mem_zip hx
  exact (hroom _ ho).mono (Nat.add_le_add_left (hlen _ hb) off)

theorem State.rewrites_of_finish {t : State} {c : Check State} (ht : finish s c = .next t)
    (hc : Gives c fun u => s.Rewrites u.mem) : s.Rewrites t.mem := by
  rcases finish_cases s c with ⟨u, hu, e⟩ | ⟨r, _, e⟩ | ⟨f, _, e⟩ <;> rw [e] at ht <;> cases ht
  · rw [State.completed, State.finished_mem]
    exact hc u hu
  · rw [State.errored, State.finished_mem]
    exact .refl

end Rewrites

/-! ### The commands that write BUFMEM -/

/-- 60_exceptions.md R263: a run that passes its check lies below NDESC. -/
theorem checkRun_gives {base count : Int} : Gives (checkRun base count) fun _ => ∀ k ∈ descRun base count, k < 1024 :=
  fun _ h k hk => by
    have hrun : ¬ (base < 0 ∨ base + count > 1024) := (raiseIf_ok_iff _ _).1 h
    obtain ⟨hlo, hhi⟩ := (mem_descRun base count k).1 hk
    omega

section Commands

variable {s t : State}

theorem State.codeLoop_rewrites {rows : List (List Byte)} {ins outs : List Nat} {off cnt : Nat}
    (hroom : ∀ o ∈ outs, s.Room o (off + cnt)) :
    Gives (s.codeLoop rows ins outs off cnt) fun u => s.Rewrites u.mem := by
  unfold State.codeLoop
  split
  · exact .ok .refl
  · refine .bind fun _ => .ok (State.rewrites_writeBlocks hroom fun b hb => ?_)
    obtain ⟨row, _, rfl⟩ := List.mem_map.1 hb
    exact (length_codeRow ..).le

/-- 41_matrix.md R156. -/
theorem execMgetrow_rewrites {a : SlotField} (h : execMgetrow a s = .next t) : s.Rewrites t.mem :=
  State.rewrites_of_finish h <| .bind fun _ => .readSlot fun _ => .raiseIf fun _ => .bind_of_eq fun u hrun =>
    .bind_of_eq fun v hplaced => .raiseIf fun hlen => .ok <| by
      have hk := checkRun_gives u hrun (s.arg 1).toNat ((mem_descRun ..).2 ⟨Nat.le_refl _, Nat.lt_succ_self _⟩)
      have hend := State.checkPlaced_gives v hplaced _ (List.mem_singleton.2 rfl)
      exact State.Rewrites.refl.writeBlock (off := 0) ⟨hk, by simp; omega, hend⟩

/-- 42_coding_loop.md R181. -/
theorem execCode_rewrites {a : SlotField} (h : execCode a s = .next t) : s.Rewrites t.mem := by
  refine State.rewrites_of_finish h ?_
  iterate 7 refine .bind fun _ => ?_
  exact .bind_of_eq fun u hrun => .bind_of_eq fun v hrange => .bind fun _ => State.codeLoop_rewrites fun o ho =>
    ⟨checkRun_gives u hrun o ho, State.rangeCheck_gives v hrange o (List.mem_append_right _ ho)⟩

/-- 43_erasure_coder.md R205. -/
theorem execEncode_rewrites (h : execEncode s = .next t) : s.Rewrites t.mem := by
  refine State.rewrites_of_finish h (.bind fun _ => .bind fun _ => .bind fun _ => .bind_of_eq fun u hrun => ?_)
  exact .bind fun _ => .bind fun _ => .bind_of_eq fun v hrange => .bind fun _ => State.codeLoop_rewrites fun o ho =>
    ⟨checkRun_gives u hrun o (List.mem_of_mem_drop ho), State.rangeCheck_gives v hrange o (List.mem_append_right _ ho)⟩

/-- 43_erasure_coder.md R212. -/
theorem State.decodeFast_rewrites {c : Coder} {pres : List Tagged} {outs : List Nat} {l : Nat}
    (hroom : ∀ o ∈ outs, s.Room o (s.len o)) :
    Gives (s.decodeFast c pres outs l) fun u => s.Rewrites u.mem :=
  .bind fun _ => .checkOutputs fun hlen => .bind_of_eq fun shards hshards => .ok <| by
    refine State.rewrites_writeBlocks (n := l) (fun o ho => ?_) fun block hblock => ?_
    · exact (hroom o (List.mem_of_mem_take ho)).mono (by have := hlen o ho; omega)
    · obtain ⟨shard, hshard, rfl⟩ := List.mem_map.1 hblock
      cases shard with
      | none => exact Nat.zero_le l
      | some bytes => exact (State.payloads_length _ _ _ shards hshards bytes hshard).le

/-- 43_erasure_coder.md R213. -/
theorem State.decodeGeneral_rewrites {c : Coder} {pres : List Tagged} {outs : List Nat} {l off cnt : Nat}
    (hroom : ∀ o ∈ outs, s.Room o (s.len o)) (hrange : off + cnt ≤ l) :
    Gives (s.decodeGeneral c pres outs l off cnt) fun u => s.Rewrites u.mem :=
  .checkOutputs fun hlen => .bind fun _ => .bind_of_eq fun shards hshards => .ok <| by
    have hpresent : ∀ t bytes, shards.getD t none = some bytes → bytes.length = l := fun _ bytes h =>
      State.payloads_length _ _ _ shards hshards bytes (mem_of_getD_eq_some h)
    refine State.rewrites_writeBlocks (n := l) (fun o ho => ?_) fun block hblock => ?_
    · exact (hroom o ho).mono (by have := hlen o ho; omega)
    · rcases List.mem_append.1 hblock with hb | hb <;> obtain ⟨t, _, rfl⟩ := List.mem_map.1 hb <;>
        exact (length_rebuild (hpresent _) hrange).le

/-- 43_erasure_coder.md R210. -/
theorem execDecode_rewrites (h : execDecode s = .next t) : s.Rewrites t.mem := by
  refine State.rewrites_of_finish h (.bind fun _ => .bind fun _ => .raiseIf fun hpos => .bind fun _ => ?_)
  refine .bind_of_eq fun u hrun => .bind_of_eq fun v hplaced => ?_
  refine .bind fun _ => .bind fun _ => .bind fun _ => .bind fun _ => .raiseIf fun hrange => ?_
  have hroom := fun o ho => (⟨checkRun_gives u hrun o ho, Nat.le_refl _,
    State.checkPlaced_gives v hplaced o (List.mem_append_right _ ho)⟩ : s.Room o (s.len o))
  split
  · exact State.decodeFast_rewrites hroom
  · exact State.decodeGeneral_rewrites hroom (by omega)

theorem exec_rewrites {i : Instr} (h : exec i s = .next t) : s.Rewrites t.mem := by
  cases i with
  | mgetrow a => exact execMgetrow_rewrites h
  | code a => exact execCode_rewrites h
  | encode => exact execEncode_rewrites h
  | decode => exact execDecode_rewrites h
  | _ =>
    rw [(exec_ending h).mem_eq (fun _ => ⟨nofun, nofun⟩) nofun nofun]
    exact .refl

end Commands

/-- Settles O50: which endings keep BUFMEM (`Ending.mem_eq`), and what a command that writes it changes
(`exec_rewrites`). -/
theorem bufmemWriters : Obligations.BufmemWriters := by
  intro i s t h
  have hend := exec_ending h
  have hmem := exec_rewrites h
  exact ⟨hend.mem_eq, hend.mem_eq_of_failed, hmem.within, hmem.written⟩

end Sys2Proof.Machine
end

section
/-! PROOF. The host's side of the memory: the order of the inputs (20_memory.md R72, R74), the buffer port (R68, R71)
and the MULTAB window (R66, 40_field.md R133). -/

namespace Sys2Proof.Machine

/-! ### The inputs and the buffer port -/

theorem engineStep_idle {s : State} (h : s.run = .idle) : engineStep s = .next s := by rw [engineStep, h]

theorem step_cons {s : State} {x : Input} {rest : List Input} (h : s.inputs = x :: rest) :
    step s = applyInput x { s with inputs := rest } := by rw [step, h]

/-- Settles O5: a step with an input is `step_cons`, and the engine's move while IDLE is `engineStep_idle`. -/
theorem stepTakesInputsInOrder : Obligations.StepTakesInputsInOrder := by
  intro s x rest hin
  refine ⟨step_cons hin, ?_, fun hidle => engineStep_idle hidle⟩
  rintro hidle rfl
  exact (step_cons hin).trans (engineStep_idle hidle)

/-- Settles O13: the cases of `State.bufRead_cases` and `State.bufWrite_cases` that the address and the run state
leave. -/
theorem bufferPort : Obligations.BufferPort := by
  intro s addr v
  have hread := s.bufRead_cases addr
  have hwrite := s.bufWrite_cases addr v
  refine ⟨fun hout => ⟨State.bufRead_outside hout, State.bufWrite_outside v hout⟩, fun hin hidle => ?_,
    fun hin hbusy => ?_⟩
  · have hnotBusy := State.busy_of_idle hidle
    simp only [hin, Nat.not_le.2 hin, hnotBusy, false_and, Bool.false_eq_true, true_and, and_false,
      false_or] at hread hwrite
    refine ⟨fun b hb => ?_, fun hnone => ?_, s.mem.write addr v, hwrite, Memory.read_write_same .., fun a ha =>
      Memory.read_write_other _ _ ha.symm⟩
    · simpa [hb] using hread
    · simpa [hnone] using hread
  · simp only [hin, Nat.not_le.2 hin, hbusy, false_and, Bool.true_eq_false, true_and, and_false, false_or,
      or_false] at hread hwrite
    exact ⟨hread, hwrite⟩

/-! ### The MULTAB window -/

/-- Byte j of four bytes in one word, lowest first. -/
theorem extractLsb'_fourBytes (entry : Nat → Byte) {j : Nat} (hj : j < 4) :
    (entry 3 ++ entry 2 ++ entry 1 ++ entry 0).extractLsb' (8 * j) 8 = entry j := by
  have hskip {n : Nat} (x : BitVec n) (y : Byte) (k : Nat) :
      (x ++ y).extractLsb' (8 * (k + 1)) 8 = x.extractLsb' (8 * k) 8 :=
    (BitVec.extractLsb'_append_eq_of_le (by omega)).trans (congrArg (BitVec.extractLsb' · 8 x) (by omega))
  match j with
  | 0 => exact BitVec.extractLsb'_append_eq_right
  | 1 => rw [hskip]; exact BitVec.extractLsb'_append_eq_right
  | 2 => rw [hskip, hskip]; exact BitVec.extractLsb'_append_eq_right
  | 3 => rw [hskip, hskip, hskip]; exact BitVec.extractLsb'_eq_self

/-- Byte j of word w of the table (20_memory.md R66). -/
theorem multabWord_byte (poly : BitVec 9) (w : Nat) {j : Nat} (hj : j < 4) :
    (multabWord poly w).extractLsb' (8 * j) 8 =
      gmul poly (BitVec.ofNat 8 ((4 * w + j) / 256)) (BitVec.ofNat 8 ((4 * w + j) % 256)) := by
  have hlow : BitVec.ofNat 8 ((4 * w + j) % 256) = BitVec.ofNat 8 (4 * w + j) := BitVec.eq_of_toNat_eq (by simp)
  rw [hlow]
  exact extractLsb'_fourBytes
    (fun j => multab poly (BitVec.ofNat 8 ((4 * w + j) / 256)) (BitVec.ofNat 8 (4 * w + j))) hj

/-- The word at offset 0x10000 + 4w is word w of the window (10_state.md R44). -/
theorem regAt_window {w : Nat} (hw : w < 16384) : regAt (BitVec.ofNat 15 ((0x10000 + 4 * w) / 4)) = .multab w := by
  have hword : (0x10000 + 4 * w) / 4 = 0x4000 + w := by omega
  rw [hword, regAt_multab (by omega), Nat.add_sub_cancel_left]

theorem State.readOffset_window (s : State) {w j : Nat} (hw : w < 16384) (hj : j < 4) :
    (s.readOffset (0x10000 + 4 * w)).extractLsb' (8 * j) 8 =
      gmul s.par.fieldPoly (BitVec.ofNat 8 ((4 * w + j) / 256)) (BitVec.ofNat 8 ((4 * w + j) % 256)) := by
  rw [State.readOffset, regAt_window hw]
  exact multabWord_byte s.par.fieldPoly w hj

/-- FMUL of two field elements (40_field.md R129). -/
theorem execFmul_of_bytes {s : State} {a b : Nat} (ha : a < 256) (hb : b < 256) (h0 : s.arg 0 = a) (h1 : s.arg 1 = b) :
    exec .fmul s = .next
      (s.setResult0 ((gmul s.par.fieldPoly (BitVec.ofNat 8 a) (BitVec.ofNat 8 b)).zeroExtend 32)).completed := by
  have hfst : s.fieldArg 0 = .ok (BitVec.ofNat 8 a) := by
    rw [s.fieldArg_ok 0 (by omega) (by omega), h0]
    rfl
  have hsnd : s.fieldArg 1 = .ok (BitVec.ofNat 8 b) := by
    rw [s.fieldArg_ok 1 (by omega) (by omega), h1]
    rfl
  rw [exec, execFmul, hfst, hsnd]
  exact finish_ok s _

/-- Settles O14: the table byte (`State.readOffset_window`), the read-only register at each offset of the window
(`regAt_window`), and FMUL's product (`execFmul_of_bytes`). -/
theorem multabWindow : Obligations.MultabWindow := by
  intro s
  refine ⟨fun w j hw hj => s.readOffset_window hw hj, fun w v hw => ?_, fun a b w j ha hb hj hindex h0 h1 hs => ?_⟩
  · rw [State.writeOffset, State.mmioWrite, regAt_window hw]
    rfl
  · refine ⟨_, execFmul_of_bytes ha hb h0 h1, ?_⟩
    have hfst : (256 * a + b) / 256 = a := by omega
    have hsnd : (256 * a + b) % 256 = b := by omega
    rw [s.readOffset_window (by omega) hj, hindex, hfst, hsnd]
    exact State.finished_result0 ((s.setResult0_srstPending _).trans hs) ..

end Sys2Proof.Machine
end

section
/-! PROOF. The command word (30_encoding.md R91, R97, R98, R100, R101, R104): what a row of the opcode map accepts, that
decoder and encoder are inverse to each other, the masks of the rows, and what a word that is no well-formed command
completes with. -/

namespace Sys2Proof

/-! ### The fields of a word -/

/-- `{RSV, MB, MA, MD, OPC}` (30_encoding.md R91). -/
def joinFields (rsv : BitVec 12) (b a d : SlotField) (opc : Byte) : Word := rsv ++ b ++ a ++ d ++ opc

theorem joinFields_zero (opc : Byte) (d a b : SlotField) : joinFields 0 b a d opc = commandWord opc d a b := rfl

theorem joinFields_and (rsv rsv' : BitVec 12) (b a d b' a' d' : SlotField) (opc opc' : Byte) :
    joinFields rsv b a d opc &&& joinFields rsv' b' a' d' opc' =
      joinFields (rsv &&& rsv') (b &&& b') (a &&& a') (d &&& d') (opc &&& opc') := by
  change (rsv ++ b ++ a ++ d ++ opc) &&& (rsv' ++ b' ++ a' ++ d' ++ opc') = _
  simp only [BitVec.and_append]
  rfl

theorem toNat_joinFields (rsv : BitVec 12) (b a d : SlotField) (opc : Byte) :
    (joinFields rsv b a d opc).toNat =
      opc.toNat + 2 ^ 8 * d.toNat + 2 ^ 12 * a.toNat + 2 ^ 16 * b.toNat + 2 ^ 20 * rsv.toNat := by
  change (rsv ++ b ++ a ++ d ++ opc).toNat = _
  simp only [toNat_concat]
  omega

theorem joinFields_eq_iff {rsv rsv' : BitVec 12} {b a d b' a' d' : SlotField} {opc opc' : Byte} :
    joinFields rsv b a d opc = joinFields rsv' b' a' d' opc' ↔
      rsv = rsv' ∧ b = b' ∧ a = a' ∧ d = d' ∧ opc = opc' := by
  simp only [← BitVec.toNat_inj, toNat_joinFields]
  omega

theorem toNat_opcField (w : Word) : (opcField w).toNat = w.toNat % 256 := by
  simp only [opcField, BitVec.extractLsb'_toNat, Nat.shiftRight_zero]

theorem toNat_mdField (w : Word) : (mdField w).toNat = w.toNat / 2 ^ 8 % 16 := by
  simp only [mdField, BitVec.extractLsb'_toNat, Nat.shiftRight_eq_div_pow]

theorem toNat_maField (w : Word) : (maField w).toNat = w.toNat / 2 ^ 12 % 16 := by
  simp only [maField, BitVec.extractLsb'_toNat, Nat.shiftRight_eq_div_pow]

theorem toNat_mbField (w : Word) : (mbField w).toNat = w.toNat / 2 ^ 16 % 16 := by
  simp only [mbField, BitVec.extractLsb'_toNat, Nat.shiftRight_eq_div_pow]

theorem toNat_rsvField (w : Word) : (rsvField w).toNat = w.toNat / 2 ^ 20 := by
  simp only [rsvField, BitVec.extractLsb'_toNat, Nat.shiftRight_eq_div_pow]
  omega

theorem toNat_ne_zero_iff {n : Nat} {x : BitVec n} : x.toNat ≠ 0 ↔ x ≠ 0 :=
  BitVec.toNat_ne_iff_ne (y := 0)

theorem joinFields_fields (w : Word) :
    joinFields (rsvField w) (mbField w) (maField w) (mdField w) (opcField w) = w := by
  apply BitVec.eq_of_toNat_eq
  rw [toNat_joinFields, toNat_opcField, toNat_mdField, toNat_maField, toNat_mbField, toNat_rsvField]
  omega

/-! ### The rows of the opcode map -/

/-- A slot field as the word of a command holds it: 0 where the command does not use it (30_encoding.md R97 item 3). -/
def slotIf (used : Bool) (f : SlotField) : SlotField := if used then f else 0

/-- What R100's map says of each of its rows: the opcode names the row, and the commands built by the row have its
opcode and use the slot fields it marks. -/
structure OpRow.Sound (r : OpRow) : Prop where
  found : findRow r.opc = some r
  opcode : ∀ d a b, (r.build d a b).opcode = r.opc
  slotFields : ∀ d a b, (r.build d a b).slotFields =
    (if r.usesMd then [d] else []) ++ (if r.usesMa then [a] else []) ++ if r.usesMb then [b] else []
  build_slotIf : ∀ d a b, r.build (slotIf r.usesMd d) (slotIf r.usesMa a) (slotIf r.usesMb b) = r.build d a b
  encode : ∀ d a b, encode (r.build d a b) =
    commandWord r.opc (slotIf r.usesMd d) (slotIf r.usesMa a) (slotIf r.usesMb b)

theorem opRows_sound : ∀ r ∈ opRows, r.Sound := by
  intro r hr
  unfold opRows at hr
  fin_cases hr <;> exact ⟨rfl, fun _ _ _ => rfl, fun _ _ _ => rfl, fun _ _ _ => rfl, fun _ _ _ => rfl⟩

theorem findRow_eq_some_iff {opc : Byte} {r : OpRow} : findRow opc = some r ↔ r ∈ opRows ∧ r.opc = opc := by
  constructor
  · intro h
    have hopc : (r.opc == opc) = true := List.find?_some (p := fun r : OpRow => r.opc == opc) h
    exact ⟨List.mem_of_find?_eq_some h, eq_of_beq hopc⟩
  · rintro ⟨hr, rfl⟩
    exact (opRows_sound r hr).found

/-- Every command is built by the row of its opcode. -/
theorem Instr.exists_row (i : Instr) : ∃ r, findRow i.opcode = some r ∧ ∃ d a b, r.build d a b = i := by
  cases i with
  | nop | fadd | fmul | fdiv | finv | fexp | config | encode | decode | emget => exact ⟨_, rfl, 0, 0, 0, rfl⟩
  | mcreate d | mident d | mvand d | mset d | mswap d | mgauss d | emexport d => exact ⟨_, rfl, d, 0, 0, rfl⟩
  | mget a | mdim a | mgetrow a | code a | check a => exact ⟨_, rfl, 0, a, 0, rfl⟩
  | msub d a | minv d a => exact ⟨_, rfl, d, a, 0, rfl⟩
  | maug d a b | mtimes d a b => exact ⟨_, rfl, d, a, b, rfl⟩

theorem OpRow.unusedSet_eq_true_iff (r : OpRow) (w : Word) :
    r.unusedSet w = true ↔
      (r.usesMd = false ∧ mdField w ≠ 0) ∨ (r.usesMa = false ∧ maField w ≠ 0) ∨ (r.usesMb = false ∧ mbField w ≠ 0) := by
  simp [OpRow.unusedSet, or_assoc]

theorem eq_slotIf_iff {used : Bool} {f : SlotField} : f = slotIf used f ↔ ¬ (used = false ∧ f ≠ 0) := by
  cases used <;> simp [slotIf]

theorem OpRow.unusedSet_eq_false_iff (r : OpRow) (w : Word) :
    r.unusedSet w = false ↔
      mdField w = slotIf r.usesMd (mdField w) ∧ maField w = slotIf r.usesMa (maField w) ∧
        mbField w = slotIf r.usesMb (mbField w) := by
  rw [← Bool.not_eq_true, r.unusedSet_eq_true_iff, not_or, not_or]
  simp only [eq_slotIf_iff]

/-! ### The decoder -/

/-- The word passes the checks of 30_encoding.md R97 items 1 to 3 as a word of this row. -/
def OpRow.Accepts (r : OpRow) (w : Word) : Prop := r.opc = opcField w ∧ rsvField w = 0 ∧ r.unusedSet w = false

theorem decode_of_findRow {w : Word} {r : OpRow} (h : findRow (opcField w) = some r) :
    decode w = if rsvField w ≠ 0 then .error .reservedBits else if r.unusedSet w then .error .unusedField
      else .ok (r.build (mdField w) (maField w) (mbField w)) := by
  rw [decode, h]

theorem decode_of_accepts {w : Word} {r : OpRow} (hr : r ∈ opRows) (h : r.Accepts w) :
    decode w = .ok (r.build (mdField w) (maField w) (mbField w)) := by
  obtain ⟨hopc, hrsv, hunused⟩ := h
  simp [decode_of_findRow (findRow_eq_some_iff.2 ⟨hr, hopc⟩), hrsv, hunused]

/-- Everything the decoder can answer. -/
theorem decode_cases (w : Word) :
    (∃ e, decode w = .error e ∧ e.cause = 7) ∨
      ∃ r ∈ opRows, r.Accepts w ∧ decode w = .ok (r.build (mdField w) (maField w) (mbField w)) := by
  match hrow : findRow (opcField w) with
  | none => exact .inl ⟨.badOpcode, by rw [decode, hrow], rfl⟩
  | some r =>
    obtain ⟨hr, hopc⟩ := findRow_eq_some_iff.1 hrow
    by_cases hrsv : rsvField w = 0
    · cases hunused : r.unusedSet w with
      | true => exact .inl ⟨.unusedField, by simp [decode_of_findRow hrow, hrsv, hunused], rfl⟩
      | false => exact .inr ⟨r, hr, ⟨hopc, hrsv, hunused⟩, decode_of_accepts hr ⟨hopc, hrsv, hunused⟩⟩
    · exact .inl ⟨.reservedBits, by rw [decode_of_findRow hrow, if_pos hrsv], rfl⟩

/-- A word that a row accepts is the word of the command built from its fields: the unused fields are 0, as the
encoder leaves them. -/
theorem OpRow.Accepts.encode_build {r : OpRow} {w : Word} (h : r.Accepts w) (hr : r ∈ opRows) :
    encode (r.build (mdField w) (maField w) (mbField w)) = w := by
  obtain ⟨hopc, hrsv, hunused⟩ := h
  obtain ⟨hd, ha, hb⟩ := (r.unusedSet_eq_false_iff w).1 hunused
  calc encode (r.build (mdField w) (maField w) (mbField w))
      _ = commandWord (opcField w) (mdField w) (maField w) (mbField w) := by
        rw [(opRows_sound r hr).encode, hopc, ← hd, ← ha, ← hb]
      _ = joinFields (rsvField w) (mbField w) (maField w) (mdField w) (opcField w) := by rw [← joinFields_zero, hrsv]
      _ = w := joinFields_fields w

theorem slotIf_slotIf (used : Bool) (f : SlotField) : slotIf used (slotIf used f) = slotIf used f := by
  cases used <;> rfl

theorem decode_encode (i : Instr) : decode (encode i) = .ok i := by
  obtain ⟨r, hrow, d, a, b, rfl⟩ := i.exists_row
  obtain ⟨hr, -⟩ := findRow_eq_some_iff.1 hrow
  have hsound := opRows_sound r hr
  have haccepts : r.Accepts (encode (r.build d a b)) := by
    simp [OpRow.Accepts, hsound.encode, r.unusedSet_eq_false_iff, slotIf_slotIf]
  rw [decode_of_accepts hr haccepts]
  simp [hsound.encode, hsound.build_slotIf]

theorem encode_of_decode {w : Word} {i : Instr} (h : decode w = .ok i) : encode i = w := by
  obtain ⟨e, he, -⟩ | ⟨r, hr, haccepts, hok⟩ := decode_cases w
  · exact nomatch he.symm.trans h
  · cases hok.symm.trans h
    exact haccepts.encode_build hr

/-- Settles O7: every command is built by a row of the opcode map, and what a row builds is encoded by the row's opcode
and the fields it uses (`OpRow.Sound`). -/
theorem decodeEncodeRoundTrip : Obligations.DecodeEncodeRoundTrip :=
  ⟨decode_encode, fun _ _ => encode_of_decode⟩

/-! ### Match and mask -/

/-- The mask of a row (30_encoding.md R101): it clears the slot fields the row uses. -/
def OpRow.mask (r : OpRow) : Word :=
  joinFields (BitVec.allOnes 12) (slotIf (!r.usesMb) (BitVec.allOnes 4)) (slotIf (!r.usesMa) (BitVec.allOnes 4))
    (slotIf (!r.usesMd) (BitVec.allOnes 4)) (BitVec.allOnes 8)

theorem and_slotIf_not_eq_zero_iff {used : Bool} {f : SlotField} :
    f &&& slotIf (!used) (BitVec.allOnes 4) = 0 ↔ f = slotIf used f := by
  cases used <;> simp [slotIf, -BitVec.reduceAllOnes]

theorem OpRow.accepts_iff_mask (r : OpRow) (w : Word) : r.Accepts w ↔ w &&& r.mask = commandWord r.opc 0 0 0 := by
  conv_rhs => rw [← joinFields_fields w, OpRow.mask, joinFields_and]
  rw [← joinFields_zero, joinFields_eq_iff, OpRow.Accepts, r.unusedSet_eq_false_iff]
  simp only [and_slotIf_not_eq_zero_iff, BitVec.and_allOnes]
  tauto

/-- A row as R101's table writes it: match, mask and command. -/
def OpRow.maskRow (r : OpRow) : Word × Word × (SlotField → SlotField → SlotField → Instr) :=
  (commandWord r.opc 0 0 0, r.mask, r.build)

/-- Settles O8: R101's table is the opcode map with its masks (`OpRow.maskRow`), and a mask selects the words its row
accepts. -/
theorem maskMatch : Obligations.MaskMatch := by
  unfold Obligations.MaskMatch
  intro _ _ _ _ _ rows w
  have hrows : rows = opRows.map OpRow.maskRow := rfl
  rw [hrows, List.forall_mem_map, List.forall_mem_map]
  refine ⟨fun r hr hmatch => decode_of_accepts hr ((r.accepts_iff_mask w).2 hmatch), fun hnone => ?_⟩
  obtain herror | ⟨r, hr, haccepts, -⟩ := decode_cases w
  · exact herror
  · exact absurd ((r.accepts_iff_mask w).1 haccepts) (hnone r hr)

end Sys2Proof

namespace Sys2Proof.Machine

/-! ### BAD_SLOT -/

theorem checkSlots_of_not_ok {fields : List SlotField} (h : fields.all SlotField.ok = false) :
    checkSlots fields = .error (.raise .badSlot) := raiseIf_pos _ h

theorem finish_checkSlots_of_not_ok (s : State) {fields : List SlotField} (h : fields.all SlotField.ok = false)
    (k : Unit → Check State) : finish s (checkSlots fields >>= k) = .next (s.errored 1 2 0) := by
  rw [checkSlots_of_not_ok h]
  exact finish_raise s .badSlot

/-- A command that is not well formed completes with RANGE(BAD_SLOT): its first check (30_encoding.md R97 item 4). -/
theorem exec_of_not_wellFormed {i : Instr} (s : State) (h : i.wellFormed = false) :
    exec i s = .next (s.errored 1 2 0) := by
  cases i with
  | nop | fadd | fmul | fdiv | finv | fexp | config | encode | decode | emget => exact nomatch h
  | mcreate | mident | mvand | mget | mset | mdim | mgetrow | msub | maug | mswap | mtimes | minv | code | check
  | emexport => exact finish_checkSlots_of_not_ok s h _
  | mgauss d =>
    have hstop : gaussOperand d s = .error (.raise .badSlot) := by
      rw [gaussOperand, checkSlots_of_not_ok (fields := [d]) h, check_bind_error]
    rw [exec, execMgauss, hstop]
    exact finish_raise s .badSlot

/-- Settles O9: the words are decoded by evaluation, and MCREATE with MD = 9 is not well formed. -/
theorem encodingExamples : Obligations.EncodingExamples :=
  ⟨rfl, rfl, rfl, rfl, rfl, rfl, rfl, rfl, rfl, rfl, rfl, rfl, rfl, rfl, fun s => exec_of_not_wellFormed s rfl⟩

/-! ### The checks in order -/

theorem legalOpcode_iff (n : Nat) : LegalOpcode n ↔ n ∈ opRows.map (·.opc.toNat) := by
  have hopcodes : opRows.map (·.opc.toNat) =
      List.range' 0 6 ++ List.range' 0x10 13 ++ List.range' 0x20 2 ++ List.range' 0x30 5 := by decide
  simp only [hopcodes, List.mem_append, List.mem_range'_1, LegalOpcode]
  omega

theorem findRow_of_legalOpcode {opc : Byte} (h : LegalOpcode opc.toNat) : ∃ r, findRow opc = some r := by
  obtain ⟨r, hr, hopc⟩ := List.mem_map.1 ((legalOpcode_iff _).1 h)
  exact ⟨r, findRow_eq_some_iff.2 ⟨hr, BitVec.eq_of_toNat_eq hopc⟩⟩

theorem findRow_of_not_legalOpcode {opc : Byte} (h : ¬ LegalOpcode opc.toNat) : findRow opc = none := by
  rw [Option.eq_none_iff_forall_ne_some]
  intro r hrow
  obtain ⟨hr, rfl⟩ := findRow_eq_some_iff.1 hrow
  exact h ((legalOpcode_iff _).2 (List.mem_map_of_mem hr))

/-- The columns MD, MA and MB of R100, as Safety.lean lists them. -/
theorem opRows_uses : ∀ r ∈ opRows, (r.opc.toNat ∈ mdOpcodes ↔ r.usesMd = true) ∧
    (r.opc.toNat ∈ maOpcodes ↔ r.usesMa = true) ∧ (r.opc.toNat ∈ mbOpcodes ↔ r.usesMb = true) := by
  decide

theorem wellFormed_build_eq_false_iff {r : OpRow} (hr : r ∈ opRows) (d a b : SlotField) :
    (r.build d a b).wellFormed = false ↔
      (r.usesMd = true ∧ 8 ≤ d.toNat) ∨ (r.usesMa = true ∧ 8 ≤ a.toNat) ∨ (r.usesMb = true ∧ 8 ≤ b.toNat) := by
  have hmem (used : Bool) (f : SlotField) :
      (if used then [f] else []).all SlotField.ok = false ↔ used = true ∧ 8 ≤ f.toNat := by
    cases used <;> simp [SlotField.ok, Config.nmat]
  rw [Instr.wellFormed, (opRows_sound r hr).slotFields, List.all_append, List.all_append, Bool.and_eq_false_iff,
    Bool.and_eq_false_iff, hmem, hmem, hmem, or_assoc]

theorem runWord_of_error {s : State} {w : Word} {e : Raise} (h : Sys2Proof.decode w = .error e) :
    runWord w s = .next (s.errored e.detail e.cause e.info) := by
  simp only [runWord, h, State.failWith_eq]

theorem runWord_of_ok {s : State} {w : Word} {i : Instr} (h : Sys2Proof.decode w = .ok i) :
    runWord w s = exec i s := by
  rw [runWord, h]

/-- With no input left the engine runs the word in flight (44_control.md R242). -/
theorem step_busy {s : State} {c : Command} (hrun : s.run = .busy c) (hin : s.inputs = []) :
    step s = runWord c.word s := by
  rw [step, hin, engineStep, hrun]

/-- Settles O6: a line per check of `decode`, then `exec_of_not_wellFormed`. -/
theorem commandWordChecks : Obligations.CommandWordChecks := by
  intro s c hrun hin
  rw [step_busy hrun hin]
  simp only [← toNat_opcField, ← toNat_mdField, ← toNat_maField, ← toNat_mbField, ← toNat_rsvField]
  generalize c.word = w
  refine ⟨fun hopc => ?_, fun hopc => ?_⟩
  · exact runWord_of_error (e := .badOpcode) (by rw [decode, findRow_of_not_legalOpcode hopc])
  obtain ⟨r, hrow⟩ := findRow_of_legalOpcode (not_not.1 hopc)
  obtain ⟨hr, hopcField⟩ := findRow_eq_some_iff.1 hrow
  have hdecode := decode_of_findRow hrow
  obtain ⟨hmd, hma, hmb⟩ := opRows_uses r hr
  simp only [← hopcField, rangeLine, hmd, hma, hmb, Bool.not_eq_true, toNat_ne_zero_iff, ← r.unusedSet_eq_true_iff,
    ← wellFormed_build_eq_false_iff hr]
  refine ⟨fun hrsv => ?_, fun hrsv => ⟨fun hunused => ?_, fun hunused => ?_⟩⟩
  · exact runWord_of_error (e := .reservedBits) (hdecode.trans (if_pos hrsv))
  · exact runWord_of_error (e := .unusedField) (hdecode.trans ((if_neg hrsv).trans (if_pos hunused)))
  have hok := hdecode.trans ((if_neg hrsv).trans (if_neg hunused))
  rw [runWord_of_ok hok]
  refine ⟨exec_of_not_wellFormed s, fun hwf => ⟨_, hok, Bool.eq_true_of_not_eq_false hwf, ?_, rfl⟩⟩
  rw [(opRows_sound r hr).opcode]

end Sys2Proof.Machine
end

section
/-! PROOF. The one word of each command (30_encoding.md R100), and the checks of a command in order (60_exceptions.md
R270): each check in front of the rest of the command is one line of `Checked`. -/

namespace Sys2Proof.Machine

theorem isEncoding_encode (i : Instr) : IsEncoding (encode i) i := fun _ =>
  ⟨fun h => (encode_of_decode h).symm, fun h => h ▸ decode_encode i⟩

section Checked

variable {s : State} {out : Host.Outcome State Fault Refusal} {rest : List CheckLine} {otherwise : Prop}

/-- A check in front of the rest of a command, in the words of the statement. -/
theorem Checked.ite {cond c : Prop} [Decidable c] {r : Raise} {k : Check State} (hcond : cond ↔ c)
    (h : out = finish s (if c then .error (.raise r) else k))
    (hrest : ¬ cond → out = finish s k → Checked s out rest otherwise) :
    Checked s out ({ cond := cond, detail := r.detail, cause := r.cause, info := r.info } :: rest) otherwise := by
  rw [finish_ite] at h
  exact ⟨fun hc => h.trans (if_pos (hcond.1 hc)), fun hc => hrest hc (h.trans (if_neg (hcond.not.1 hc)))⟩

/-- A field-element operand (30_encoding.md R95). -/
theorem Checked.fieldArg {i : Fin 8} {k : Byte → Check State} (h : out = finish s (s.fieldArg i >>= k))
    (hrest : ¬ (s.arg i < 0 ∨ 255 < s.arg i) → out = finish s (k (BitVec.ofInt 8 (s.arg i))) →
      Checked s out rest otherwise) :
    Checked s out (rangeLine (s.arg i < 0 ∨ 255 < s.arg i) 7 :: rest) otherwise := by
  rw [s.fieldArg_bind] at h
  exact .ite (r := .fieldValue) Iff.rfl h hrest

end Checked

end Sys2Proof.Machine
end

section
/-! PROOF. The field quotient and the field laws under an irreducible FIELD_POLY (40_field.md R123, R124, R125). -/

namespace Sys2Proof.Machine

/-- Everything a quotient can do (40_field.md R123). -/
theorem gdiv_eq (poly : BitVec 9) (a b : Byte) :
    gdiv poly a b = if b = 0 ∧ a ≠ 0 then .error (.raise .divByZero) else
      if b = 0 ∧ a = 0 then .error (.raise .zeroByZero) else .ok (if a = 0 then 0 else quotient poly a b) := by
  rw [gdiv, raiseIf_bind, raiseIf_bind]

theorem gdiv_of_ne_zero (poly : BitVec 9) (a : Byte) {b : Byte} (hb : b ≠ 0) :
    gdiv poly a b = .ok (if a = 0 then 0 else quotient poly a b) := by
  rw [gdiv_eq, if_neg fun h => hb h.1, if_neg fun h => hb h.1]

/-- Everything an inverse can do (40_field.md R124). -/
theorem gdiv_one (poly : BitVec 9) (a : Byte) :
    gdiv poly 1 a = if a = 0 then .error (.raise .divByZero) else .ok (quotient poly 1 a) := by
  have hone : (1 : Byte) ≠ 0 := by decide
  simp only [gdiv_eq, hone, ne_eq, not_false_eq_true, and_true, and_false, if_false]

section Irreducible

variable {poly : BitVec 9} {a b q : Byte}

/-- The element `gdiv` gives is the only one whose product with the divisor is the dividend (40_field.md R123). -/
theorem gmul_eq_iff (hirr : IrreduciblePoly poly) (hb : b ≠ 0) :
    gmul poly q b = a ↔ q = if a = 0 then 0 else quotient poly a b := by
  have hquot : gmul poly (if a = 0 then 0 else quotient poly a b) b = a := by
    split
    next ha => exact (gmul_zero_left poly b).trans ha.symm
    next ha => exact gmul_quotient poly hirr a b ha hb
  obtain ⟨_, -, huniq⟩ := quotient_unique poly hirr a b hb
  constructor
  · intro hq
    exact (huniq q hq).trans (huniq _ hquot).symm
  · rintro rfl
    exact hquot

theorem gdiv_eq_ok_iff (hirr : IrreduciblePoly poly) (hb : b ≠ 0) : gdiv poly a b = .ok q ↔ gmul poly q b = a := by
  rw [gdiv_of_ne_zero poly a hb, Except.ok.injEq, eq_comm, gmul_eq_iff hirr hb]

end Irreducible

/-- Settles O55: the laws of Laws/Field.lean, and for cancellation and inverses `gdiv_eq_ok_iff`. -/
theorem fieldLaws : Obligations.FieldLaws := by
  intro poly hirr a b c
  have h8 := hirr.1
  refine ⟨gmul_comm poly a b, gmul_assoc poly h8 a b c, gmul_xor_right poly a b c, gmul_zero_right poly a,
    gmul_one_right poly h8 a, fun hb => (gdiv_eq_ok_iff hirr hb).2 rfl, fun ha => ?_, BitVec.xor_self⟩
  obtain ⟨q, hq, -⟩ := quotient_unique poly hirr 1 a ha
  exact ⟨q, (gdiv_eq_ok_iff hirr ha).2 hq, (gmul_comm poly a q).trans hq⟩

end Sys2Proof.Machine
end

section
/-! PROOF. `gmul` is the product of polynomials over GF(2) modulo FIELD_POLY (40_field.md R120, R121). -/

namespace Sys2Proof.Machine

open Polynomial (X)

/-! ### Bit vectors as polynomials over GF(2) -/

/-- The polynomial of a bit vector: bit i is the coefficient of x^i (40_field.md R120). -/
noncomputable def toPoly {n : Nat} (v : BitVec n) : Polynomial (ZMod 2) :=
  ∑ i ∈ Finset.range n, if v.getLsbD i then X ^ i else 0

variable {n : Nat}

@[simp] theorem coeff_toPoly (v : BitVec n) (i : Nat) : (toPoly v).coeff i = if v.getLsbD i then 1 else 0 := by
  have hterm (j : Nat) : (if v.getLsbD j then (X : Polynomial (ZMod 2)) ^ j else 0).coeff i =
      if i = j then (if v.getLsbD i then 1 else 0) else 0 := by
    obtain rfl | hne := eq_or_ne i j
    · rw [if_pos rfl]
      split <;> simp
    · rw [if_neg hne]
      split <;> simp [Polynomial.coeff_X_pow, hne]
  simp only [toPoly, Polynomial.finsetSum_coeff, hterm, Finset.sum_ite_eq, Finset.mem_range]
  by_cases hi : i < n
  · rw [if_pos hi]
  · rw [if_neg hi, BitVec.getLsbD_of_ge v i (Nat.not_lt.1 hi)]
    rfl

/-- Addition is XOR (40_field.md R120). -/
theorem toPoly_xor (v w : BitVec n) : toPoly (v ^^^ w) = toPoly v + toPoly w := by
  ext i
  rw [Polynomial.coeff_add, coeff_toPoly, coeff_toPoly, coeff_toPoly, BitVec.getLsbD_xor]
  cases v.getLsbD i <;> cases w.getLsbD i <;> decide

/-- A shift that drops no bit is the product with a power of x. -/
theorem toPoly_zeroExtend_shiftLeft (v : BitVec n) {m k : Nat} (h : n + k ≤ m) :
    toPoly (v.zeroExtend m <<< k) = toPoly v * X ^ k := by
  ext i
  have hbit : (v.zeroExtend m <<< k).getLsbD i = (decide (k ≤ i) && v.getLsbD (i - k)) := by
    have hlow := v.getLsbD_of_ge (i - k)
    grind
  rw [Polynomial.coeff_mul_X_pow', coeff_toPoly, coeff_toPoly, hbit]
  by_cases hki : k ≤ i <;> simp [hki]

/-! ### The product -/

theorem toPoly_clStep (a b : Byte) (p : BitVec 15) {i : Nat} (hi : i < 8) :
    toPoly (clStep a b p i) = toPoly p + toPoly a * if b.getLsbD i then X ^ i else 0 := by
  rw [clStep]
  split
  · rw [toPoly_xor, toPoly_zeroExtend_shiftLeft a (by omega)]
  · rw [mul_zero, add_zero]

/-- The carry-less product is the product of the polynomials (40_field.md R121, first loop). -/
theorem toPoly_clmul (a b : Byte) : toPoly (clmul a b) = toPoly a * toPoly b := by
  have hloop (k : Nat) (hk : k ≤ 8) : toPoly ((List.range k).foldl (clStep a b) 0) =
      toPoly a * ∑ i ∈ Finset.range k, if b.getLsbD i then X ^ i else 0 := by
    induction k with
    | zero => simp [toPoly]
    | succ k ih =>
      rw [List.range_succ, List.foldl_append, List.foldl_cons, List.foldl_nil, toPoly_clStep a b _ (by omega),
        ih (by omega), Finset.sum_range_succ, mul_add]
  exact hloop 8 le_rfl

/-! ### The reduction -/

variable {poly : BitVec 9}

theorem toPoly_dvd_redStep (p : BitVec 15) {k : Nat} (hk : k < 15) :
    toPoly poly ∣ toPoly p - toPoly (redStep poly p k) := by
  rw [redStep]
  split
  · rw [toPoly_xor, toPoly_zeroExtend_shiftLeft poly (by omega), sub_add_cancel_left]
    exact (dvd_mul_right _ _).neg_right
  · rw [sub_self]
    exact dvd_zero _

/-- The step at k clears bit k and sets no bit above it. -/
theorem redStep_getLsbD (h : poly.getLsbD 8 = true) {p : BitVec 15} {k : Nat} (hk : 8 ≤ k) (hk' : k < 15)
    (hp : ∀ i, k < i → p.getLsbD i = false) (i : Nat) (hi : k ≤ i) : (redStep poly p k).getLsbD i = false := by
  have hshift : (poly.zeroExtend 15 <<< (k - 8)).getLsbD i = decide (i = k) := by
    have hhigh := poly.getLsbD_of_ge (i - (k - 8))
    grind
  rw [redStep]
  obtain rfl | hlt := hi.eq_or_lt
  · split
    next hset => rw [BitVec.getLsbD_xor, hset, hshift, decide_eq_true rfl, Bool.xor_self]
    next hclear => exact Bool.eq_false_of_not_eq_true hclear
  · split
    next => rw [BitVec.getLsbD_xor, hp i hlt, hshift, decide_eq_false hlt.ne', Bool.xor_self]
    next => exact hp i hlt

/-- 40_field.md R121, second loop: the steps from k = 7 + n down to 8 take multiples of FIELD_POLY and leave a byte. -/
theorem foldl_redStep_dvd (h : poly.getLsbD 8 = true) (n : Nat) (hn : n ≤ 7) (p : BitVec 15)
    (hp : ∀ i, 8 + n ≤ i → p.getLsbD i = false) :
    toPoly poly ∣ toPoly p - toPoly ((List.range' 8 n).reverse.foldl (redStep poly) p) ∧
      ∀ i, 8 ≤ i → ((List.range' 8 n).reverse.foldl (redStep poly) p).getLsbD i = false := by
  induction n generalizing p with
  | zero => exact ⟨by simp, hp⟩
  | succ n ih =>
    rw [List.range'_1_concat, List.reverse_append, List.reverse_singleton, List.singleton_append, List.foldl_cons]
    obtain ⟨hdvd, hbyte⟩ := ih (by omega) (redStep poly p (8 + n))
      (redStep_getLsbD h (by omega) (by omega) fun i hi => hp i (by omega))
    refine ⟨?_, hbyte⟩
    rw [← sub_add_sub_cancel]
    exact dvd_add (toPoly_dvd_redStep p (by omega)) hdvd

theorem toPoly_truncate {p : BitVec 15} (hp : ∀ i, 8 ≤ i → p.getLsbD i = false) :
    toPoly (p.truncate 8) = toPoly p := by
  ext i
  have hbit : (p.truncate 8).getLsbD i = p.getLsbD i := by
    have hhigh := hp i
    grind
  rw [coeff_toPoly, coeff_toPoly, hbit]

/-- 40_field.md R121. -/
theorem toPoly_dvd_reduce (h : poly.getLsbD 8 = true) (p : BitVec 15) :
    toPoly poly ∣ toPoly p - toPoly (reduce poly p) := by
  obtain ⟨hdvd, hbyte⟩ := foldl_redStep_dvd h 7 le_rfl p fun i hi => p.getLsbD_of_ge i hi
  have hloop : reduce poly p = ((List.range' 8 7).reverse.foldl (redStep poly) p).truncate 8 := rfl
  rwa [hloop, toPoly_truncate hbyte]

/-- Settles O54: the carry-less product is the product (`toPoly_clmul`), and the reduction takes a multiple of
FIELD_POLY from it (`toPoly_dvd_reduce`). -/
theorem gmulIsPolynomialProduct : Obligations.GmulIsPolynomialProduct := by
  intro poly a b h
  obtain ⟨q, hq⟩ := toPoly_dvd_reduce h (clmul a b)
  rw [toPoly_clmul] at hq
  exact ⟨q, sub_eq_iff_eq_add.1 hq⟩

end Sys2Proof.Machine
end

section
/-! PROOF. The field commands (40_field.md R128 to R132). -/

namespace Sys2Proof.Machine

/-- A field-element operand is 0 exactly when its byte is. -/
theorem ofInt_eq_zero_iff {v : Int} (hv : ¬ (v < 0 ∨ 255 < v)) : BitVec.ofInt 8 v = 0 ↔ v = 0 := by
  rw [← BitVec.toNat_inj, BitVec.toNat_ofInt]
  change (v % 2 ^ 8).toNat = 0 ↔ v = 0
  omega

theorem State.natArg_lt (s : State) (i : Fin 8) : s.natArg i < 2 ^ 32 := by
  have hlt := s.cmd.args[i].toInt_lt
  simp only [State.natArg, State.arg, sint32]
  omega

/-- Settles O20: the two operand checks, then the sum. -/
theorem faddIsXor : Obligations.FaddIsXor := by
  refine ⟨isEncoding_encode .fadd, fun s => ?_⟩
  refine .fieldArg (s := s) rfl fun _ h => .fieldArg h fun _ h => ?_
  exact h.trans (finish_ok s _)

/-- Settles O21: the two operand checks, then the product. -/
theorem fmulIsProduct : Obligations.FmulIsProduct := by
  refine ⟨isEncoding_encode .fmul, fun s => ?_⟩
  refine .fieldArg (s := s) rfl fun _ h => .fieldArg h fun _ h => ?_
  exact h.trans (finish_ok s _)

/-- Settles O24: the two checks, then `gexp`, which is the repeated product (`gexp_eq_repeated`). -/
theorem fexpIsPower : Obligations.FexpIsPower := by
  refine ⟨isEncoding_encode .fexp, fun s => .fieldArg (s := s) rfl fun _ h => ?_⟩
  rw [raiseIf_bind] at h
  refine .ite (r := .negative) Iff.rfl h fun _ h => ⟨_, h.trans (finish_ok s _), fun h8 => ?_⟩
  exact gexp_eq_repeated s.par.fieldPoly h8 _ _ (s.natArg_lt 1)

/-- Settles O22: the four checks (`gdiv_eq`), then the quotient, which `gmul_eq_iff` says is the only one. -/
theorem fdivIsQuotient : Obligations.FdivIsQuotient := by
  refine ⟨isEncoding_encode .fdiv, fun s => .fieldArg (s := s) rfl fun ha h => .fieldArg h fun hb h => ?_⟩
  have hzero0 := ofInt_eq_zero_iff ha
  have hzero1 := ofInt_eq_zero_iff hb
  rw [gdiv_eq, ite_err_bind, ite_err_bind, check_bind_ok] at h
  refine .ite (r := .divByZero) (by rw [ne_eq, ne_eq, hzero0, hzero1]) h fun hdiv h =>
    .ite (r := .zeroByZero) (by rw [hzero0, hzero1]) h fun _ h => ⟨_, h.trans (finish_ok s _), ?_, ?_⟩
  · exact fun h0 => if_pos (hzero0.2 h0)
  · intro hirr h0
    have hdividend : BitVec.ofInt 8 (s.arg 0) ≠ 0 := fun e => h0 (hzero0.1 e)
    have hdivisor : BitVec.ofInt 8 (s.arg 1) ≠ 0 := fun e => hdiv ⟨hzero1.1 e, h0⟩
    refine ⟨fun hq => ?_, fun p => gmul_eq_iff hirr hdivisor⟩
    have hproduct := (gmul_eq_iff hirr hdivisor).2 hq.symm
    exact hdividend (hproduct.symm.trans (gmul_zero_left _ _))

/-- Settles O23: the two checks (`gdiv_one`), then the quotient of 1, which `gmul_eq_iff` says is the only one. -/
theorem finvIsInverse : Obligations.FinvIsInverse := by
  refine ⟨isEncoding_encode .finv, fun s => .fieldArg (s := s) rfl fun ha h => ?_⟩
  have hzero := ofInt_eq_zero_iff ha
  rw [gdiv_one, ite_err_bind, check_bind_ok] at h
  refine .ite (r := .divByZero) hzero.symm h fun hne h => ⟨_, h.trans (finish_ok s _), fun hirr p => ?_⟩
  have hdivisor : BitVec.ofInt 8 (s.arg 0) ≠ 0 := fun e => hne (hzero.1 e)
  rw [gmul_comm]
  exact gmul_eq_iff hirr hdivisor

end Sys2Proof.Machine
end

section
/-! PROOF. The matrix commands (41_matrix.md R150 to R163, R167, R168): each check is a line of `Checked`, and what
passes them writes one slot, the result registers or a block of BUFMEM. -/

namespace Sys2Proof.Machine

/-! ### The word of a command -/

theorem fieldsWord_eq_commandWord (opc : Byte) (d a b : SlotField) :
    fieldsWord (opc.zeroExtend 32) d a b = commandWord opc d a b := by
  change _ = (0 : BitVec 12) ++ b ++ a ++ d ++ opc
  apply BitVec.eq_of_getLsbD_eq
  intro i hi
  simp only [fieldsWord, BitVec.getLsbD_or, BitVec.getLsbD_append]
  grind

/-- The word of a command in the terms of 30_encoding.md R91. -/
theorem isEncoding_fieldsWord {i : Instr} {opc : Word} {d a b : SlotField} (hopc : opc = i.opcode.zeroExtend 32)
    (h : encode i = commandWord i.opcode d a b) : IsEncoding (fieldsWord opc d a b) i := by
  rw [hopc, fieldsWord_eq_commandWord, ← h]
  exact isEncoding_encode i

/-! ### The checks -/

section Checked

variable {s : State} {out : Host.Outcome State Fault Refusal} {rest : List CheckLine} {otherwise cond : Prop}

/-- A check `if c: raise r` in front of the rest of a command. -/
theorem Checked.raiseIf {c : Prop} [Decidable c] (r : Raise) {k : Unit → Check State} (hcond : cond ↔ c)
    (h : out = finish s (raiseIf c r >>= k))
    (hrest : ¬ cond → out = finish s (k ()) → Checked s out rest otherwise) :
    Checked s out ({ cond := cond, detail := r.detail, cause := r.cause, info := r.info } :: rest) otherwise :=
  .ite hcond (h.trans (by rw [raiseIf_bind])) hrest

/-- The slot fields of a command (30_encoding.md R97 item 4). -/
theorem Checked.slots {fields : List SlotField} {k : Unit → Check State}
    (hcond : cond ↔ ∃ f ∈ fields, 8 ≤ f.toNat)
    (h : out = finish s (checkSlots fields >>= k))
    (hrest : ¬ cond → out = finish s (k ()) → Checked s out rest otherwise) :
    Checked s out (rangeLine cond 1 :: rest) otherwise :=
  .ite (r := .badSlot) hcond (checkSlots_bind fields k ▸ h) hrest

/-- A matrix operand (41_matrix.md R141). -/
theorem Checked.readSlot {m : SlotField} {k : Matrix → Check State} (h : out = finish s (s.readSlot m >>= k))
    (hrest : (s.slot m).rows ≠ 0 → out = finish s (k (s.slot m)) → Checked s out rest otherwise) :
    Checked s out (rangeLine ((s.slot m).rows = 0) 2 :: rest) otherwise :=
  .ite (r := .emptySlot) Iff.rfl (s.readSlot_bind m k ▸ h) hrest

end Checked

/-- Everything the MSET value can do (41_matrix.md R154). -/
theorem entryValue_bind (v : Int) {β : Type} (k : Byte → Check β) :
    (entryValue v >>= k) = if v < -256 ∨ 255 < v then .error (.raise .fieldValue)
      else k (BitVec.ofNat 8 (if v < 0 then v + 256 else v).toNat) := by
  rw [entryValue, raiseIf_bind, ite_err_bind, check_bind_ok]
  exact if_congr (by split <;> omega) rfl rfl


/-! ### The new slot -/

theorem onlySlot_setSlot (s : State) (d : SlotField) (m : Matrix) : OnlySlot s (s.setSlot d m) d :=
  ⟨fun _ hj => s.slot_setSlot_other m hj.symm, rfl⟩

/-- What a command leaves whose effect is a new matrix in its slot (41_matrix.md R140). -/
theorem exists_completed_setSlot {s : State} {out : Host.Outcome State Fault Refusal} {d : SlotField} {m : Matrix}
    {P : Matrix → Prop} (hd : d.toNat < 8) (h : out = finish s (.ok (s.setSlot d m))) (hm : P m) :
    ∃ t : State, out = .next t.completed ∧ OnlySlot s t d ∧ P (t.slot d) :=
  ⟨_, h.trans (finish_ok s _), onlySlot_setSlot s d m, (s.slot_setSlot_same d m hd).symm ▸ hm⟩

/-- The same, where the new matrix is given entry by entry. -/
theorem Checked.setSlot {s : State} {out : Host.Outcome State Fault Refusal} {d : SlotField} {m : Matrix}
    {rows cols : Nat} {f : Nat → Nat → Byte} (hd : d.toNat < 8) (h : out = finish s (.ok (s.setSlot d m)))
    (hm : m.Is rows cols f) :
    Checked s out [] (∃ t : State, out = .next t.completed ∧ OnlySlot s t d ∧ (t.slot d).Is rows cols f) :=
  exists_completed_setSlot (P := (·.Is rows cols f)) hd h hm

theorem Matrix.build_is (rows cols : Nat) (f : Nat → Nat → Byte) : (Matrix.build rows cols f).Is rows cols f :=
  ⟨rfl, rfl, Matrix.build_shaped rows cols f, Matrix.get_build rows cols f⟩

/-! ### Construction -/

/-- Settles O25: the slot and size checks, then `zeros`, which is made entry by entry. -/
theorem mcreateMakesZeros : Obligations.McreateMakesZeros := by
  refine fun d => ⟨isEncoding_fieldsWord rfl rfl, fun s => .slots (fields := [d]) (by simp) rfl fun hd h => ?_⟩
  exact .raiseIf .dimLimit Iff.rfl h fun _ h => .setSlot (not_le.1 hd) h (Matrix.build_is ..)

/-- Settles O26: the slot and size checks, then `identity`, which is made entry by entry. -/
theorem midentMakesIdentity : Obligations.MidentMakesIdentity := by
  refine fun d => ⟨isEncoding_fieldsWord rfl rfl, fun s => .slots (fields := [d]) (by simp) rfl fun hd h => ?_⟩
  exact .raiseIf .dimLimit Iff.rfl h fun _ h =>
    .setSlot (not_le.1 hd) h (Matrix.build_is ..)

theorem Matrix.vandermonde_is {poly : BitVec 9} (h8 : poly.getLsbD 8 = true) (rows : Nat) {cols : Nat}
    (hcols : cols ≤ 2 ^ 32) : (Matrix.vandermonde poly rows cols).Is rows cols fun r c =>
      repeatedProduct poly (BitVec.ofNat 8 r) c := by
  obtain ⟨hrows, hcols', hshaped, hget⟩ := Matrix.build_is rows cols fun r c => gexp poly (BitVec.ofNat 8 r) c
  exact ⟨hrows, hcols', hshaped, fun r c hr hc =>
    (hget r c hr hc).trans (gexp_eq_repeated poly h8 _ c (hc.trans_le hcols))⟩

/-- Settles O27: the slot and size checks, then powers, which are repeated products (`Matrix.vandermonde_is`). -/
theorem mvandMakesPowers : Obligations.MvandMakesPowers := by
  refine fun d => ⟨isEncoding_fieldsWord rfl rfl, fun s => .slots (fields := [d]) (by simp) rfl fun hd h => ?_⟩
  refine .raiseIf .dimLimit Iff.rfl h fun hdims h => exists_completed_setSlot
    (P := fun m => s.par.fieldPoly.getLsbD 8 = true → m.Is _ _ fun r c => repeatedProduct _ (BitVec.ofNat 8 r) c)
    (not_le.1 hd) h fun h8 => Matrix.vandermonde_is h8 _ (s.natArg_lt 1).le

/-! ### Access -/

/-- Settles O28: the three checks, then the entry. -/
theorem mgetReadsEntry : Obligations.MgetReadsEntry := by
  refine fun a => ⟨isEncoding_fieldsWord rfl rfl, fun s => .slots (fields := [a]) (by simp) rfl fun _ h => ?_⟩
  exact .readSlot h fun _ h => .raiseIf .index Iff.rfl h fun _ h => h.trans (finish_ok s _)

/-- Settles O29: the four checks, then `get_setEntry`. -/
theorem msetWritesEntry : Obligations.MsetWritesEntry := by
  refine fun d => ⟨isEncoding_fieldsWord rfl rfl, fun s hshaped =>
    .slots (fields := [d]) (by simp) rfl fun hd h => ?_⟩
  refine .readSlot h fun _ h => .raiseIf .index Iff.rfl h fun hin h => ?_
  rw [entryValue_bind] at h
  refine .ite (r := .fieldValue) Iff.rfl h fun _ h =>
    .setSlot (not_le.1 hd) h ⟨rfl, rfl, ?_, fun r c _ _ => ?_⟩
  · exact Matrix.setEntry_shaped _ _ _ _ hshaped (by omega)
  · exact Matrix.get_setEntry _ _ _ r c _ hshaped (by omega) (by omega)

/-- Settles O30: the slot check alone, then the shape. -/
theorem mdimReadsShape : Obligations.MdimReadsShape :=
  fun a => ⟨isEncoding_fieldsWord rfl rfl, fun s =>
    .slots (fields := [a]) (by simp) rfl fun _ h => h.trans (finish_ok s _)⟩

/-- Settles O31: the checks, then the block write of the row (`Memory.read_writeBlock`). -/
theorem mgetrowWritesRow : Obligations.MgetrowWritesRow := by
  refine fun a => ⟨isEncoding_fieldsWord rfl rfl, fun s => .slots (fields := [a]) (by simp) rfl fun _ h => ?_⟩
  refine .readSlot h fun _ h => .raiseIf .index Iff.rfl h fun _ h => ?_
  rw [checkRun_bind] at h
  refine .ite (r := .descIndex) (by omega) h fun _ h => ?_
  rw [State.checkPlaced_bind] at h
  refine .ite (r := .bufBounds) (by simp [State.natArg]) h fun _ h => .raiseIf .bufBounds Iff.rfl h fun _ h => ?_
  refine ⟨_, h.trans (finish_ok s _), fun c hc => ?_, fun addr haddr => ?_⟩
  · rw [Memory.read_writeBlock, if_pos (by simpa [State.natArg] using hc)]
    simp [hc, State.natArg]
  · exact Memory.read_writeBlock_outside _ _ _ _ (by simpa [InRange, State.natArg] using haddr)

/-! ### Submatrix, augmentation, row exchange and product -/

/-- Settles O32: the checks, then `msub`; the bounds passed make the sizes the differences of the integers. -/
theorem msubCopiesRange : Obligations.MsubCopiesRange := by
  refine fun d a => ⟨isEncoding_fieldsWord rfl rfl, fun s => .slots (fields := [d, a]) (by simp) rfl fun hd h => ?_⟩
  refine .readSlot h fun _ h => .raiseIf .index Iff.rfl h fun hin h =>
    .setSlot (by omega) h ?_
  have hrows : (s.arg 2 - s.arg 0).toNat = (s.arg 2).toNat - (s.arg 0).toNat := by omega
  have hcols : (s.arg 3 - s.arg 1).toNat = (s.arg 3).toNat - (s.arg 1).toNat := by omega
  rw [hrows, hcols]
  exact Matrix.build_is ..

/-- Settles O33: the five checks, then `maugment`, which is made entry by entry. -/
theorem maugJoinsRows : Obligations.MaugJoinsRows := by
  refine fun d a b => ⟨isEncoding_fieldsWord rfl rfl, fun s =>
    .slots (fields := [d, a, b]) (by simp) rfl fun hd h => ?_⟩
  exact .readSlot h fun _ h => .readSlot h fun _ h => .raiseIf .dimMismatch Iff.rfl h fun _ h =>
    .raiseIf .dimLimit Iff.rfl h fun _ h => .setSlot (by omega) h (Matrix.build_is ..)

/-- Settles O34: the checks, then `get_swapRows`. -/
theorem mswapExchangesRows : Obligations.MswapExchangesRows := by
  refine fun d => ⟨isEncoding_fieldsWord rfl rfl, fun s hshaped =>
    .slots (fields := [d]) (by simp) rfl fun hd h => ?_⟩
  refine .readSlot h fun _ h => .raiseIf .index Iff.rfl h fun hin h =>
    .setSlot (not_le.1 hd) h ⟨rfl, rfl, ?_, fun r c _ _ => ?_⟩
  · exact Matrix.swapRows_shaped _ _ _ hshaped (by omega) (by omega)
  · rw [Matrix.get_swapRows _ _ _ _ _ hshaped (by omega) (by omega)]
    simp only [State.natArg]
    grind

/-- Settles O35: the checks, then `mtimes`, which is made entry by entry. -/
theorem mtimesIsProduct : Obligations.MtimesIsProduct := by
  refine fun d a b => ⟨isEncoding_fieldsWord rfl rfl, fun s =>
    .slots (fields := [d, a, b]) (by simp) rfl fun hd h => ?_⟩
  exact .readSlot h fun _ h => .readSlot h fun _ h => .raiseIf .dimMismatch Iff.rfl h fun _ h =>
    .setSlot (by omega) h (Matrix.build_is ..)

/-! ### Elimination and inversion -/

/-- Settles O37: the checks, then the two outcomes of `minvert`. -/
theorem minvReplacesSlot : Obligations.MinvReplacesSlot := by
  refine fun d a => ⟨isEncoding_fieldsWord rfl rfl, fun s => .slots (fields := [d, a]) (by simp) rfl fun hd h => ?_⟩
  refine .readSlot h fun _ h => .raiseIf .notSquare Iff.rfl h fun hsquare h => ⟨fun v hv => ?_, fun r hr => ?_⟩
  · obtain ⟨hrows, hcols, hshaped⟩ := Matrix.minvert_shape _ _ v hv
    rw [hv] at h
    exact exists_completed_setSlot (P := fun m => m = v ∧ _) (by omega) h
      ⟨rfl, hrows, hcols.trans (not_not.1 hsquare), hshaped⟩
  · rw [hr] at h
    exact h.trans (finish_raise s (.singular r))

/-- Everything the checks of MGAUSS can do (41_matrix.md R167). -/
theorem gaussOperand_eq (d : SlotField) (s : State) :
    gaussOperand d s = if 8 ≤ d.toNat then .error (.raise .badSlot) else
      if (s.slot d).rows = 0 then .error (.raise .emptySlot) else
      if (s.slot d).cols < (s.slot d).rows then .error (.raise .dimMismatch) else .ok (s.slot d) := by
  rw [gaussOperand, checkSlots_bind, State.readSlot_bind, raiseIf_bind]
  exact if_congr (by simp) rfl rfl

theorem execMgauss_of_error {d : SlotField} {s : State} {r : Raise} (h : gaussOperand d s = .error (.raise r)) :
    exec (.mgauss d) s = .next (s.errored r.detail r.cause r.info) := by
  change execMgauss d s = _
  rw [execMgauss, h]
  exact finish_raise s r

theorem execMgauss_of_ok {d : SlotField} {s : State} {m w : Matrix} (h : gaussOperand d s = .ok m)
    (hw : m.gauss s.par.fieldPoly = .ok w) : exec (.mgauss d) s = .next (s.setSlot d w).completed := by
  change execMgauss d s = _
  simp only [execMgauss, h, hw, finish_ok]

theorem execMgauss_of_singular {d : SlotField} {s : State} {m : Matrix} {r : Nat} (h : gaussOperand d s = .ok m)
    (hr : m.gauss s.par.fieldPoly = .error r) :
    exec (.mgauss d) s = .next ((s.scrambleSlot d m.rows m.cols).errored 1 3 r) := by
  change execMgauss d s = _
  simp only [execMgauss, h, hr]
  exact finish_raise _ (.singular r)

/-- The scrambled slot keeps its shape (41_matrix.md R167). -/
theorem State.slot_scrambleSlot_same (s : State) {d : SlotField} (hd : d.toNat < 8) (rows cols : Nat) :
    (s.scrambleSlot d rows cols).slot d =
      Matrix.build rows cols fun r c => Config.freeByte (s.draws + r * cols + c) :=
  s.slot_setSlot_same d _ hd

/-- Settles O36: the checks (`gaussOperand_eq`), then the slot reduced, or its entries scrambled. -/
theorem mgaussReducesSlot : Obligations.MgaussReducesSlot := by
  refine fun d => ⟨isEncoding_fieldsWord rfl rfl, fun s hshaped => ?_⟩
  have heq := gaussOperand_eq d s
  refine ⟨fun hd => execMgauss_of_error (r := .badSlot) (heq.trans (if_pos hd)), fun (hd : ¬ 8 ≤ d.toNat) => ?_⟩
  rw [if_neg hd] at heq
  refine ⟨fun hempty => execMgauss_of_error (r := .emptySlot) (heq.trans (if_pos hempty)),
    fun (hempty : ¬ (s.slot d).rows = 0) => ?_⟩
  rw [if_neg hempty] at heq
  refine ⟨fun hwide => execMgauss_of_error (r := .dimMismatch) (heq.trans (if_pos hwide)),
    fun (hwide : ¬ (s.slot d).cols < (s.slot d).rows) => ?_⟩
  rw [if_neg hwide] at heq
  have hslot := not_le.1 hd
  refine ⟨fun w hw => ?_, fun r hr => ?_⟩
  · exact ⟨_, execMgauss_of_ok heq hw, onlySlot_setSlot s d w, s.slot_setSlot_same d w hslot,
      Matrix.gauss_shape _ _ w hshaped hw⟩
  · refine ⟨_, execMgauss_of_singular heq hr, onlySlot_setSlot s d _, ?_⟩
    rw [s.slot_scrambleSlot_same hslot]
    exact ⟨rfl, rfl, Matrix.build_shaped ..⟩

end Sys2Proof.Machine
end

section
/-! PROOF. Linear combinations of the rows of a matrix over the field (41_matrix.md R144): sums of products, the row
span, and that each row operation of the elimination (41_matrix.md R165) keeps it. -/

namespace Sys2Proof.Machine

variable {poly : BitVec 9}

/-! ### Sums of products -/

theorem xor_gmul_zero (a b : Byte) : a ^^^ gmul poly b 0 = a :=
  (congrArg (a ^^^ ·) (gmul_zero_right poly b)).trans BitVec.xor_zero

theorem xor_zero_gmul (a b : Byte) : a ^^^ gmul poly 0 b = a :=
  (congrArg (a ^^^ ·) (gmul_zero_left poly b)).trans BitVec.xor_zero

theorem xorSum_of_zero_above {m n : Nat} (hmn : m ≤ n) {f : Nat → Byte} (h : ∀ i, m ≤ i → i < n → f i = 0) :
    xorSum n f = xorSum m f := by
  induction n, hmn using Nat.le_induction with
  | base => rfl
  | succ n hmn ih =>
    rw [xorSum, ih fun i hi hin => h i hi (by omega), h n hmn (by omega)]
    exact BitVec.xor_zero

section Dot

variable {n : Nat} {f g f' g' : Nat → Byte}

theorem dot_congr (hf : ∀ i, i < n → f i = f' i) (hg : ∀ i, i < n → g i = g' i) :
    dot poly n f g = dot poly n f' g' :=
  xorSum_congr n _ _ fun i hi => by rw [hf i hi, hg i hi]

theorem dot_zero_left (h : ∀ i, i < n → f i = 0) : dot poly n f g = 0 := by
  rw [← xorSum_zero n]
  exact xorSum_congr n _ _ fun i hi => by rw [h i hi]; exact gmul_zero_left poly _

theorem dot_comm : dot poly n f g = dot poly n g f :=
  xorSum_congr n _ _ fun _ _ => gmul_comm poly _ _

theorem dot_zero_right (h : ∀ i, i < n → g i = 0) : dot poly n f g = 0 :=
  dot_comm.trans (dot_zero_left h)

theorem dot_xor_left : dot poly n (fun i => f i ^^^ f' i) g = dot poly n f g ^^^ dot poly n f' g := by
  simp only [dot, gmul_xor_left, xorSum_xor]

theorem dot_xor_right : dot poly n f (fun i => g i ^^^ g' i) = dot poly n f g ^^^ dot poly n f g' := by
  rw [dot_comm, dot_xor_left, dot_comm, dot_comm (f := g')]

theorem gmul_dot (h8 : poly.getLsbD 8 = true) (a : Byte) :
    dot poly n (fun i => gmul poly a (f i)) g = gmul poly a (dot poly n f g) := by
  induction n with
  | zero => exact (gmul_zero_right poly a).symm
  | succ n ih =>
    change dot poly n _ g ^^^ gmul poly (gmul poly a (f n)) (g n) =
      gmul poly a (dot poly n f g ^^^ gmul poly (f n) (g n))
    rw [ih, gmul_xor_right, gmul_assoc poly h8]

/-- A sum with one term that can differ from 0. -/
theorem dot_single_right {k : Nat} (hk : k < n) (h : ∀ i, i < n → i ≠ k → gmul poly (f i) (g i) = 0) :
    dot poly n f g = gmul poly (f k) (g k) :=
  xorSum_single n k _ hk h

/-- Entry p of the right factor changed by d. -/
theorem dot_update_right {p : Nat} (hp : p < n) (d : Byte) :
    dot poly n f (fun i => g i ^^^ if i = p then d else 0) = dot poly n f g ^^^ gmul poly (f p) d := by
  have hsingle : dot poly n f (fun i => if i = p then d else 0) = gmul poly (f p) d := by
    rw [dot_single_right hp fun i _ hne => by rw [if_neg hne]; exact gmul_zero_right poly _, if_pos rfl]
  rw [dot_xor_right, hsingle]

/-- A right factor padded with zeros. -/
theorem dot_pad_right {m : Nat} (hmn : m ≤ n) :
    dot poly n f (fun i => if i < m then g i else 0) = dot poly m f g := by
  have hzero (i : Nat) (hi : m ≤ i) (_ : i < n) : gmul poly (f i) (if i < m then g i else 0) = 0 := by
    rw [if_neg (not_lt.2 hi)]
    exact gmul_zero_right poly _
  exact (xorSum_of_zero_above hmn hzero).trans (xorSum_congr m _ _ fun i hi => by rw [if_pos hi])

theorem dot_unit_right (h8 : poly.getLsbD 8 = true) {k : Nat} (hk : k < n)
    (hg : ∀ i, i < n → g i = if i = k then 1 else 0) : dot poly n f g = f k := by
  rw [dot_single_right hk fun i hi hne => by rw [hg i hi, if_neg hne]; exact gmul_zero_right poly _, hg k hk,
    if_pos rfl, gmul_one_right poly h8]

/-- The product of matrices is associative. -/
theorem dot_dot (h8 : poly.getLsbD 8 = true) {m : Nat} {x y : Nat → Byte} {h : Nat → Nat → Byte} :
    dot poly n (fun c => dot poly m x fun i => h i c) y = dot poly m x fun i => dot poly n (h i) y := by
  induction m with
  | zero => exact dot_zero_left fun _ _ => rfl
  | succ m ih =>
    change dot poly n (fun c => dot poly m x (fun i => h i c) ^^^ gmul poly (x m) (h m c)) y = _
    rw [dot_xor_left, ih, gmul_dot h8]
    rfl

end Dot

/-! ### The row span -/

/-- On the columns of `w`, `f` is a linear combination of the rows of `w`. -/
def Matrix.InRowSpan (poly : BitVec 9) (w : Matrix) (f : Nat → Byte) : Prop :=
  ∃ x : Nat → Byte, ∀ c, c < w.cols → f c = dot poly w.rows x fun i => w.get i c

/-- Each row of `v` is a linear combination of the rows of `w`. -/
def Matrix.Spans (poly : BitVec 9) (w v : Matrix) : Prop := ∀ r, r < v.rows → w.InRowSpan poly (v.get r)

namespace Matrix.InRowSpan

variable {w : Matrix} {f g : Nat → Byte}

theorem congr (hf : w.InRowSpan poly f) (h : ∀ c, c < w.cols → g c = f c) : w.InRowSpan poly g := by
  obtain ⟨x, hx⟩ := hf
  exact ⟨x, fun c hc => (h c hc).trans (hx c hc)⟩

theorem zero : w.InRowSpan poly fun _ => 0 :=
  ⟨fun _ => 0, fun _ _ => (dot_zero_left fun _ _ => rfl).symm⟩

theorem row (h8 : poly.getLsbD 8 = true) {r : Nat} (hr : r < w.rows) : w.InRowSpan poly (w.get r) :=
  ⟨fun i => if i = r then 1 else 0, fun _ _ => by rw [dot_comm, dot_unit_right h8 hr fun _ _ => rfl]⟩

theorem add (hf : w.InRowSpan poly f) (hg : w.InRowSpan poly g) : w.InRowSpan poly fun c => f c ^^^ g c := by
  obtain ⟨x, hx⟩ := hf
  obtain ⟨y, hy⟩ := hg
  exact ⟨fun i => x i ^^^ y i, fun c hc => dot_xor_left ▸ congrArg₂ (· ^^^ ·) (hx c hc) (hy c hc)⟩

theorem scale (h8 : poly.getLsbD 8 = true) (hf : w.InRowSpan poly f) (a : Byte) :
    w.InRowSpan poly fun c => gmul poly a (f c) := by
  obtain ⟨x, hx⟩ := hf
  exact ⟨fun i => gmul poly a (x i), fun c hc => (congrArg (gmul poly a) (hx c hc)).trans (gmul_dot h8 a).symm⟩

theorem dot (h8 : poly.getLsbD 8 = true) (n : Nat) (x : Nat → Byte) {h : Nat → Nat → Byte}
    (hh : ∀ i, i < n → w.InRowSpan poly (h i)) : w.InRowSpan poly fun c => dot poly n x fun i => h i c := by
  induction n with
  | zero => exact zero
  | succ n ih => exact (ih fun i hi => hh i (by omega)).add ((hh n (by omega)).scale h8 (x n))

theorem trans (h8 : poly.getLsbD 8 = true) {v : Matrix} (hcols : w.cols = v.cols) (hwv : w.Spans poly v)
    (hf : v.InRowSpan poly f) : w.InRowSpan poly f := by
  obtain ⟨x, hx⟩ := hf
  exact (dot h8 v.rows x hwv).congr fun c hc => hx c (hcols ▸ hc)

/-- A vector the rows are orthogonal to is orthogonal to their combinations. -/
theorem dot_eq_zero (h8 : poly.getLsbD 8 = true) (hf : w.InRowSpan poly f) {n : Nat} (hn : n ≤ w.cols)
    {y : Nat → Byte} (hy : ∀ r, r < w.rows → Machine.dot poly n (w.get r) y = 0) :
    Machine.dot poly n f y = 0 := by
  obtain ⟨x, hx⟩ := hf
  rw [dot_congr (fun c hc => hx c (hc.trans_le hn)) fun _ _ => rfl, dot_dot h8]
  exact dot_zero_right hy

/-- Where `w` has an identity block from column e on, the coefficients of a combination stand in those columns. -/
theorem eq_dot_of_identity (h8 : poly.getLsbD 8 = true) (hf : w.InRowSpan poly f) {e : Nat}
    (he : e + w.rows ≤ w.cols)
    (hunit : ∀ i j, i < w.rows → j < w.rows → w.get i (e + j) = if i = j then 1 else 0)
    {c : Nat} (hc : c < w.cols) :
    f c = Machine.dot poly w.rows (fun j => f (e + j)) fun i => w.get i c := by
  obtain ⟨x, hx⟩ := hf
  rw [hx c hc]
  refine dot_congr (fun j hj => ?_) fun _ _ => rfl
  rw [hx (e + j) (by omega), dot_unit_right h8 hj fun i hi => hunit i j hi hj]

end Matrix.InRowSpan

/-- `v` has the shape and the row span of `w`. -/
structure Matrix.RowEquiv (poly : BitVec 9) (w v : Matrix) : Prop where
  shape : w.SameShape v
  spans : w.Spans poly v
  spanned : v.Spans poly w

namespace Matrix.RowEquiv

variable {u v w : Matrix}

theorem refl (h8 : poly.getLsbD 8 = true) (hw : w.Shaped) : w.RowEquiv poly w :=
  ⟨.refl hw, fun _ => .row h8, fun _ => .row h8⟩

theorem trans (h8 : poly.getLsbD 8 = true) (h : w.RowEquiv poly v) (h' : v.RowEquiv poly u) : w.RowEquiv poly u := by
  obtain ⟨-, hcols, -⟩ := h.shape
  obtain ⟨-, hcols', -⟩ := h'.shape
  exact ⟨h.shape.trans h'.shape, fun r hr => (h'.spans r hr).trans h8 hcols.symm h.spans,
    fun r hr => (h.spanned r hr).trans h8 hcols' h'.spanned⟩

/-- Equivalent matrices have the same dependencies between their columns. -/
theorem independent_iff (h8 : poly.getLsbD 8 = true) (h : w.RowEquiv poly v) {n : Nat} (hn : n ≤ w.cols) :
    w.Independent poly n ↔ v.Independent poly n := by
  obtain ⟨-, hcols, -⟩ := h.shape
  exact ⟨fun hind x hx => hind x fun r hr => (h.spanned r hr).dot_eq_zero h8 (hcols ▸ hn) hx,
    fun hind x hx => hind x fun r hr => (h.spans r hr).dot_eq_zero h8 hn hx⟩

/-! ### The row operations keep the row span -/

theorem swapRows (h8 : poly.getLsbD 8 = true) (hw : w.Shaped) {i j : Nat} (hi : i < w.rows) (hj : j < w.rows) :
    w.RowEquiv poly (w.swapRows i j) := by
  have hget := fun r c => w.get_swapRows i j r c hw hi hj
  refine ⟨⟨rfl, rfl, w.swapRows_shaped i j hw hi hj⟩, fun r (hr : r < w.rows) => ?_, fun r hr => ?_⟩
  · refine (InRowSpan.row h8 (r := if r = j then i else if r = i then j else r) (by grind)).congr fun c _ => ?_
    grind
  · refine (InRowSpan.row h8 (r := if r = j then i else if r = i then j else r) ?_).congr fun c _ => ?_
    · change _ < w.rows
      grind
    · grind

theorem scaleRow (h8 : poly.getLsbD 8 = true) (hw : w.Shaped) {r : Nat} (hr : r < w.rows) {s p : Byte}
    (hsp : gmul poly s p = 1) : w.RowEquiv poly (w.scaleRow poly r s) := by
  have hget := fun k c (hc : c < w.cols) => w.get_scaleRow poly r s k c hw hr hc
  refine ⟨⟨rfl, rfl, w.scaleRow_shaped poly r s hw hr⟩, fun k (hk : k < w.rows) => ?_, fun k hk => ?_⟩
  · by_cases hkr : k = r
    · exact ((InRowSpan.row h8 hr).scale h8 s).congr fun c hc => by rw [hget k c hc, if_pos hkr, gmul_comm]
    · exact (InRowSpan.row h8 hk).congr fun c hc => by rw [hget k c hc, if_neg hkr]
  · by_cases hkr : k = r
    · refine ((InRowSpan.row (w := w.scaleRow poly r s) h8 hk).scale h8 p).congr fun c hc => ?_
      rw [hget k c hc, if_pos hkr, hkr, gmul_comm poly p, gmul_assoc poly h8, hsp, gmul_one_right poly h8]
    · exact (InRowSpan.row (w := w.scaleRow poly r s) h8 hk).congr fun c hc => by rw [hget k c hc, if_neg hkr]

theorem addRow (h8 : poly.getLsbD 8 = true) (hw : w.Shaped) {dst src : Nat} (hd : dst < w.rows) (hs : src < w.rows)
    (hne : dst ≠ src) (s : Byte) : w.RowEquiv poly (w.addRow poly dst src s) := by
  have hget := fun k c (hc : c < w.cols) => w.get_addRow poly dst src s k c hw hd hs hc
  refine ⟨⟨rfl, rfl, w.addRow_shaped poly dst src s hw hd hs⟩, fun k (hk : k < w.rows) => ?_, fun k hk => ?_⟩
  · by_cases hkd : k = dst
    · exact ((InRowSpan.row h8 hd).add ((InRowSpan.row h8 hs).scale h8 s)).congr fun c hc => by
        rw [hget k c hc, if_pos hkd]
    · exact (InRowSpan.row h8 hk).congr fun c hc => by rw [hget k c hc, if_neg hkd]
  · by_cases hkd : k = dst
    · refine ((InRowSpan.row (w := w.addRow poly dst src s) h8 hk).add
        ((InRowSpan.row (w := w.addRow poly dst src s) h8 hs).scale h8 s)).congr fun c hc => ?_
      rw [hget k c hc, hget src c hc, if_pos hkd, if_neg hne.symm, BitVec.xor_assoc, BitVec.xor_self, hkd]
      exact BitVec.xor_zero.symm
    · exact (InRowSpan.row (w := w.addRow poly dst src s) h8 hk).congr fun c hc => by rw [hget k c hc, if_neg hkd]

end Matrix.RowEquiv

end Sys2Proof.Machine
end

section
/-! PROOF. Gaussian elimination and inversion (41_matrix.md R165, R166, R169, R170): phase 1 reaches an echelon form or
a dependent column, phase 2 the identity, and on `[A | identity]` that leaves the inverse of A. -/

namespace Sys2Proof.Machine

variable {poly : BitVec 9}

/-! ### The forms the elimination reaches -/

/-- In each of the first k columns the diagonal entry is 1 and those below it are 0. -/
def Matrix.Echelon (w : Matrix) (k : Nat) : Prop :=
  ∀ r c, c < k → c ≤ r → r < w.rows → w.get r c = if r = c then 1 else 0

/-- The first k columns are those of the identity. -/
def Matrix.UnitColumns (w : Matrix) (k : Nat) : Prop :=
  ∀ r c, r < w.rows → c < k → w.get r c = if r = c then 1 else 0

/-- Columns in echelon form are independent: the last entry of a dependency is 0, then the one before it. -/
theorem Matrix.Echelon.independent (h8 : poly.getLsbD 8 = true) {w : Matrix} {k : Nat} (hw : w.Echelon k)
    (hk : k ≤ w.rows) : w.Independent poly k := by
  intro x hx c hc
  induction hd : k - c using Nat.strong_induction_on generalizing c with
  | _ d ih =>
    subst hd
    have hrow := hw c
    rw [← hx c (by omega), dot_single_right hc fun i hi hne => ?_, hrow c hc le_rfl (by omega), if_pos rfl,
      gmul_one_left poly h8]
    rcases Nat.lt_or_gt_of_ne hne with hlt | hgt
    · rw [hrow i hi hlt.le (by omega), if_neg hne.symm]
      exact gmul_zero_left poly _
    · rw [ih (k - i) (by omega) i hi rfl]
      exact gmul_zero_right poly _

/-- The equations of the rows from k - n on, with 1 for the unknown k, have a solution: back substitution, row by
row. -/
theorem Matrix.Echelon.exists_dependency (h8 : poly.getLsbD 8 = true) {w : Matrix} {k : Nat} (hw : w.Echelon k)
    (hcol : ∀ r, k ≤ r → r < w.rows → w.get r k = 0) (n : Nat) (hn : n ≤ k) :
    ∃ y : Nat → Byte, y k = 1 ∧ ∀ r, k - n ≤ r → r < w.rows → dot poly (k + 1) (w.get r) y = 0 := by
  induction n with
  | zero =>
    refine ⟨fun c => if c = k then 1 else 0, if_pos rfl, fun r hkr hr => ?_⟩
    rw [dot_unit_right h8 k.lt_succ_self fun _ _ => rfl, hcol r hkr hr]
  | succ n ih =>
    obtain ⟨y, hyk, hy⟩ := ih (by omega)
    obtain ⟨p, hp⟩ : ∃ p, p = k - (n + 1) := ⟨_, rfl⟩
    refine ⟨fun c => y c ^^^ if c = p then dot poly (k + 1) (w.get p) y else 0, ?_, fun r hpr hr => ?_⟩
    · have hkp : k ≠ p := by omega
      simp [hyk, hkp]
    · rw [dot_update_right (by omega), hw r p (by omega) (by omega) hr]
      by_cases hrp : r = p
      · rw [hrp, if_pos rfl, gmul_one_left poly h8]
        exact BitVec.xor_self
      · rw [if_neg hrp, hy r (by omega) hr, xor_zero_gmul]

theorem Matrix.Echelon.not_independent (h8 : poly.getLsbD 8 = true) {w : Matrix} {k : Nat} (hw : w.Echelon k)
    (hcol : ∀ r, k ≤ r → r < w.rows → w.get r k = 0) : ¬ w.Independent poly (k + 1) := by
  obtain ⟨y, hyk, hy⟩ := hw.exists_dependency h8 hcol k le_rfl
  intro hind
  have hzero := hind y (fun r hr => hy r (by omega) hr) k k.lt_succ_self
  exact absurd (hyk.symm.trans hzero) (by decide)

/-! ### The pivot -/

/-- No pivot is found only in a column that is 0 from row r down. -/
theorem Matrix.choosePivot_eq_zero {w : Matrix} {r : Nat} (hw : w.Shaped) (hr : r < w.rows)
    (h : (w.choosePivot r).get r r = 0) (i : Nat) (hri : r ≤ i) (hi : i < w.rows) : w.get i r = 0 := by
  unfold Matrix.choosePivot at h
  split at h
  next h0 =>
    split at h
    next rb hfind =>
      have hmem := List.mem_range'_1.1 (List.mem_of_find?_eq_some hfind)
      have hne := List.find?_some hfind
      rw [Matrix.get_swapRows _ _ _ _ _ hw hr (by omega), if_neg (by omega), if_pos rfl] at h
      simp [h] at hne
    next hfind =>
      rcases hri.eq_or_lt with rfl | hlt
      · exact h0
      · have hnone := List.find?_eq_none.1 hfind i (List.mem_range'_1.2 ⟨hlt, by omega⟩)
        simpa using hnone
  next hne => exact absurd h hne

theorem Matrix.choosePivot_rowEquiv (h8 : poly.getLsbD 8 = true) {w : Matrix} {r : Nat} (hw : w.Shaped)
    (hr : r < w.rows) : w.RowEquiv poly (w.choosePivot r) := by
  obtain heq | ⟨rb, _, hrb, _, _, heq⟩ := w.choosePivot_cases r
  · rw [heq]
    exact .refl h8 hw
  · rw [heq]
    exact .swapRows h8 hw hr hrb

theorem Matrix.Echelon.choosePivot {w : Matrix} {r : Nat} (h : w.Echelon r) (hw : w.Shaped) (hr : r < w.rows) :
    (w.choosePivot r).Echelon r := by
  obtain heq | ⟨rb, hlt, hrb, _, _, heq⟩ := w.choosePivot_cases r
  · rwa [heq]
  · rw [heq]
    intro i c hc hci (hi : i < w.rows)
    rw [Matrix.get_swapRows _ _ _ _ _ hw hr hrb]
    have hr' := h r c hc hc.le hr
    have hrb' := h rb c hc (by omega) hrb
    have hi' := h i c hc hci hi
    grind

/-- What scaling the pivot row does (41_matrix.md R165): with an inverse pair s and p. -/
theorem Matrix.scalePivot_cases (hirr : IrreduciblePoly poly) {w : Matrix} {r : Nat} (hp : w.get r r ≠ 0) :
    (w.get r r = 1 ∧ w.scalePivot poly r = w) ∨
      ∃ s, gmul poly s (w.get r r) = 1 ∧ w.scalePivot poly r = w.scaleRow poly r s := by
  unfold Matrix.scalePivot
  split
  next h1 => exact .inl ⟨h1, rfl⟩
  next => exact .inr ⟨_, gmul_quotient poly hirr 1 _ (by decide) hp, rfl⟩

theorem Matrix.scalePivot_rowEquiv (hirr : IrreduciblePoly poly) {w : Matrix} {r : Nat} (hw : w.Shaped)
    (hr : r < w.rows) (hp : w.get r r ≠ 0) : w.RowEquiv poly (w.scalePivot poly r) := by
  obtain ⟨-, heq⟩ | ⟨s, hs, heq⟩ := w.scalePivot_cases hirr hp
  · rw [heq]
    exact .refl hirr.1 hw
  · rw [heq]
    exact .scaleRow hirr.1 hw hr hs

theorem Matrix.Echelon.scalePivot (hirr : IrreduciblePoly poly) {w : Matrix} {r : Nat} (h : w.Echelon r)
    (hw : w.Shaped) (hr : r < w.rows) (hrc : w.rows ≤ w.cols) (hp : w.get r r ≠ 0) :
    (w.scalePivot poly r).Echelon r ∧ (w.scalePivot poly r).get r r = 1 := by
  obtain ⟨h1, heq⟩ | ⟨s, hs, heq⟩ := w.scalePivot_cases hirr hp
  · rw [heq]
    exact ⟨h, h1⟩
  rw [heq]
  have hget := fun k c (hc : c < w.cols) => w.get_scaleRow poly r s k c hw hr hc
  refine ⟨fun i c hc hci (hi : i < w.rows) => ?_, ?_⟩
  · rw [hget i c (by omega), h i c hc hci hi, h r c hc hc.le hr, if_neg hc.ne']
    split
    next hir => exact (gmul_zero_left poly s).trans (if_neg (by omega)).symm
    next => rfl
  · rw [hget r r (by omega), if_pos rfl, gmul_comm, hs]

/-! ### Clearing a column -/

theorem Matrix.clearEntry_rowEquiv (h8 : poly.getLsbD 8 = true) {w : Matrix} {r dst : Nat} (hw : w.Shaped)
    (hr : r < w.rows) (hd : dst < w.rows) (hne : dst ≠ r) : w.RowEquiv poly (w.clearEntry poly r r dst) := by
  unfold Matrix.clearEntry
  split
  · exact .refl h8 hw
  · exact .addRow h8 hw hd hr hne _

theorem Matrix.get_clearEntry {w : Matrix} {r dst : Nat} (hw : w.Shaped) (hr : r < w.rows) (hd : dst < w.rows)
    (k : Nat) {c : Nat} (hc : c < w.cols) : (w.clearEntry poly r r dst).get k c =
      if k = dst then w.get dst c ^^^ gmul poly (w.get dst r) (w.get r c) else w.get k c := by
  unfold Matrix.clearEntry
  split
  next h0 =>
    rw [h0]
    split
    next hk => rw [hk, xor_zero_gmul]
    next => rfl
  next => exact Matrix.get_addRow poly w dst r _ k c hw hd hr hc

theorem Matrix.clearColumn_rowEquiv (h8 : poly.getLsbD 8 = true) {w : Matrix} {r : Nat} {dsts : List Nat}
    (hw : w.Shaped) (hr : r < w.rows) (hd : ∀ d ∈ dsts, d < w.rows ∧ d ≠ r) :
    w.RowEquiv poly (w.clearColumn poly r dsts) := by
  induction dsts generalizing w with
  | nil => exact .refl h8 hw
  | cons d rest ih =>
    obtain ⟨hdr, hne⟩ := hd d (List.mem_cons_self ..)
    have hstep := w.clearEntry_rowEquiv h8 hw hr hdr hne
    obtain ⟨hrows, -, hshaped⟩ := hstep.shape
    exact hstep.trans h8 (ih hshaped (hrows ▸ hr) fun x hx => hrows ▸ hd x (List.mem_cons_of_mem _ hx))

/-- Row r is subtracted from each row listed, as often as its entry in column r says. -/
theorem Matrix.get_clearColumn {w : Matrix} {r : Nat} {dsts : List Nat} (hw : w.Shaped) (hr : r < w.rows)
    (hd : ∀ d ∈ dsts, d < w.rows ∧ d ≠ r) (hnodup : dsts.Nodup) (hrc : w.rows ≤ w.cols) (k : Nat) {c : Nat}
    (hc : c < w.cols) : (w.clearColumn poly r dsts).get k c =
      if k ∈ dsts then w.get k c ^^^ gmul poly (w.get k r) (w.get r c) else w.get k c := by
  induction dsts generalizing w with
  | nil => rfl
  | cons d rest ih =>
    obtain ⟨hdr, hne⟩ := hd d (List.mem_cons_self ..)
    obtain ⟨hdrest, hnodup⟩ := List.nodup_cons.1 hnodup
    obtain ⟨hrows, hcols, hshaped⟩ := w.clearEntry_shape poly r r d hw hr hdr
    have hget := fun k c (hc : c < w.cols) => w.get_clearEntry (poly := poly) hw hr hdr k hc
    change ((w.clearEntry poly r r d).clearColumn poly r rest).get k c = _
    rw [ih hshaped (hrows ▸ hr) (fun x hx => hrows ▸ hd x (List.mem_cons_of_mem _ hx)) hnodup (by omega)
      (hcols ▸ hc), hget k c hc, hget k r (by omega), hget r c hc, if_neg hne.symm]
    by_cases hkd : k = d
    · rw [hkd, if_pos rfl, if_neg hdrest, if_pos (List.mem_cons_self ..)]
    · simp only [hkd, if_false, List.mem_cons, false_or]

/-! ### Phase 1 -/

/-- The rows below r, in order. -/
theorem mem_rowsBelow {r n i : Nat} : i ∈ List.range' (r + 1) (n - (r + 1)) ↔ r < i ∧ i < n := by
  rw [List.mem_range'_1]
  omega

theorem Matrix.Echelon.clearColumn (h8 : poly.getLsbD 8 = true) {w : Matrix} {r : Nat} (h : w.Echelon r)
    (hw : w.Shaped) (hr : r < w.rows) (hrc : w.rows ≤ w.cols) (hp : w.get r r = 1) :
    (w.clearColumn poly r (List.range' (r + 1) (w.rows - (r + 1)))).Echelon (r + 1) := by
  have hd : ∀ d ∈ List.range' (r + 1) (w.rows - (r + 1)), d < w.rows ∧ d ≠ r := fun d hd => by
    have := mem_rowsBelow.1 hd
    omega
  obtain ⟨hrows, -, -⟩ := Matrix.clearColumn_shape poly r _ w hw hr fun d hdm => (hd d hdm).1
  intro i c hc hci hi
  rw [hrows] at hi
  rw [Matrix.get_clearColumn hw hr hd List.nodup_range' hrc i (by omega)]
  rcases (Nat.lt_succ_iff.1 hc).eq_or_lt with rfl | hlt
  · rcases hci.eq_or_lt with rfl | hri
    · rw [if_neg fun hm => (hd _ hm).2 rfl, hp, if_pos rfl]
    · rw [if_pos (mem_rowsBelow.2 ⟨hri, hi⟩), hp, gmul_one_right poly h8, BitVec.xor_self, if_neg hri.ne']
      rfl
  · rw [h i c hlt hci hi, h r c hlt hlt.le hr, if_neg hlt.ne']
    split
    next => exact xor_gmul_zero _ _
    next => rfl

theorem Matrix.reduceRow_error {w : Matrix} {r k : Nat} (hw : w.Shaped) (hr : r < w.rows)
    (h : w.reduceRow poly r = .error k) :
    k = r ∧ ∀ i, r ≤ i → i < w.rows → w.get i r = 0 := by
  simp only [Matrix.reduceRow] at h
  split at h
  next hp =>
    cases h
    exact ⟨rfl, Matrix.choosePivot_eq_zero hw hr hp⟩
  · cases h

/-- Where phase 1 ends: in echelon form, or at a column k that is 0 from row k down. -/
def Matrix.ReduceRowsEnds (poly : BitVec 9) (w : Matrix) : Except Nat Matrix → Prop
  | .ok v => w.RowEquiv poly v ∧ v.Echelon w.rows
  | .error k => ∃ v, w.RowEquiv poly v ∧ v.Echelon k ∧ k < w.rows ∧
      ∀ r, k ≤ r → r < w.rows → v.get r k = 0

theorem Matrix.ReduceRowsEnds.of_rowEquiv (h8 : poly.getLsbD 8 = true) {w w' : Matrix} (h : w.RowEquiv poly w')
    {res : Except Nat Matrix} (hends : w'.ReduceRowsEnds poly res) : w.ReduceRowsEnds poly res := by
  obtain ⟨hrows, -, -⟩ := h.shape
  cases res with
  | ok v =>
    obtain ⟨hequiv, hech⟩ := hends
    exact ⟨h.trans h8 hequiv, hrows ▸ hech⟩
  | error k =>
    obtain ⟨v, hequiv, hcol⟩ := hends
    exact ⟨v, h.trans h8 hequiv, hrows ▸ hcol⟩

section Phases

variable (hirr : IrreduciblePoly poly) {w v : Matrix} (hw : w.Shaped) (hrc : w.rows ≤ w.cols)
include hirr hw hrc

/-- Phase 1 at row r adds column r to the echelon form. -/
theorem Matrix.reduceRow_ok {r : Nat} (hr : r < w.rows) (hech : w.Echelon r)
    (h : w.reduceRow poly r = .ok v) : w.RowEquiv poly v ∧ v.Echelon (r + 1) := by
  have h8 := hirr.1
  simp only [Matrix.reduceRow] at h
  split at h
  · cases h
  next hp =>
    cases h
    have hpivot := w.choosePivot_rowEquiv (poly := poly) h8 hw hr
    have hech1 := hech.choosePivot hw hr
    obtain ⟨hrows, hcols, hshaped⟩ := hpivot.shape
    generalize w.choosePivot r = w1 at *
    have hscale := w1.scalePivot_rowEquiv hirr hshaped (hrows ▸ hr) hp
    obtain ⟨hech2, hp2⟩ := hech1.scalePivot hirr hshaped (hrows ▸ hr) (by omega) hp
    obtain ⟨hrows2, hcols2, hshaped2⟩ := hscale.shape
    generalize w1.scalePivot poly r = w2 at *
    rw [← hrows, ← hrows2]
    refine ⟨(hpivot.trans h8 hscale).trans h8 ?_, hech2.clearColumn h8 hshaped2 (by omega) (by omega) hp2⟩
    refine w2.clearColumn_rowEquiv h8 hshaped2 (by omega) fun d hd => ?_
    have := mem_rowsBelow.1 hd
    omega

theorem Matrix.reduceRows_ends {r : Nat} (n : Nat) (hn : r + n = w.rows) (hech : w.Echelon r) :
    w.ReduceRowsEnds poly (w.reduceRows poly (List.range' r n)) := by
  have h8 := hirr.1
  induction n generalizing w r with
  | zero => exact ⟨.refl h8 hw, hn ▸ hech⟩
  | succ n ih =>
    rw [List.range'_succ, Matrix.reduceRows]
    cases hstep : w.reduceRow poly r with
    | error k =>
      obtain ⟨rfl, hcol⟩ := Matrix.reduceRow_error hw (by omega) hstep
      exact ⟨w, .refl h8 hw, hech, by omega, hcol⟩
    | ok w' =>
      obtain ⟨hequiv, hech'⟩ := Matrix.reduceRow_ok hirr hw hrc (by omega) hech hstep
      obtain ⟨hrows, hcols, hshaped⟩ := hequiv.shape
      exact .of_rowEquiv h8 hequiv (ih hshaped (by omega) (by omega) hech')

end Phases

/-! ### Phase 2 -/

/-- Phase 2 at column k: the rows above lose their entries in it, and the columns before it stay, because row k is 0
in them. -/
theorem Matrix.Echelon.clearAbove (h8 : poly.getLsbD 8 = true) {w : Matrix} {k : Nat} (h : w.Echelon w.rows)
    (hw : w.Shaped) (hk : k < w.rows) (hrc : w.rows ≤ w.cols) (hunit : w.UnitColumns k) :
    w.RowEquiv poly (w.clearColumn poly k (List.range k)) ∧
      (w.clearColumn poly k (List.range k)).Echelon w.rows ∧
      (w.clearColumn poly k (List.range k)).UnitColumns (k + 1) := by
  have hd : ∀ d ∈ List.range k, d < w.rows ∧ d ≠ k := fun d hd => by
    have := List.mem_range.1 hd
    omega
  have hclear := w.clearColumn_rowEquiv h8 hw hk hd
  obtain ⟨hrows, -, -⟩ := hclear.shape
  have hget (r c : Nat) (hc : c < w.rows) : (w.clearColumn poly k (List.range k)).get r c =
      if r < k then w.get r c ^^^ gmul poly (w.get r k) (w.get k c) else w.get r c := by
    rw [Matrix.get_clearColumn hw hk hd List.nodup_range hrc r (by omega)]
    exact if_congr List.mem_range rfl rfl
  have hleft (r c : Nat) (hc : c < k) : (w.clearColumn poly k (List.range k)).get r c = w.get r c := by
    rw [hget r c (by omega), h k c (by omega) hc.le hk, if_neg hc.ne', xor_gmul_zero, ite_self]
  refine ⟨hclear, fun r c hc hcr hr => ?_, fun r c hr hc => ?_⟩
  · rw [hrows] at hr
    by_cases hck : c < k
    · rw [hleft r c hck, h r c hc hcr hr]
    · rw [hget r c hc, if_neg (by omega), h r c hc hcr hr]
  · rw [hrows] at hr
    rcases (Nat.lt_succ_iff.1 hc).eq_or_lt with rfl | hlt
    · rw [hget r c hk, h c c hk le_rfl hk, if_pos rfl, gmul_one_right poly h8, BitVec.xor_self]
      split
      next hlt => exact (if_neg hlt.ne).symm
      next hge => exact h r c hk (not_lt.1 hge) hr
    · rw [hleft r c hlt, hunit r c hr hlt]

/-- Phase 2 over the first k columns makes them those of the identity and keeps the echelon form. -/
theorem Matrix.Echelon.foldl_clearAbove (h8 : poly.getLsbD 8 = true) {w : Matrix} (h : w.Echelon w.rows)
    (hw : w.Shaped) (hrc : w.rows ≤ w.cols) (k : Nat) (hk : k ≤ w.rows) :
    ∃ v, (List.range k).foldl (fun v d => v.clearColumn poly d (List.range d)) w = v ∧ w.RowEquiv poly v ∧
      v.Echelon w.rows ∧ v.UnitColumns k := by
  induction k with
  | zero => exact ⟨w, rfl, .refl h8 hw, h, fun _ _ _ hc => nomatch hc⟩
  | succ k ih =>
    obtain ⟨v, hv, hequiv, hech, hunit⟩ := ih (by omega)
    obtain ⟨hrows, hcols, hshaped⟩ := hequiv.shape
    rw [← hrows] at hech hk hrc ⊢
    obtain ⟨hclear, hech', hunit'⟩ := hech.clearAbove h8 hshaped hk (hcols ▸ hrc) hunit
    refine ⟨_, ?_, hequiv.trans h8 hclear, hech', hunit'⟩
    rw [List.range_succ, List.foldl_append, hv]
    rfl

theorem Matrix.Echelon.backSubstitute (h8 : poly.getLsbD 8 = true) {w : Matrix} (h : w.Echelon w.rows)
    (hw : w.Shaped) (hrc : w.rows ≤ w.cols) :
    w.RowEquiv poly (w.backSubstitute poly) ∧ (w.backSubstitute poly).UnitColumns w.rows := by
  obtain ⟨v, hv, hequiv, -, hunit⟩ := h.foldl_clearAbove h8 hw hrc w.rows le_rfl
  rw [Matrix.backSubstitute, hv]
  exact ⟨hequiv, hunit⟩

/-- Everything `gauss` can do (41_matrix.md R165). -/
theorem Matrix.gauss_cases (hirr : IrreduciblePoly poly) {w : Matrix} (hw : w.Shaped) (hrc : w.rows ≤ w.cols) :
    (∃ v, w.gauss poly = .ok v ∧ w.RowEquiv poly v ∧ w.Independent poly w.rows ∧ v.UnitColumns w.rows) ∨
    ∃ k, w.gauss poly = .error k ∧ k < w.rows ∧ ¬ w.Independent poly (k + 1) ∧ w.Independent poly k := by
  have h8 := hirr.1
  have hends := Matrix.reduceRows_ends hirr hw hrc w.rows (zero_add _) fun _ _ hc => nomatch hc
  rw [Matrix.gauss, List.range_eq_range']
  cases hres : w.reduceRows poly (List.range' 0 w.rows) with
  | ok u =>
    rw [hres] at hends
    obtain ⟨hequiv, hech⟩ := hends
    obtain ⟨hrows, hcols, hshaped⟩ := hequiv.shape
    obtain ⟨hequiv', hunit⟩ := Matrix.Echelon.backSubstitute h8 (hrows.symm ▸ hech) hshaped (by omega)
    refine .inl ⟨_, rfl, hequiv.trans h8 hequiv', ?_, hrows ▸ hunit⟩
    exact (hequiv.independent_iff h8 hrc).2 (hech.independent h8 hrows.ge)
  | error k =>
    rw [hres] at hends
    obtain ⟨v, hequiv, hech, hk, hcol⟩ := hends
    obtain ⟨hrows, -, -⟩ := hequiv.shape
    refine .inr ⟨k, rfl, hk, fun hind => ?_, ?_⟩
    · exact hech.not_independent h8 (hrows.symm ▸ hcol) ((hequiv.independent_iff h8 (by omega)).1 hind)
    · exact (hequiv.independent_iff h8 (by omega)).2 (hech.independent h8 (by omega))

/-- The combinations a matrix's rows are of another's, as a matrix. -/
theorem Matrix.Spans.exists_factor {w v : Matrix} (h : w.Spans poly v) :
    ∃ x : Matrix, (x.Is v.rows w.rows fun r c => x.get r c) ∧
      ∀ r c, r < v.rows → c < w.cols → v.get r c = dot poly w.rows (x.get r) fun i => w.get i c := by
  choose! x hx using h
  refine ⟨Matrix.build v.rows w.rows x, ⟨rfl, rfl, Matrix.build_shaped .., fun _ _ _ _ => rfl⟩,
    fun r c hr hc => ?_⟩
  rw [hx r hr c hc]
  exact dot_congr (fun i hi => (Matrix.get_build _ _ _ r i hr hi).symm) fun _ _ => rfl

/-- Settles O56: `Matrix.gauss_cases`; the factor of W is that of its row-equivalent result. -/
theorem gaussReduces : Obligations.GaussReduces := by
  intro poly w hirr hw hrc
  obtain ⟨v, hgauss, hequiv, hind, hunit⟩ | ⟨k, hgauss, hk, hdep, hind⟩ := Matrix.gauss_cases hirr hw hrc
  · refine ⟨fun r hr => (nomatch hgauss.symm.trans hr), fun v' hv' => ?_⟩
    cases hgauss.symm.trans hv'
    obtain ⟨hrows, hcols, -⟩ := hequiv.shape
    have hfactor := hequiv.spans.exists_factor
    rw [hrows] at hfactor
    exact ⟨hind, hrows, hcols, fun r c hr hc => hunit r c (hrows ▸ hr) hc, hfactor⟩
  · refine ⟨fun r hr => ?_, fun v hv => (nomatch hgauss.symm.trans hv)⟩
    cases hgauss.symm.trans hr
    exact ⟨hk, hdep, hind⟩

/-! ### Inversion -/

theorem Matrix.Independent.mono {a : Matrix} {m n : Nat} (h : a.Independent poly n) (hmn : m ≤ n) :
    a.Independent poly m := by
  intro x hx c hc
  have hpad := h (fun i => if i < m then x i else 0)
    (fun r hr => (dot_pad_right hmn).trans (hx r hr)) c (hc.trans_le hmn)
  exact (if_pos hc).symm.trans hpad

theorem Matrix.get_mtimes (a b : Matrix) {r c : Nat} (hr : r < a.rows) (hc : c < b.cols) :
    (a.mtimes poly b).get r c = dot poly a.cols (a.get r) fun i => b.get i c :=
  Matrix.get_build _ _ _ r c hr hc

theorem Matrix.isIdentity_mtimes {a b : Matrix} {n : Nat} (hrows : a.rows = n) (hcols : b.cols = n)
    (h : ∀ r c, r < n → c < n → (dot poly a.cols (a.get r) fun i => b.get i c) = if r = c then 1 else 0) :
    (a.mtimes poly b).IsIdentity n :=
  ⟨hrows, hcols, Matrix.build_shaped .., fun r c hr hc =>
    (a.get_mtimes b (hrows ▸ hr) (hcols ▸ hc)).trans (h r c hr hc)⟩

/-- The columns of an invertible matrix are independent. -/
theorem Matrix.Invertible.independent (h8 : poly.getLsbD 8 = true) {a : Matrix} (h : a.Invertible poly) :
    a.Independent poly a.rows := by
  obtain ⟨hsquare, b, ⟨-, -, -, hget⟩, -, hrows, hcols⟩ := h
  intro x hx c hc
  have hunit (j : Nat) (hj : j < a.rows) :
      (dot poly b.cols (b.get c) fun i => a.get i j) = if j = c then 1 else 0 := by
    rw [← b.get_mtimes a (hrows ▸ hc) (hsquare ▸ hj), hget c j hc hj]
    exact if_congr eq_comm rfl rfl
  calc x c
      _ = dot poly a.rows (fun j => dot poly b.cols (b.get c) fun i => a.get i j) x :=
        (dot_unit_right h8 hc hunit).symm.trans dot_comm
      _ = dot poly b.cols (b.get c) fun i => dot poly a.rows (a.get i) x := dot_dot h8
      _ = 0 := dot_zero_right fun i hi => hx i (hcols ▸ hi)

/-- From `[A | identity]` to `[identity | B]`: the rows of either are combinations of the other's, so the products of A
and B are the identity. -/
theorem Matrix.RowEquiv.inverse_blocks (h8 : poly.getLsbD 8 = true) {w v : Matrix} (h : w.RowEquiv poly v)
    (hcols : w.cols = w.rows + w.rows)
    (hright : ∀ i j, i < w.rows → j < w.rows → w.get i (w.rows + j) = if i = j then 1 else 0)
    (hunit : v.UnitColumns w.rows) {r c : Nat} (hr : r < w.rows) (hc : c < w.rows) :
    ((dot poly w.rows (w.get r) fun i => v.get i (w.rows + c)) = if r = c then 1 else 0) ∧
      (dot poly w.rows (fun i => v.get r (w.rows + i)) fun i => w.get i c) = if r = c then 1 else 0 := by
  obtain ⟨hvrows, hvcols, -⟩ := h.shape
  constructor
  · rw [← hright r c hr hc, (h.spanned r hr).eq_dot_of_identity h8 (e := 0) (by omega)
      (fun i j hi hj => (Nat.zero_add j).symm ▸ hunit i j hi (hvrows ▸ hj)) (by omega), hvrows]
    exact dot_congr (fun i _ => by rw [Nat.zero_add]) fun _ _ => rfl
  · rw [← hunit r c (hvrows.symm ▸ hr) hc]
    exact ((h.spans r (hvrows.symm ▸ hr)).eq_dot_of_identity h8 (by omega) hright (by omega)).symm

theorem Matrix.get_maugment_left (a b : Matrix) {r c : Nat} (hr : r < a.rows) (hc : c < a.cols) :
    (a.maugment b).get r c = a.get r c :=
  (Matrix.get_build _ _ _ r c hr (by omega)).trans (if_pos hc)

theorem Matrix.get_maugment_right (a b : Matrix) {r c : Nat} (hr : r < a.rows) (hc : c < b.cols) :
    (a.maugment b).get r (a.cols + c) = b.get r c := by
  rw [Matrix.maugment, Matrix.get_build _ _ _ r _ hr (by omega), if_neg (by omega), Nat.add_sub_cancel_left]

/-- On an invertible matrix, `minvert` gives the inverse on both sides (41_matrix.md R169, R170). -/
theorem Matrix.Invertible.minvert (hirr : IrreduciblePoly poly) {a : Matrix} (h : a.Invertible poly) :
    ∃ inv, a.minvert poly = .ok inv ∧ (a.mtimes poly inv).IsIdentity a.rows ∧
      (inv.mtimes poly a).IsIdentity a.rows := by
  have h8 := hirr.1
  have hsquare := h.1
  obtain ⟨w, hw⟩ : ∃ w, w = a.maugment (Matrix.identity a.rows) := ⟨_, rfl⟩
  have hrows : w.rows = a.rows := hw ▸ rfl
  have hcols : w.cols = a.rows + a.rows := hw ▸ congrArg (· + a.rows) hsquare.symm
  have hshaped : w.Shaped := hw ▸ Matrix.build_shaped ..
  have hleft (i j : Nat) (hi : i < a.rows) (hj : j < a.rows) : w.get i j = a.get i j :=
    hw ▸ a.get_maugment_left _ hi (hsquare ▸ hj)
  have hright (i j : Nat) (hi : i < a.rows) (hj : j < a.rows) : w.get i (a.rows + j) = if i = j then 1 else 0 := by
    rw [hw, hsquare, a.get_maugment_right _ hi (by rwa [← hsquare])]
    exact Matrix.get_build _ _ _ i j (hsquare ▸ hi) (hsquare ▸ hj)
  rw [Matrix.minvert, ← hw]
  obtain ⟨v, hgauss, hequiv, -, hunit⟩ | ⟨k, -, hk, hdep, -⟩ := Matrix.gauss_cases hirr hshaped (by omega)
  · rw [hgauss]
    have hblocks {r c : Nat} (hr : r < a.rows) (hc : c < a.rows) := hequiv.inverse_blocks h8 (by omega)
      (by rwa [hrows]) hunit (hrows ▸ hr) (hrows ▸ hc)
    have hinv (r c : Nat) (hr : r < a.rows) (hc : c < a.rows) :
        (v.msub 0 a.rows a.rows (2 * a.rows)).get r c = v.get r (a.rows + c) := by
      rw [Matrix.msub, Matrix.get_build _ _ _ r c (by omega) (by omega), Nat.zero_add]
    have hicols : (v.msub 0 a.rows a.rows (2 * a.rows)).cols = a.rows := show 2 * a.rows - a.rows = a.rows by omega
    rw [hrows] at hblocks
    refine ⟨_, rfl, isIdentity_mtimes rfl hicols fun r c hr hc => ?_,
      isIdentity_mtimes (Nat.sub_zero _) hsquare.symm fun r c hr hc => ?_⟩
    · rw [← (hblocks hr hc).1, ← hsquare]
      exact dot_congr (fun i hi => (hleft r i hr hi).symm) fun i hi => hinv i c hi hc
    · rw [← (hblocks hr hc).2, hicols]
      exact dot_congr (fun i hi => hinv r i hr hi) fun i hi => (hleft i c hi hc).symm
  · have hind : w.Independent poly a.rows := fun x hx => h.independent h8 x fun r hr =>
      (dot_congr (fun c hc => (hleft r c hr hc).symm) fun _ _ => rfl).trans (hx r (hrows ▸ hr))
    exact absurd (hind.mono (by omega)) hdep

/-- What `Checked` says of a command whose checks all pass. -/
theorem Checked.of_passes {s : State} {out : Host.Outcome State Fault Refusal} {lines : List CheckLine}
    {otherwise : Prop} (h : Checked s out lines otherwise) (hpass : Passes lines) : otherwise := by
  induction lines with
  | nil => exact h
  | cons line rest ih =>
    obtain ⟨hline, hrest⟩ := List.forall_mem_cons.1 hpass
    exact ih (h.2 hline) hrest

/-- Settles O57: the checks pass (`minvReplacesSlot`), and `minvert` gives the inverse on both sides. -/
theorem minvInverts : Obligations.MinvInverts := by
  intro d a s hd ha hirr hshaped hne hinv
  obtain ⟨inv, hok, hprod⟩ := hinv.minvert hirr
  obtain ⟨hreplaces, -⟩ := ((minvReplacesSlot d a).2 s).of_passes (by
    simp [Passes, rangeLine, hd, ha, hne, ← hinv.1])
  obtain ⟨t, hexec, honly, hslot, -⟩ := hreplaces inv hok
  exact ⟨t, hexec, honly, hslot ▸ hprod⟩

end Sys2Proof.Machine
end

section
/-! PROOF. The coding-loop commands (42_coding_loop.md R180 to R185). -/

namespace Sys2Proof.Machine

/-! ### Checks and outcome of the coding loop -/

section CodingLoop

variable {s : State} {out : Host.Outcome State Fault Refusal}

/-- A run of descriptors (60_exceptions.md R263). -/
theorem Checked.checkRun {rest : List CheckLine} {otherwise : Prop} {base count : Int} {k : Unit → Check State}
    (h : out = finish s (checkRun base count >>= k))
    (hrest : out = finish s (k ()) → Checked s out rest otherwise) :
    Checked s out (rangeLine (base < 0 ∨ 1024 < base + count) 10 :: rest) otherwise :=
  .ite (r := .descIndex) Iff.rfl (checkRun_bind base count k ▸ h) fun _ => hrest

/-- How a command ends whose effect is the coding loop with coefficients `coeff` (42_coding_loop.md R180): every output
byte is its sum of products and every other byte stays, or an input byte without a value stops it (log 17). -/
theorem State.outcome_of_codeLoop {rows : List (List Byte)} {inBase inCount outBase outCount off cnt : Nat}
    {coeff : Nat → Nat → Byte} (hlen : rows.length = outCount)
    (hcoeff : ∀ o i, o < outCount → i < inCount → (rows.getD o []).getD i 0 = coeff o i)
    (halias : ¬ s.TouchedAlias inBase inCount outBase outCount off cnt)
    (h : out = finish s
      (s.codeLoop rows (List.range' inBase inCount) (List.range' outBase outCount) off cnt)) :
    ((outCount = 0 ∨ ∀ i, i < inCount → s.Written (s.base (inBase + i) + off) cnt) →
      ∃ m : Memory, out = .next { s with mem := m }.completed ∧
        (∀ o j, o < outCount → j < cnt →
          m.read (s.base (outBase + o) + off + j) =
            some (dot s.par.fieldPoly inCount (coeff o) fun i => s.byteAt (s.base (inBase + i) + off + j))) ∧
        ∀ addr, (∀ o, o < outCount → ¬ InRange addr (s.base (outBase + o) + off) cnt) →
          m.read addr = s.mem.read addr) ∧
    (0 < outCount → ∀ i, i < inCount → ¬ s.Written (s.base (inBase + i) + off) cnt →
      ∃ addr, out = .fault (.unwrittenByte addr) ∧ s.mem.read addr = none) := by
  refine ⟨fun hwritten => ?_, fun hout i hi hunwritten => ?_⟩
  · obtain ⟨m, hloop, hbytes, hframe⟩ :=
      s.codeLoop_ok rows inBase inCount outBase outCount off cnt hlen halias hwritten
    rw [hloop, finish_ok] at h
    refine ⟨m, h, fun o j ho hj => ?_, hframe⟩
    rw [hbytes o j ho hj]
    exact congrArg some (dot_congr (fun i hi => hcoeff o i ho hi) fun _ _ => rfl)
  · obtain ⟨addr, hloop, hnone⟩ :=
      s.codeLoop_bad rows inBase inCount outBase outCount off cnt hout i hi hunwritten
    rw [hloop, finish_fault] at h
    exact ⟨addr, h, hnone⟩

end CodingLoop

/-- The rows of coefficients CODE takes from its slot (42_coding_loop.md R180). -/
theorem Matrix.getD_takeRows (a : Matrix) {row0 rows cols o i : Nat} (ho : o < rows) (hi : i < cols) :
    (((List.range' row0 rows).map fun r => (a.row r).take cols).getD o []).getD i 0 = a.get (row0 + o) i := by
  simp [Matrix.get, ho, hi]

/-! ### The commands -/

/-- Settles O38: the checks of the operands and of the two runs of descriptors, then the outcome of the coding loop. -/
theorem codeWritesCombinations : Obligations.CodeWritesCombinations := by
  refine fun a => ⟨isEncoding_fieldsWord rfl rfl, fun s => .slots (fields := [a]) (by simp) rfl fun _ h => ?_⟩
  refine .readSlot h fun _ h => .raiseIf .count Iff.rfl h fun _ h => .raiseIf .count Iff.rfl h fun _ h =>
    .raiseIf .index Iff.rfl h fun _ h => .raiseIf .negative Iff.rfl h fun _ h =>
    .checkRun h fun h => .checkRun h fun h => ?_
  rw [State.rangeCheck_bind] at h
  refine .ite (r := .bufBounds) (exists_append_run ..).symm h fun _ h =>
    .ite (r := .bufBounds) (exists_append_run ..).symm h fun _ h => ?_
  rw [State.aliasCheck_bind] at h
  classical
  exact .ite (r := .bufAlias) Iff.rfl h fun halias h =>
    State.outcome_of_codeLoop (by simp [State.natArg]) (fun _ _ => (s.slot a).getD_takeRows) halias h

/-- Settles O39: the slot check, then the error. -/
theorem checkIsUnimplemented : Obligations.CheckIsUnimplemented :=
  fun a => ⟨isEncoding_fieldsWord rfl rfl, fun s =>
    .slots (fields := [a]) (by simp) rfl fun _ h => h.trans (finish_raise s .unimplemented)⟩

end Sys2Proof.Machine
end

section
/-! PROOF. The commands of the coder but for DECODE (43_erasure_coder.md R200, R205, R220, R221): each check is a line
of `Checked`, and what passes them writes the coder state, the parity bytes, a slot or RESULT0. -/

namespace Sys2Proof.Machine

/-! ### The coder state -/

section ReadCoder

variable {s : State} {k : Coder → Check State}

/-- CONFIGURED = 0 (10_state.md R33). -/
theorem finish_readCoder_none (h : s.coder = none) : finish s (s.readCoder >>= k) = .next (s.errored 4 1 0) := by
  rw [s.readCoder_none h]
  exact finish_raise s .notConfigured

theorem finish_readCoder_some {c : Coder} (h : s.coder = some c) :
    finish s (s.readCoder >>= k) = finish s (k c) := by
  rw [s.readCoder_some c h, check_bind_ok]

end ReadCoder

/-- Settles O45: the coder state and the index check, then the entry. -/
theorem emgetReadsEntry : Obligations.EmgetReadsEntry := by
  refine ⟨isEncoding_encode .emget, fun s => ⟨finish_readCoder_none, fun c hc => ?_⟩⟩
  exact .raiseIf .index Iff.rfl (finish_readCoder_some hc) fun _ h => h.trans (finish_ok s _)

/-- Settles O46: the slot and the coder state, then EM in the slot. -/
theorem emexportCopiesMatrix : Obligations.EmexportCopiesMatrix := by
  refine fun d => ⟨isEncoding_fieldsWord rfl rfl, fun s => .slots (fields := [d]) (by simp) rfl fun hd h => ?_⟩
  refine ⟨fun hnone => h.trans (finish_readCoder_none hnone), fun hsome => ?_⟩
  obtain ⟨c, hc⟩ := Option.ne_none_iff_exists'.1 hsome
  obtain ⟨t, ht, honly, hslot⟩ := exists_completed_setSlot (P := (· = c.em)) (not_le.1 hd)
    (h.trans (finish_readCoder_some hc)) rfl
  exact ⟨t, c, hc, ht, honly, hslot⟩

/-! ### CONFIG -/

theorem buildEM_of_minvert {poly : BitVec 9} {d p : Nat} {inv : Matrix}
    (h : ((Matrix.vandermonde poly (d + p) d).msub 0 0 d d).minvert poly = .ok inv) :
    buildEM poly d p = .ok ((Matrix.vandermonde poly (d + p) d).mtimes poly inv) := by
  rw [buildEM, h]
  rfl

/-- Settles O40: the three checks, then EM as `buildEM` makes it. -/
theorem configBuildsCoder : Obligations.ConfigBuildsCoder := by
  refine ⟨isEncoding_encode .config, fun s => ?_⟩
  refine .raiseIf .dataNonpositive Iff.rfl rfl fun hd h => .raiseIf .parityNegative Iff.rfl h fun hp h =>
    .raiseIf .totalTooLarge Iff.rfl h fun ht h inv hinv => ?_
  have hem := buildEM_of_minvert hinv
  have hok := Coder.ok_of_buildEM (by simp only [State.natArg]; omega) (by simp only [State.natArg]; omega) hem
  change _ = finish s (buildEM s.par.fieldPoly (s.natArg 0) (s.natArg 1) >>= _) at h
  rw [hem, check_bind_ok, finish_ok] at h
  refine ⟨_, h, rfl, rfl, hok, fun r k hr hk => Matrix.get_mtimes _ _ hr ?_⟩
  rw [(Matrix.minvert_shape _ _ inv hinv).2.1]
  exact hk

/-! ### ENCODE -/

section Placed

variable {s : State} {out : Host.Outcome State Fault Refusal} {rest : List CheckLine} {otherwise cond : Prop}
  {ks : List Nat} {k : Unit → Check State}

theorem exists_mem_descRun {base : Int} {count : Nat} {p : Nat → Prop} :
    (∃ k ∈ descRun base count, p k) ↔ ∃ k, InRange k base.toNat count ∧ p k := by
  simp only [mem_descRun, Int.toNat_natCast]

theorem State.sameLengths_descRun_iff (s : State) {base : Int} {count : Nat} :
    s.sameLengths (descRun base count) = false ↔ s.LengthsDiffer base.toNat count := by
  simp only [State.sameLengths_iff, State.LengthsDiffer, mem_descRun, Int.toNat_natCast]
  exact ⟨fun ⟨k, hk, j, hj, h⟩ => ⟨k, j, hk, hj, h⟩, fun ⟨k, j, hk, hj, h⟩ => ⟨k, hk, j, hj, h⟩⟩

/-- Well-placed descriptors (10_state.md R41). -/
theorem Checked.placed (hcond : cond ↔ ∃ k ∈ ks, s.par.bufBytes < s.base k + s.len k)
    (h : out = finish s (s.checkPlaced ks >>= k))
    (hrest : (∀ k ∈ ks, s.base k + s.len k ≤ s.par.bufBytes) → out = finish s (k ()) →
      Checked s out rest otherwise) : Checked s out (rangeLine cond 11 :: rest) otherwise :=
  .ite (r := .bufBounds) hcond (s.checkPlaced_bind ks k ▸ h) fun hc =>
    hrest (by simpa using hcond.not.1 hc)

/-- The range check over descriptors that are well placed leaves their lengths to check (42_coding_loop.md R183). -/
theorem Checked.room {off cnt : Nat} (hcond : cond ↔ ∃ k ∈ ks, s.len k < off + cnt)
    (hplaced : ∀ k ∈ ks, s.base k + s.len k ≤ s.par.bufBytes)
    (h : out = finish s (s.rangeCheck ks off cnt >>= k))
    (hrest : out = finish s (k ()) → Checked s out rest otherwise) :
    Checked s out (rangeLine cond 11 :: rest) otherwise := by
  rw [State.rangeCheck_bind, if_neg (by simpa using hplaced)] at h
  exact .ite (r := .bufBounds) hcond h fun _ => hrest

end Placed

/-- Settles O41: the checks of R205, then the outcome of the coding loop, whose inputs are the first D descriptors of
the run and whose outputs are the other P. -/
theorem encodeWritesParity : Obligations.EncodeWritesParity := by
  refine ⟨isEncoding_encode .encode, fun s => ⟨finish_readCoder_none, fun c hc hok => ?_⟩⟩
  have hins : (descRun (s.arg 0) c.t).take c.d = List.range' (s.natArg 0) c.d := take_run _ _ _ (Nat.le_add_right ..)
  have houts : (descRun (s.arg 0) c.t).drop c.d = List.range' (s.natArg 0 + c.d) c.p :=
    (drop_run ..).trans (congrArg (List.range' _) (Nat.add_sub_cancel_left ..))
  refine .raiseIf .shardCount Iff.rfl (finish_readCoder_some hc) fun _ h => .raiseIf .negative Iff.rfl h fun _ h =>
    .checkRun h fun h => .placed exists_mem_descRun.symm h fun hplaced h =>
    .raiseIf .shardLength s.sameLengths_descRun_iff.symm h fun _ h => ?_
  change _ = finish s (s.rangeCheck (List.take c.d _ ++ List.drop c.d _) _ _ >>= _) at h
  rw [List.take_append_drop] at h
  refine .room exists_mem_descRun.symm hplaced h fun h => ?_
  rw [hins, houts] at h
  refine
    .raiseIf .bufAlias (buffersAlias_iff ..).symm h fun halias h => ?_
  exact State.outcome_of_codeLoop (hok.pr_shaped.1.trans hok.pr_rows) (fun _ _ _ _ => rfl) halias h

end Sys2Proof.Machine
end

section
/-! PROOF. The encoding matrix (43_erasure_coder.md R201, R202; 10_state.md R35): a polynomial of degree below n with n
roots is 0, so distinct rows of the Vandermonde matrix are independent, and so are those of EM. -/

namespace Sys2Proof.Machine

variable {poly : BitVec 9}

/-! ### Polynomials and their roots -/

/-- The value at `a` of the polynomial with coefficients x 0, …, x (n - 1), by Horner's rule. -/
def horner (poly : BitVec 9) : Nat → (Nat → Byte) → Byte → Byte
  | 0, _, _ => 0
  | n + 1, x, a => x 0 ^^^ gmul poly a (horner poly n (fun c => x (c + 1)) a)

theorem horner_succ (n : Nat) (x : Nat → Byte) (a : Byte) :
    horner poly (n + 1) x a = x 0 ^^^ gmul poly a (horner poly n (fun c => x (c + 1)) a) := rfl

theorem horner_of_zero {n : Nat} {x : Nat → Byte} (hx : ∀ c, c < n → x c = 0) (a : Byte) : horner poly n x a = 0 := by
  induction n generalizing x with
  | zero => rfl
  | succ n ih =>
    rw [horner, hx 0 (by omega), ih fun c hc => hx (c + 1) (by omega)]
    exact xor_gmul_zero _ _

theorem xorSum_succ_front (n : Nat) (f : Nat → Byte) : xorSum (n + 1) f = f 0 ^^^ xorSum n fun i => f (i + 1) := by
  induction n with
  | zero => exact BitVec.xor_comm _ _
  | succ n ih => rw [xorSum, ih, BitVec.xor_assoc]; rfl

/-- A row of powers times a column is the value of a polynomial. -/
theorem dot_repeatedProduct (h8 : poly.getLsbD 8 = true) (n : Nat) (x : Nat → Byte) (a : Byte) :
    dot poly n (repeatedProduct poly a) x = horner poly n x a := by
  induction n generalizing x with
  | zero => rfl
  | succ n ih =>
    simp only [horner, ← ih, ← gmul_dot h8, ← repeatedProduct_succ]
    rw [dot, xorSum_succ_front]
    exact congrArg (· ^^^ _) (gmul_one_left poly h8 _)

theorem gmul_left_comm (h8 : poly.getLsbD 8 = true) (a b c : Byte) :
    gmul poly a (gmul poly b c) = gmul poly b (gmul poly a c) := by
  rw [← gmul_assoc poly h8, gmul_comm poly a b, gmul_assoc poly h8]

/-- One step of the division by `y - a`, where `r` is the remainder and `u` the quotient so far. -/
theorem xor_gmul_divide (h8 : poly.getLsbD 8 = true) (x r y a u : Byte) :
    x ^^^ gmul poly y (r ^^^ gmul poly (y ^^^ a) u) =
      x ^^^ gmul poly a r ^^^ gmul poly (y ^^^ a) (r ^^^ gmul poly y u) := by
  simp only [gmul_xor_right, gmul_left_comm h8 y (y ^^^ a), gmul_xor_left poly y a r]
  grind

/-- Division by `y - a`: the quotient has one coefficient less, and is 0 only if nothing but the constant coefficient
is left of the polynomial. -/
theorem exists_horner_quotient (h8 : poly.getLsbD 8 = true) (n : Nat) (x : Nat → Byte) (a : Byte) :
    ∃ q : Nat → Byte,
      (∀ y, horner poly (n + 1) x y = horner poly (n + 1) x a ^^^ gmul poly (y ^^^ a) (horner poly n q y)) ∧
      ((∀ c, c < n → q c = 0) → ∀ c, c < n → x (c + 1) = 0) := by
  induction n generalizing x with
  | zero => exact ⟨x, fun y => by simp [horner], fun _ _ hc => nomatch hc⟩
  | succ n ih =>
    obtain ⟨q, hq, hzero⟩ := ih fun c => x (c + 1)
    refine ⟨fun | 0 => horner poly (n + 1) (fun c => x (c + 1)) a | c + 1 => q c, fun y => ?_, fun h => ?_⟩
    · rw [horner_succ (n + 1) x y, hq y, xor_gmul_divide h8]
      rfl
    · have htail := hzero fun c hc => h (c + 1) (by omega)
      have hhead := h 0 (by omega)
      simp only [horner] at hhead
      rw [horner_of_zero htail, xor_gmul_zero] at hhead
      rintro (_ | c) hc
      · exact hhead
      · exact htail c (by omega)

/-- A polynomial with n coefficients and n distinct roots is 0. -/
theorem eq_zero_of_roots (hirr : IrreduciblePoly poly) {n : Nat} {x α : Nat → Byte}
    (hdistinct : ∀ i j, i < j → j < n → α i ≠ α j) (hroot : ∀ r, r < n → horner poly n x (α r) = 0) :
    ∀ c, c < n → x c = 0 := by
  induction n generalizing x with
  | zero => exact fun _ hc => nomatch hc
  | succ n ih =>
    obtain ⟨q, hq, hzero⟩ := exists_horner_quotient hirr.1 n x (α n)
    have hqroot (r : Nat) (hr : r < n) : horner poly n q (α r) = 0 := by
      have hprod := hq (α r)
      rw [hroot r (by omega), hroot n (by omega), gmul_comm] at hprod
      refine gmul_eq_zero poly hirr _ _ (fun e => hdistinct r n hr (by omega) (BitVec.xor_eq_zero_iff.1 e)) ?_
      exact (BitVec.zero_xor.symm.trans hprod.symm)
    have htail := hzero (ih (fun i j hij hj => hdistinct i j hij (by omega)) hqroot)
    rintro (_ | c) hc
    · have hlast := hroot n (by omega)
      rwa [horner, horner_of_zero htail, xor_gmul_zero] at hlast
    · exact htail c (by omega)

/-! ### The Vandermonde matrix -/

/-- Distinct rows of the Vandermonde matrix are independent. -/
theorem eq_zero_of_vandermonde_rows (hirr : IrreduciblePoly poly) {rows d : Nat} (hrows : rows ≤ 256) (hd : d ≤ rows)
    {f : Nat → Nat} (hf : ∀ i, i < d → f i < rows) (hdistinct : ∀ i j, i < j → j < d → f i ≠ f j) {x : Nat → Byte}
    (hx : ∀ r, r < d → dot poly d ((Matrix.vandermonde poly rows d).get (f r)) x = 0) : ∀ c, c < d → x c = 0 := by
  obtain ⟨-, -, -, hget⟩ := Matrix.vandermonde_is hirr.1 rows (show d ≤ 2 ^ 32 by omega)
  refine eq_zero_of_roots hirr (α := fun r => BitVec.ofNat 8 (f r)) (fun i j hij hj e => ?_) fun r hr => ?_
  · have hi := hf i (by omega)
    have hj' := hf j hj
    have := congrArg BitVec.toNat e
    simp only [BitVec.toNat_ofNat] at this
    exact hdistinct i j hij hj (by omega)
  · rw [← dot_repeatedProduct hirr.1, ← hx r hr]
    exact dot_congr (fun c hc => (hget (f r) c (hf r hr) hc).symm) fun _ _ => rfl

/-- A square matrix with independent columns is invertible: the elimination reduces it to the identity. -/
theorem Matrix.Independent.invertible (hirr : IrreduciblePoly poly) {a : Matrix} (hshaped : a.Shaped)
    (hsquare : a.rows = a.cols) (h : a.Independent poly a.rows) : a.Invertible poly := by
  obtain ⟨hfail, hreduced⟩ := gaussReduces poly a hirr hshaped hsquare.le
  cases hgauss : a.gauss poly with
  | error r =>
    obtain ⟨hr, hdep, -⟩ := hfail r hgauss
    exact absurd (h.mono hr) hdep
  | ok v =>
    obtain ⟨-, -, -, hunit, x, ⟨hxrows, hxcols, hxshaped, -⟩, hfactor⟩ := hreduced v hgauss
    refine ⟨hsquare, x, isIdentity_mtimes hxrows hsquare.symm fun r c hr hc => ?_, hxshaped, hxrows, hxcols⟩
    rw [hxcols, ← hfactor r c hr (by omega)]
    exact hunit r c hr hc

/-! ### The encoding matrix -/

/-- `buildEM` succeeds; EM is the Vandermonde matrix times a matrix, and its top is the identity. -/
theorem exists_encodingMatrix (hirr : IrreduciblePoly poly) {d p : Nat} (ht : d + p ≤ 256) :
    ∃ em inv : Matrix, buildEM poly d p = .ok em ∧
      (em.Is (d + p) d fun r c => dot poly d ((Matrix.vandermonde poly (d + p) d).get r) fun i => inv.get i c) ∧
      ∀ r c, r < d → c < d → em.get r c = if r = c then 1 else 0 := by
  obtain ⟨v, hv⟩ : ∃ v, v = Matrix.vandermonde poly (d + p) d := ⟨_, rfl⟩
  have htop (r c : Nat) (hr : r < d) (hc : c < d) : (v.msub 0 0 d d).get r c = v.get r c := by
    rw [Matrix.msub, Matrix.get_build _ _ _ r c (by omega) (by omega), Nat.zero_add, Nat.zero_add]
  have hind : (v.msub 0 0 d d).Independent poly d := fun x hx =>
    eq_zero_of_vandermonde_rows hirr ht (Nat.le_add_right d p) (f := id) (fun i hi => Nat.lt_add_right p hi)
      (fun i j hij _ => hij.ne) fun r hr => by
        rw [← hx r hr]
        exact dot_congr (fun c hc => hv ▸ (htop r c hr hc).symm) fun _ _ => rfl
  obtain ⟨inv, hinv, ⟨-, -, -, hright⟩, -⟩ :=
    (hind.invertible hirr (Matrix.build_shaped ..) rfl).minvert hirr
  have hcols : inv.cols = d := (Matrix.minvert_shape _ _ inv hinv).2.1
  have hget (r c : Nat) (hr : r < d + p) (hc : c < d) :
      (v.mtimes poly inv).get r c = dot poly d (v.get r) fun i => inv.get i c := by
    subst hv
    exact Matrix.get_mtimes _ _ hr (hcols.symm ▸ hc)
  subst hv
  refine ⟨_, inv, buildEM_of_minvert hinv, ⟨rfl, hcols, Matrix.build_shaped .., hget⟩, fun r c hr hc => ?_⟩
  refine (hget r c (by omega) hc).trans (Eq.trans ?_ (hright r c hr hc))
  rw [Matrix.get_mtimes _ _ hr (hcols.symm ▸ hc)]
  exact dot_congr (fun i hi => (htop r i hr hi).symm) fun _ _ => rfl

/-- Settles O58: the shape and the top are `exists_encodingMatrix`'s; with D = 1 every row is the top row, since every
row of the Vandermonde matrix is [1]. -/
theorem encodingMatrixTop : Obligations.EncodingMatrixTop := by
  intro poly d p em hirr _ ht hem
  obtain ⟨em', inv, hem', ⟨hrows, hcols, hshaped, hget⟩, hunit⟩ := exists_encodingMatrix hirr ht
  cases hem.symm.trans hem'
  refine ⟨hrows, hcols, hshaped, hunit, ?_⟩
  rintro rfl r hr
  obtain ⟨-, -, -, hpower⟩ := Matrix.vandermonde_is hirr.1 (1 + p) (show 1 ≤ 2 ^ 32 by omega)
  calc em.get r 0
      _ = em.get 0 0 := by
        rw [hget r 0 (by omega) one_pos, hget 0 0 (by omega) one_pos]
        refine dot_congr (fun i hi => ?_) fun _ _ => rfl
        rw [hpower r i (by omega) hi, hpower 0 i (by omega) hi, Nat.lt_one_iff.1 hi]
        rfl
      _ = 1 := hunit 0 0 one_pos one_pos

/-- Distinct rows of the encoding matrix make an invertible matrix (10_state.md R35). -/
theorem invertible_of_encodingMatrix_rows (hirr : IrreduciblePoly poly) {d p : Nat} (ht : d + p ≤ 256) {em m : Matrix}
    (hem : buildEM poly d p = .ok em) {f : Nat → Nat} (hf : ∀ i, i < d → f i < d + p)
    (hdistinct : ∀ i j, i < j → j < d → f i ≠ f j) (hm : m.Is d d fun r k => em.get (f r) k) : m.Invertible poly := by
  obtain ⟨em', inv, hem', ⟨-, -, -, hget⟩, hunit⟩ := exists_encodingMatrix hirr ht
  cases hem.symm.trans hem'
  obtain ⟨hrows, hcols, hshaped, hmget⟩ := hm
  obtain ⟨v, hv⟩ : ∃ v, v = Matrix.vandermonde poly (d + p) d := ⟨_, rfl⟩
  -- EM times a column is V times the column `inv` makes of it.
  have hdot (x : Nat → Byte) (r : Nat) (hr : r < d + p) :
      dot poly d (em.get r) x = dot poly d (v.get r) fun i => dot poly d (inv.get i) x := by
    rw [← dot_dot hirr.1]
    exact dot_congr (fun c hc => hv ▸ hget r c hr hc) fun _ _ => rfl
  refine Matrix.Independent.invertible hirr hshaped (hrows.trans hcols.symm) fun x hx c hc => ?_
  rw [hrows] at hx hc
  have hzero : ∀ i, i < d → dot poly d (inv.get i) x = 0 :=
    eq_zero_of_vandermonde_rows hirr ht (Nat.le_add_right d p) hf hdistinct fun r hr => by
      rw [← hv, ← hdot x (f r) (hf r hr), ← hx r hr]
      exact dot_congr (fun i hi => (hmget r i hr hi).symm) fun _ _ => rfl
  calc x c
      _ = dot poly d (em.get c) x := by
        rw [dot_comm, dot_unit_right hirr.1 hc fun i hi => ?_]
        rw [hunit c i hc hi]
        exact if_congr eq_comm rfl rfl
      _ = dot poly d (v.get c) fun i => dot poly d (inv.get i) x := hdot x c (by omega)
      _ = 0 := dot_zero_right hzero

/-- Settles O59: `exists_encodingMatrix`, and `minvert` inverts what `invertible_of_encodingMatrix_rows` gives. -/
theorem encodingMatrixInvertible : Obligations.EncodingMatrixInvertible := by
  intro poly d p hirr _ ht
  obtain ⟨em, _, hem, -⟩ := exists_encodingMatrix hirr ht
  refine ⟨em, hem, fun f m hf hdistinct hm => ?_⟩
  obtain ⟨inv, hinv, -⟩ := (invertible_of_encodingMatrix_rows hirr ht hem hf hdistinct hm).minvert hirr
  exact ⟨inv, hinv⟩

end Sys2Proof.Machine
end

section
/-! PROOF. The checks of DECODE (43_erasure_coder.md R210, R211): each is a line of `Checked`, before and after the
tags are read. -/

namespace Sys2Proof.Machine

theorem Checked.imp {s : State} {out : Host.Outcome State Fault Refusal} {lines : List CheckLine} {p q : Prop}
    (hpq : p → q) (h : Checked s out lines p) : Checked s out lines q := by
  induction lines with
  | nil => exact hpq h
  | cons line rest ih => exact ⟨h.1, fun hc => ih (h.2 hc)⟩

/-! ### The tags -/

/-- The present raw descriptors with their tags (43_erasure_coder.md R211). -/
def State.tagged (s : State) : List Tagged := s.pres.map fun k => { desc := k, tag := s.tagOf k }

@[simp] theorem State.map_tag_tagged (s : State) : s.tagged.map Tagged.tag = s.pres.map s.tagOf := by
  simp [State.tagged]

theorem State.nodup_pres (s : State) : s.pres.Nodup := (List.nodup_range' ..).filter _

/-- The two parts of the TAG check (43_erasure_coder.md R210). -/
theorem State.tagCheck_iff (s : State) (n : Nat) :
    ((∃ k ∈ s.pres, n ≤ s.tagOf k) ∨ ∃ k ∈ s.pres, ∃ j ∈ s.pres, k ≠ j ∧ s.tagOf k = s.tagOf j) ↔
      (s.tagged.any fun x => decide (x.tag ≥ n)) = true ∨ hasDuplicate (s.tagged.map Tagged.tag) = true := by
  refine or_congr (by simp [State.tagged]) ?_
  rw [State.map_tag_tagged, hasDuplicate_iff, List.nodup_map_iff_inj_on s.nodup_pres]
  push Not
  exact exists_congr fun k => and_congr_right fun _ => exists_congr fun j => and_congr_right fun _ => and_comm

/-! ### The common checks -/

/-- `out` is the outcome of the path DECODE takes once the common checks have passed (43_erasure_coder.md R212,
R213). -/
def State.EndsByPath (s : State) (c : Coder) (out : Host.Outcome State Fault Refusal) : Prop :=
  (s.Fast c → out = finish s (s.decodeFast c s.tagged (List.range' (s.natArg 2) c.t) s.payloadLen)) ∧
    (¬ s.Fast c → out =
      finish s (s.decodeGeneral c s.tagged (List.range' (s.natArg 2) c.t) s.payloadLen (s.natArg 3) (s.natArg 4)))

section Common

variable {s : State} {c : Coder}

/-- Everything the common part of DECODE does (43_erasure_coder.md R210): its first checks, the reading of the tags,
the checks on them, and one of the two paths. -/
theorem checked_decode (hc : s.coder = some c) (hok : c.Ok) :
    Checked s (exec .decode s) (s.decodeChecks c)
      (∃ k : List Tagged → Check State, exec .decode s = finish s (s.readTags s.pres >>= k) ∧
        Checked s (finish s (k s.tagged)) (s.tagChecks c) (s.EndsByPath c (finish s (k s.tagged)))) := by
  have hpos : 1 ≤ c.t := hok.d_pos.trans (Nat.le_add_right ..)
  obtain ⟨fast, hfastDef⟩ : ∃ b, b = (decide (s.arg 1 = c.t) && decide (s.pres.length = c.t)) := ⟨_, rfl⟩
  have hfast : fast = true ↔ s.Fast c := by
    simp only [hfastDef, Bool.and_eq_true, decide_eq_true_eq, State.Fast, State.natArg]
    omega
  refine .raiseIf .count Iff.rfl (finish_readCoder_some hc) fun _ h => .raiseIf .negative Iff.rfl h fun _ h =>
    .checkRun h fun h => .checkRun h fun h => .placed (exists_append_run (s.arg 0) (s.arg 1) (s.arg 2) c.t _).symm h
      fun _ h => .raiseIf (.insufficientShards s.pres.length) ?_ h fun _ h => ⟨_, h, ?_⟩
  · rw [← hfast, Bool.not_eq_true, hfastDef]
    rfl
  refine .raiseIf .tag (s.tagCheck_iff c.t) rfl fun _ h =>
    .raiseIf .shardLength (s.sameLengths_iff s.pres).symm h fun _ h => .raiseIf .bufBounds Iff.rfl h fun _ h =>
    ⟨fun hf => ?_, fun hf => ?_⟩
  · exact h.trans (congrArg (finish s) (if_pos (hfastDef.symm.trans (hfast.2 hf))))
  · exact h.trans (congrArg (finish s) (if_neg fun e => hf (hfast.1 (hfastDef.trans e))))

/-- Settles O42: the checks (`checked_decode`), with the tags read or the fault of one without a value. -/
theorem decodeCommonChecks : Obligations.DecodeCommonChecks := by
  refine ⟨isEncoding_encode .decode, fun s => ⟨finish_readCoder_none, fun c hc hok => ?_⟩⟩
  refine (checked_decode hc hok).imp fun ⟨k, hk, htags⟩ => ⟨fun hwritten => ?_, fun x hx hunwritten => ?_⟩
  · rw [s.readTags_ok s.pres hwritten, check_bind_ok] at hk
    exact hk ▸ htags.imp fun _ => trivial
  · obtain ⟨addr, hread, hnone⟩ := s.readTags_bad s.pres ⟨x, hx, hunwritten⟩
    rw [hread, check_bind_error, finish_fault] at hk
    exact ⟨addr, hk, hnone⟩

/-- Where the common checks pass, DECODE is one of its two paths. -/
theorem decode_path (hc : s.coder = some c) (hok : c.Ok) (hchecks : Passes (s.decodeChecks c))
    (hwritten : ∀ k ∈ s.pres, s.Written (s.base k) 1) (htags : Passes (s.tagChecks c)) :
    s.EndsByPath c (exec .decode s) := by
  obtain ⟨k, hk, hpath⟩ := (checked_decode hc hok).of_passes hchecks
  rw [s.readTags_ok s.pres hwritten, check_bind_ok] at hk
  exact hk ▸ hpath.of_passes htags

end Common

end Sys2Proof.Machine
end

section
/-! PROOF. What the two paths of DECODE share (43_erasure_coder.md R212, R213): which raw descriptor carries a shard,
the payloads they read, the output checks and the blocks they write; and the fast path. -/

namespace Sys2Proof.Machine

variable {s : State} {c : Coder}

/-! ### Which descriptor carries a shard -/

theorem findTag_tagged_eq (t : Nat) : findTag s.tagged t = s.pres.find? fun k => s.tagOf k == t := by
  simp [findTag, State.tagged, List.find?_map, Function.comp_def]

theorem isSome_findTag_iff {t : Nat} : (findTag s.tagged t).isSome = true ↔ s.ShardPresent t := by
  simp [findTag_tagged_eq, State.ShardPresent, State.Carries]

theorem findTag_eq_none {t : Nat} (h : ¬ s.ShardPresent t) : findTag s.tagged t = none :=
  Option.not_isSome_iff_eq_none.1 (mt isSome_findTag_iff.1 h)

theorem carries_of_findTag {t k : Nat} (h : findTag s.tagged t = some k) : s.Carries t k := by
  rw [findTag_tagged_eq] at h
  have htag := List.find?_some h
  exact ⟨List.mem_of_find?_eq_some h, beq_iff_eq.1 htag⟩

/-- What the checks of R210 on the tags leave: each tag is a shard number, no two descriptors carry one shard, and the
range lies inside the payload. -/
structure State.TagsOk (s : State) (c : Coder) : Prop where
  lt : ∀ k ∈ s.pres, s.tagOf k < c.t
  inj : ∀ k ∈ s.pres, ∀ j ∈ s.pres, s.tagOf k = s.tagOf j → k = j
  range_le : s.natArg 3 + s.natArg 4 ≤ s.payloadLen

theorem State.tagsOk_of_passes (hchecks : Passes (s.decodeChecks c)) (h : Passes (s.tagChecks c)) : s.TagsOk c := by
  simp only [Passes, State.decodeChecks, State.tagChecks, rangeLine, List.forall_mem_cons, List.not_mem_nil]
    at hchecks h
  obtain ⟨-, hneg, -⟩ := hchecks
  obtain ⟨htag, -, hrange, -⟩ := h
  push Not at htag
  refine ⟨htag.1, fun k hk j hj e => ?_, by simp only [State.natArg]; omega⟩
  by_contra hne
  exact htag.2 k hk j hj hne e

theorem State.TagsOk.findTag_eq_some (h : s.TagsOk c) {t k : Nat} (hk : s.Carries t k) :
    findTag s.tagged t = some k := by
  obtain ⟨k', hk'⟩ := Option.isSome_iff_exists.1 (isSome_findTag_iff.2 ⟨k, hk⟩)
  obtain ⟨hmem', rfl⟩ := carries_of_findTag hk'
  rw [hk', h.inj k' hmem' k hk.1 hk.2.symm]

/-! ### The payloads -/

/-- The payload of shard t, where it is present (43_erasure_coder.md R211). -/
def State.shardBytes (s : State) (t : Nat) : Option (List Byte) :=
  (findTag s.tagged t).map fun k => (List.range s.payloadLen).map fun j => s.byteAt (s.base k + 1 + j)

theorem shardBytes_of_absent {t : Nat} (h : ¬ s.ShardPresent t) : s.shardBytes t = none := by
  rw [State.shardBytes, findTag_eq_none h, Option.map_none]

theorem State.TagsOk.shardBytes_eq (h : s.TagsOk c) {t k : Nat} (hk : s.Carries t k) :
    s.shardBytes t = some ((List.range s.payloadLen).map fun j => s.byteAt (s.base k + 1 + j)) := by
  rw [State.shardBytes, h.findTag_eq_some hk, Option.map_some]

theorem length_of_shardBytes {t : Nat} {bytes : List Byte} (h : s.shardBytes t = some bytes) :
    bytes.length = s.payloadLen := by
  obtain ⟨k, -, rfl⟩ := Option.map_eq_some_iff.1 h
  simp

/-- Where the present payloads among the shards listed have values, they are read. -/
theorem payloads_ok {ts : List Nat}
    (h : ∀ t k, t ∈ ts → s.Carries t k → s.Written (s.base k + 1) s.payloadLen) :
    s.payloads s.tagged s.payloadLen ts = .ok (ts.map s.shardBytes) := by
  induction ts with
  | nil => rfl
  | cons t rest ih =>
    have ih := ih fun t k ht => h t k (List.mem_cons_of_mem _ ht)
    rw [State.payloads]
    cases hk : findTag s.tagged t with
    | none => simp [ih, State.shardBytes, hk]
    | some k =>
      have hread := s.readBlock_ok _ _ (h t k (List.mem_cons_self ..) (carries_of_findTag hk))
      simp [ih, State.payload, hread, State.shardBytes, hk]

/-! ### The output checks -/

/-- Two of the first n outputs overlap (43_erasure_coder.md R212). -/
def State.OutputsOverlap (s : State) (n : Nat) : Prop :=
  ∃ k j, InRange k (s.natArg 2) n ∧ InRange j (s.natArg 2) n ∧ k ≠ j ∧
    Overlaps (s.base k) s.payloadLen (s.base j) s.payloadLen

theorem overlaps_comm {a m b n : Nat} : Overlaps a m b n ↔ Overlaps b n a m := by
  simp only [Overlaps]
  omega

/-- The overlap check of the outputs (20_memory.md R79), in the terms of Safety.lean. -/
theorem outputsAlias_iff {n : Nat} :
    buffersAlias (s.tagged.map fun x => (s.base x.desc, s.base x.desc + s.len x.desc))
        ((List.range' (s.natArg 2) n).map fun o => (s.base o, s.base o + s.payloadLen)) = true ↔
      s.OutputsOverlap n ∨ ∃ k, InRange k (s.natArg 2) n ∧ ∃ j ∈ s.pres,
        Overlaps (s.base k) s.payloadLen (s.base j) (s.len j) := by
  rw [buffersAlias, Bool.or_eq_true, somePairOverlaps_iff, List.pairwise_map]
  refine or_congr ?_ ?_
  · simp only [overlap_iff]
    rw [run_pairwise _ _ _ fun _ _ => mt overlaps_comm.1]
    simp only [State.OutputsOverlap]
    push Not
    rfl
  · simp [State.tagged, overlap_iff, InRange, List.mem_range'_1]

/-- The output checks (43_erasure_coder.md R212). -/
theorem Checked.outputs {out : Host.Outcome State Fault Refusal} {n : Nat} {k : Unit → Check State} {otherwise : Prop}
    (h : out = finish s (s.checkOutputs s.tagged (List.range' (s.natArg 2) n) s.payloadLen >>= k))
    (hrest : ¬ s.OutputsOverlap n → out = finish s (k ()) → otherwise) :
    Checked s out (s.outputChecks n) otherwise := by
  rw [State.checkOutputs, bind_assoc] at h
  refine .raiseIf .bufBounds ?_ h fun _ h => .raiseIf .bufAlias outputsAlias_iff.symm h fun halias =>
    hrest fun hover => halias (.inl hover)
  simp [State.TooShort, InRange, List.mem_range'_1, and_assoc]

/-! ### The blocks written -/

/-- How a path ends that writes one block of the payload length to each of the first n outputs, which do not overlap:
each block is read back, and no other byte changes. -/
theorem exists_completed_outputs {out : Host.Outcome State Fault Refusal} {n : Nat} {v w : Word}
    {blocks : List (List Byte)} (hlen : blocks.length = n) (hblock : ∀ b ∈ blocks, b.length = s.payloadLen)
    (hover : ¬ s.OutputsOverlap n)
    (h : out = finish s (.ok
      (((State.writeBlocks 0 s ((List.range' (s.natArg 2) n).zip blocks)).setResult0 v).setResult1 w))) :
    ∃ m : Memory, out = .next { s with mem := m, result0 := v, result1 := w }.completed ∧
      (∀ t j, t < n → j < s.payloadLen → m.read (s.base (s.natArg 2 + t) + j) = (blocks.getD t [])[j]?) ∧
      ∀ addr, (∀ t, t < n → ¬ InRange addr (s.base (s.natArg 2 + t)) s.payloadLen) →
        m.read addr = s.mem.read addr := by
  rw [State.writeBlocks_eq, finish_ok] at h
  obtain ⟨hread, hframe⟩ := Memory.writeAll_run s 0 s.payloadLen (s.natArg 2) n s.mem blocks hlen hblock hover
  exact ⟨_, h, hread, hframe⟩

/-! ### The fast path -/

/-- On the fast path every data shard is present (43_erasure_coder.md R212). -/
theorem shardPresent_of_order (h : ¬ (s.orderCheck c).cond) {t : Nat} (ht : t < c.d) : s.ShardPresent t := by
  have hmem : t ∈ (s.pres.map s.tagOf).filter fun t => decide (t < c.d) :=
    (not_not.1 h).symm ▸ List.mem_range.2 ht
  exact List.mem_map.1 (List.mem_of_mem_filter hmem)

/-- Settles O43: the order check and the output checks, then each output holds the payload of its shard. -/
theorem decodeFastPath : Obligations.DecodeFastPath := by
  intro s c hc hok hfast hchecks hwritten htags
  have h := (decode_path hc hok hchecks hwritten htags).1 hfast
  have hok' := State.tagsOk_of_passes hchecks htags
  refine .raiseIf .fastpathOrder (by rw [State.map_tag_tagged]) h fun horder h => ?_
  change _ = finish s (s.checkOutputs s.tagged (List.take c.d _) s.payloadLen >>= _) at h
  rw [take_run _ c.t c.d (Nat.le_add_right ..)] at h
  refine .outputs h fun hover h hpayloads => ?_
  rw [payloads_ok fun t k ht => hpayloads t k (List.mem_range.1 ht), check_bind_ok] at h
  have hblock : ∀ b ∈ ((List.range c.d).map s.shardBytes).map fun x => x.getD [], b.length = s.payloadLen := by
    simp only [List.map_map, List.forall_mem_map, List.mem_range]
    intro t ht
    obtain ⟨k, hk⟩ := shardPresent_of_order horder ht
    simp [hok'.shardBytes_eq hk]
  obtain ⟨m, hm, hread, hframe⟩ := exists_completed_outputs (by simp) hblock hover h
  refine ⟨m, hm, fun t k j ht hk hj => ?_, hframe⟩
  rw [hread t j ht hj]
  simp [ht, hj, hok'.shardBytes_eq hk]

end Sys2Proof.Machine
end

section
/-! PROOF. DECODE's general path (43_erasure_coder.md R213): the shards chosen and the bytes of the blocks it writes;
and the recovery of the shards by either path (R214). -/

namespace Sys2Proof.Machine

variable {s : State} {c : Coder}

/-! ### The shards chosen -/

/-- The D smallest present shard numbers, as the general path takes them (43_erasure_coder.md R213). -/
def State.chosen (s : State) (c : Coder) : List Nat :=
  ((List.range c.t).filter fun t => (findTag s.tagged t).isSome).take c.d

theorem mem_filter_present {t : Nat} :
    (t ∈ (List.range c.t).filter fun t => (findTag s.tagged t).isSome) ↔ t < c.t ∧ s.ShardPresent t := by
  rw [List.mem_filter, List.mem_range, isSome_findTag_iff]

theorem State.TagsOk.isChosen (h : s.TagsOk c) (hcount : c.d ≤ s.pres.length) : s.IsChosen c (s.chosen c) := by
  obtain ⟨all, hall⟩ : ∃ all, all = (List.range c.t).filter fun t => (findTag s.tagged t).isSome := ⟨_, rfl⟩
  have hmem (t : Nat) : t ∈ all ↔ t < c.t ∧ s.ShardPresent t := hall ▸ mem_filter_present
  have hsorted : all.Pairwise (· < ·) := hall ▸ List.pairwise_lt_range.filter _
  have hsplit := (List.take_append_drop c.d all).symm
  have hlen : c.d ≤ all.length := by
    have htags : (s.pres.map s.tagOf).Nodup := (List.nodup_map_iff_inj_on s.nodup_pres).2 h.inj
    have hsub : s.pres.map s.tagOf ⊆ all := fun t ht => by
      obtain ⟨k, hk, rfl⟩ := List.mem_map.1 ht
      exact (hmem _).2 ⟨h.lt k hk, k, hk, rfl⟩
    have hle := (List.subperm_of_subset htags hsub).length_le
    rw [List.length_map] at hle
    exact hcount.trans hle
  rw [State.chosen, ← hall]
  refine ⟨List.length_take_of_le hlen, hsorted.take, fun t ht => (hmem t).1 (List.mem_of_mem_take ht),
    fun t ht hpresent hnot u hu => ?_⟩
  have hdrop : t ∈ all.drop c.d :=
    (List.mem_append.1 (hsplit ▸ (hmem t).2 ⟨ht, hpresent⟩)).resolve_left hnot
  exact (List.pairwise_append.1 (hsplit ▸ hsorted)).2.2 u hu t hdrop

/-- A matrix given entry by entry is the one built from its entries. -/
theorem Matrix.Is.eq_build {a : Matrix} {rows cols : Nat} {f : Nat → Nat → Byte} (h : a.Is rows cols f) :
    a = Matrix.build rows cols f := by
  obtain ⟨rfl, rfl, hshaped, hget⟩ := h
  exact Matrix.ext_get _ _ hshaped (Matrix.build_shaped ..) rfl rfl fun r k hr hk =>
    (hget r k hr hk).trans (Matrix.get_build _ _ f r k hr hk).symm

/-! ### The bytes of a rebuilt shard -/

section Rebuild

variable {poly : BitVec 9} {ins : List (List Byte)} {row : List Byte} {l off cnt j : Nat}

theorem getD_cut {bytes : List Byte} (hj : InRange j off cnt) :
    (cut off cnt bytes).getD (j - off) 0 = bytes.getD j 0 := by
  obtain ⟨hlo, hhi⟩ := hj
  have hlt : j - off < cnt := by omega
  simp [cut, hlt, Nat.add_sub_cancel' hlo]

/-- Inside the range, a rebuilt shard is the sum of products (42_coding_loop.md R180). -/
theorem getElem?_rebuild_inside (hj : InRange j off cnt) : (rebuild poly ins l off cnt row none)[j]? =
    some (dot poly ins.length (fun i => row.getD i 0) fun i => (ins.getD i []).getD (j - off) 0) := by
  obtain ⟨hlo, hhi⟩ := hj
  have hlt : j - off < cnt := by omega
  rw [rebuild, spliceZero, List.append_assoc, List.getElem?_append_right (by simpa using hlo),
    List.getElem?_append_left (by simpa [length_codeRow] using hlt)]
  simp [codeRow, hlt, dot]

/-- Outside the range, a rebuilt shard is 0. -/
theorem getElem?_rebuild_outside (hj : ¬ InRange j off cnt) (hjl : j < l) (hrange : off + cnt ≤ l) :
    (rebuild poly ins l off cnt row none)[j]? = some 0 := by
  rw [InRange, not_and_or, not_le, not_lt] at hj
  rcases hj with hlo | hhi
  · rw [rebuild, spliceZero, List.append_assoc, List.getElem?_append_left (by simpa using hlo)]
    simp [hlo]
  · rw [rebuild, spliceZero, List.getElem?_append_right (by simpa [length_codeRow] using hhi)]
    exact List.getElem?_replicate_of_lt (by simp [length_codeRow]; omega)

end Rebuild

/-! ### The blocks -/

/-- The chosen payloads over the range: the inputs of the data shards (43_erasure_coder.md R213). -/
def State.chosenInputs (s : State) (chosen : List Nat) : List (List Byte) :=
  chosen.map fun t => cut (s.natArg 3) (s.natArg 4) ((s.shardBytes t).getD [])

/-- What the general path writes for the data shards. -/
def State.dataBlocks (s : State) (c : Coder) (chosen : List Nat) (inv : Matrix) : List (List Byte) :=
  (List.range c.d).map fun t =>
    rebuild s.par.fieldPoly (s.chosenInputs chosen) s.payloadLen (s.natArg 3) (s.natArg 4) (inv.row t) (s.shardBytes t)

/-- What the general path writes for the parity shards, from the completed data shards. -/
def State.parityBlocks (s : State) (c : Coder) (data : List (List Byte)) : List (List Byte) :=
  (List.range c.p).map fun i =>
    rebuild s.par.fieldPoly (data.map (cut (s.natArg 3) (s.natArg 4))) s.payloadLen (s.natArg 3) (s.natArg 4)
      (c.pr.row i) (s.shardBytes (c.d + i))

/-- What the general path writes, shard by shard. -/
def State.decodedBlocks (s : State) (c : Coder) (chosen : List Nat) (inv : Matrix) : List (List Byte) :=
  s.dataBlocks c chosen inv ++ s.parityBlocks c (s.dataBlocks c chosen inv)

section Blocks

variable {chosen : List Nat} {inv : Matrix} {t j : Nat}

theorem length_blocks : (s.decodedBlocks c chosen inv).length = c.t := by
  simp [State.decodedBlocks, State.dataBlocks, State.parityBlocks, Coder.t]

theorem getD_dataBlocks (ht : t < c.d) : (s.dataBlocks c chosen inv).getD t [] =
    rebuild s.par.fieldPoly (s.chosenInputs chosen) s.payloadLen (s.natArg 3) (s.natArg 4) (inv.row t)
      (s.shardBytes t) := by
  simp [State.dataBlocks, ht]

theorem getD_blocks_data (ht : t < c.d) :
    (s.decodedBlocks c chosen inv).getD t [] = (s.dataBlocks c chosen inv).getD t [] := by
  rw [State.decodedBlocks, List.getD_append _ _ _ _ (by simpa [State.dataBlocks] using ht)]

theorem getD_blocks_parity (hdt : c.d ≤ t) (ht : t < c.t) : (s.decodedBlocks c chosen inv).getD t [] =
    rebuild s.par.fieldPoly ((s.dataBlocks c chosen inv).map (cut (s.natArg 3) (s.natArg 4))) s.payloadLen
      (s.natArg 3) (s.natArg 4) (c.pr.row (t - c.d)) (s.shardBytes t) := by
  have hp : t - c.d < c.p := by rw [Coder.t] at ht; omega
  rw [State.decodedBlocks, List.getD_append_right _ _ _ _ (by simpa [State.dataBlocks] using hdt)]
  simp [State.parityBlocks, State.dataBlocks, hp, Nat.add_sub_cancel' hdt]

/-- Every block is a shard as decoded. -/
theorem exists_getD_blocks (ht : t < c.t) : ∃ ins row, (s.decodedBlocks c chosen inv).getD t [] =
    rebuild s.par.fieldPoly ins s.payloadLen (s.natArg 3) (s.natArg 4) row (s.shardBytes t) := by
  rcases Nat.lt_or_ge t c.d with hlt | hge
  · exact ⟨_, _, (getD_blocks_data hlt).trans (getD_dataBlocks hlt)⟩
  · exact ⟨_, _, getD_blocks_parity hge ht⟩

theorem State.TagsOk.length_of_mem_blocks (h : s.TagsOk c) {b : List Byte} (hb : b ∈ s.decodedBlocks c chosen inv) :
    b.length = s.payloadLen := by
  obtain ⟨t, ht, rfl⟩ := List.mem_iff_getElem.1 hb
  obtain ⟨ins, row, e⟩ := exists_getD_blocks (s := s) (chosen := chosen) (inv := inv) (length_blocks ▸ ht)
  rw [← List.getD_eq_getElem _ [] ht, e]
  exact length_rebuild (fun _ hbytes => length_of_shardBytes hbytes) h.range_le

/-- A present shard is copied whole. -/
theorem State.TagsOk.getElem?_blocks_present (h : s.TagsOk c) {k : Nat} (ht : t < c.t) (hk : s.Carries t k)
    (hj : j < s.payloadLen) : ((s.decodedBlocks c chosen inv).getD t [])[j]? = some (s.byteAt (s.base k + 1 + j)) := by
  obtain ⟨ins, row, e⟩ := exists_getD_blocks (s := s) (chosen := chosen) (inv := inv) ht
  rw [e, h.shardBytes_eq hk, rebuild, List.getElem?_map, List.getElem?_range hj]
  rfl

/-- An absent shard is 0 outside the range. -/
theorem State.TagsOk.getElem?_blocks_outside (h : s.TagsOk c) (ht : t < c.t) (habsent : ¬ s.ShardPresent t)
    (hj : j < s.payloadLen) (hout : ¬ InRange j (s.natArg 3) (s.natArg 4)) :
    ((s.decodedBlocks c chosen inv).getD t [])[j]? = some 0 := by
  obtain ⟨ins, row, e⟩ := exists_getD_blocks (s := s) (chosen := chosen) (inv := inv) ht
  rw [e, shardBytes_of_absent habsent]
  exact getElem?_rebuild_outside hout hj h.range_le

/-- An absent data shard is made of the chosen payloads. -/
theorem State.TagsOk.getElem?_blocks_data (h : s.TagsOk c) (hlen : chosen.length = c.d) (ht : t < c.d)
    (habsent : ¬ s.ShardPresent t) (hin : InRange j (s.natArg 3) (s.natArg 4)) {src : Nat → Nat}
    (hsrc : ∀ i, i < c.d → s.Carries (chosen.getD i 0) (src i)) :
    ((s.decodedBlocks c chosen inv).getD t [])[j]? =
      some (dot s.par.fieldPoly c.d (inv.get t) fun i => s.byteAt (s.base (src i) + 1 + j)) := by
  have hj : j < s.payloadLen := hin.2.trans_le h.range_le
  rw [getD_blocks_data ht, getD_dataBlocks ht, shardBytes_of_absent habsent, getElem?_rebuild_inside hin,
    State.chosenInputs, List.length_map, hlen]
  refine congrArg some (dot_congr (fun _ _ => rfl) fun i hi => ?_)
  have hchosen : (chosen.map fun t => cut (s.natArg 3) (s.natArg 4) ((s.shardBytes t).getD [])).getD i [] =
      cut (s.natArg 3) (s.natArg 4) ((s.shardBytes (chosen.getD i 0)).getD []) := by
    simp [hlen, hi]
  rw [hchosen, getD_cut hin, h.shardBytes_eq (hsrc i hi)]
  simp [hj]

/-- An absent parity shard is made of the completed data shards. -/
theorem getElem?_blocks_parity (hdt : c.d ≤ t) (ht : t < c.t) (habsent : ¬ s.ShardPresent t)
    (hin : InRange j (s.natArg 3) (s.natArg 4)) :
    ((s.decodedBlocks c chosen inv).getD t [])[j]? =
      some (dot s.par.fieldPoly c.d (c.pr.get (t - c.d)) fun i =>
        ((s.decodedBlocks c chosen inv).getD i [])[j]?.getD 0) := by
  have hlen : ((s.dataBlocks c chosen inv).map (cut (s.natArg 3) (s.natArg 4))).length = c.d := by
    simp [State.dataBlocks]
  rw [getD_blocks_parity hdt ht, shardBytes_of_absent habsent, getElem?_rebuild_inside hin, hlen]
  refine congrArg some (dot_congr (fun _ _ => rfl) fun i hi => ?_)
  have hblock : ((s.dataBlocks c chosen inv).map (cut (s.natArg 3) (s.natArg 4))).getD i [] =
      cut (s.natArg 3) (s.natArg 4) ((s.dataBlocks c chosen inv).getD i []) := by
    simp [State.dataBlocks, hi]
  rw [hblock, getD_cut hin, getD_blocks_data hi, List.getD_eq_getElem?_getD]

end Blocks

/-! ### The general path -/

/-- No tag is T or more, so the list of the T shards holds every payload. -/
theorem State.TagsOk.getD_shardBytes (h : s.TagsOk c) (t : Nat) :
    ((List.range c.t).map s.shardBytes).getD t none = s.shardBytes t := by
  rcases Nat.lt_or_ge t c.t with hlt | hge
  · simp [hlt]
  · have habsent : ¬ s.ShardPresent t := fun ⟨k, hk, e⟩ => by
      have := h.lt k hk
      omega
    rw [List.getD_eq_default _ _ (by simpa using hge), shardBytes_of_absent habsent]

/-- INSUFFICIENT_SHARDS passed (43_erasure_coder.md R210). -/
theorem le_length_pres_of_passes (hchecks : Passes (s.decodeChecks c)) (hfast : ¬ s.Fast c) :
    c.d ≤ s.pres.length := by
  have hcount := hchecks ⟨¬ s.Fast c ∧ s.pres.length < c.d, 0, 4, s.pres.length⟩ (by simp [State.decodeChecks])
  exact not_lt.1 fun hlt => hcount ⟨hfast, hlt⟩

/-- Settles O44: the output checks, the inversion of the chosen rows, and the bytes of the blocks written. -/
theorem decodeGeneralPath : Obligations.DecodeGeneralPath := by
  intro s c hc hok hfast hchecks hwritten htags
  have h := (decode_path hc hok hchecks hwritten htags).2 hfast
  have hok' := State.tagsOk_of_passes hchecks htags
  have hchosen := hok'.isChosen (le_length_pres_of_passes hchecks hfast)
  refine .outputs h fun hover h => ⟨s.chosen c, hchosen, fun m hm => ?_⟩
  obtain rfl : m = chosenRows c (s.chosen c) := hm.eq_build
  change _ = finish s (orSingular ((chosenRows c (s.chosen c)).minvert s.par.fieldPoly) >>= _) at h
  refine ⟨fun r hr => ?_, fun inv hinv hpayloads => ?_⟩
  · rw [hr] at h
    exact h.trans (finish_raise s (.singular r))
  rw [orSingular_eq_ok.2 hinv, check_bind_ok,
    payloads_ok fun t k ht => hpayloads t k (List.mem_range.1 ht), check_bind_ok] at h
  simp only [hok'.getD_shardBytes] at h
  obtain ⟨b, hb, hread, hframe⟩ := exists_completed_outputs (blocks := s.decodedBlocks c (s.chosen c) inv) length_blocks
    (fun _ => hok'.length_of_mem_blocks) hover h
  have hdt {t : Nat} (ht : t < c.d) : t < c.t := Nat.lt_add_right c.p ht
  have hlt {j : Nat} (hin : InRange j (s.natArg 3) (s.natArg 4)) : j < s.payloadLen := hin.2.trans_le hok'.range_le
  refine ⟨b, hb, fun t k j ht hk hj => ?_, fun t j ht habsent hj hout => ?_,
    fun t j src ht habsent hin hsrc => ?_, fun t j hge ht habsent hin => ?_, hframe⟩
  · exact (hread t j ht hj).trans (hok'.getElem?_blocks_present ht hk hj)
  · exact (hread t j ht hj).trans (hok'.getElem?_blocks_outside ht habsent hj hout)
  · exact (hread t j (hdt ht) (hlt hin)).trans (hok'.getElem?_blocks_data hchosen.1 ht habsent hin hsrc)
  · rw [hread t j ht (hlt hin), getElem?_blocks_parity hge ht habsent hin]
    exact congrArg some (dot_congr (fun _ _ => rfl) fun i hi => by rw [hread i j (hdt hi) (hlt hin)])

/-! ### Recovery -/

/-- The product with an inverse undoes the product with the matrix. -/
theorem dot_of_inverse {poly : BitVec 9} (h8 : poly.getLsbD 8 = true) {inv a : Matrix} {n t : Nat}
    (h : (inv.mtimes poly a).IsIdentity n) (hcols : inv.cols = n) (hacols : a.cols = n) {y z : Nat → Byte}
    (hz : ∀ i, i < n → z i = dot poly n (a.get i) y) (ht : t < n) : dot poly n (inv.get t) z = y t := by
  obtain ⟨hrows, -, -, hunit⟩ := h
  have hentry (k : Nat) (hk : k < n) : (dot poly n (inv.get t) fun i => a.get i k) = if k = t then 1 else 0 := by
    rw [← hcols, ← Matrix.get_mtimes _ _ (hrows.symm ▸ ht) (hacols.symm ▸ hk), hunit t k ht hk]
    exact if_congr eq_comm rfl rfl
  calc dot poly n (inv.get t) z
      _ = dot poly n (inv.get t) fun i => dot poly n (a.get i) y := dot_congr (fun _ _ => rfl) hz
      _ = dot poly n (fun k => dot poly n (inv.get t) fun i => a.get i k) y := (dot_dot h8).symm
      _ = y t := by rw [dot_comm, dot_unit_right h8 ht hentry]

theorem get_chosenRows {chosen : List Nat} {r k : Nat} (hr : r < c.d) (hk : k < c.d) :
    (chosenRows c chosen).get r k = c.em.get (chosen.getD r 0) k :=
  Matrix.get_build c.d c.d (fun r k => c.em.get (chosen.getD r 0) k) r k hr hk

section Chosen

variable {chosen : List Nat} (h : s.IsChosen c chosen)
include h

theorem mem_of_isChosen {i : Nat} (hi : i < c.d) : chosen.getD i 0 < c.t ∧ s.ShardPresent (chosen.getD i 0) := by
  obtain ⟨hlen, -, hpresent, -⟩ := h
  rw [List.getD_eq_getElem _ _ (hlen ▸ hi)]
  exact hpresent _ (List.getElem_mem _)

/-- The rows chosen are distinct rows of the encoding matrix. -/
theorem invertible_chosenRows {poly : BitVec 9} (hirr : IrreduciblePoly poly) (hok : c.Ok)
    (hem : buildEM poly c.d c.p = .ok c.em) : (chosenRows c chosen).Invertible poly := by
  refine invertible_of_encodingMatrix_rows hirr hok.total_le hem (fun i hi => (mem_of_isChosen h hi).1)
    (fun i j hij hj => ?_) (Matrix.build_is ..)
  obtain ⟨hlen, hsorted, -⟩ := h
  rw [List.getD_eq_getElem _ _ (hlen ▸ hij.trans hj), List.getD_eq_getElem _ _ (hlen ▸ hj)]
  exact (List.pairwise_iff_getElem.1 hsorted i j _ _ hij).ne

end Chosen

/-- The present payloads are those of a consistent encoding (43_erasure_coder.md R214). -/
structure State.Encodes (s : State) (c : Coder) (shard : Nat → Nat → Byte) : Prop where
  consistent : ∀ t j, t < c.t → j < s.payloadLen →
    shard t j = dot s.par.fieldPoly c.d (c.em.get t) fun i => shard i j
  stored : ∀ t k j, s.Carries t k → j < s.payloadLen → s.mem.read (s.base k + 1 + j) = some (shard t j)

section Encodes

variable {shard : Nat → Nat → Byte} (h : s.Encodes c shard)
include h

theorem State.Encodes.written {t k : Nat} (hk : s.Carries t k) : s.Written (s.base k + 1) s.payloadLen :=
  fun j hj => Option.isSome_of_eq_some (h.stored t k j hk hj)

theorem State.Encodes.byteAt_eq {t k j : Nat} (hk : s.Carries t k) (hj : j < s.payloadLen) :
    s.byteAt (s.base k + 1 + j) = shard t j := by
  rw [State.byteAt, h.stored t k j hk hj, Option.getD_some]

/-- An absent data shard comes back from the chosen ones by the inverse of their rows. -/
theorem State.Encodes.dot_inverse (h8 : s.par.fieldPoly.getLsbD 8 = true) {chosen : List Nat} {inv : Matrix}
    (hchosen : s.IsChosen c chosen) (hinv : (inv.mtimes s.par.fieldPoly (chosenRows c chosen)).IsIdentity c.d)
    (hcols : inv.cols = c.d) {src : Nat → Nat} (hsrc : ∀ i, i < c.d → s.Carries (chosen.getD i 0) (src i)) {t j : Nat}
    (ht : t < c.d) (hj : j < s.payloadLen) :
    (dot s.par.fieldPoly c.d (inv.get t) fun i => s.byteAt (s.base (src i) + 1 + j)) = shard t j := by
  refine dot_of_inverse h8 hinv hcols rfl (y := fun i => shard i j) (fun i hi => ?_) ht
  rw [h.byteAt_eq (hsrc i hi) hj, h.consistent _ j (mem_of_isChosen hchosen hi).1 hj]
  exact dot_congr (fun k hk => (get_chosenRows hi hk).symm) fun _ _ => rfl

/-- An absent parity shard comes back from the data shards by its row of PR. -/
theorem State.Encodes.dot_parity (hok : c.Ok) {t j : Nat} (hdt : c.d ≤ t) (ht : t < c.t) (hj : j < s.payloadLen) :
    (dot s.par.fieldPoly c.d (c.pr.get (t - c.d)) fun i => shard i j) = shard t j := by
  have hrow : t - c.d < c.p := by rw [Coder.t] at ht; omega
  rw [h.consistent t j ht hj]
  exact dot_congr (fun i hi => by rw [hok.pr_get _ i hrow hi, Nat.add_sub_cancel' hdt]) fun _ _ => rfl

/-- The fast path writes the data shards (43_erasure_coder.md R212, R214). -/
theorem State.Encodes.fast_recovers (hc : s.coder = some c) (hok : c.Ok) (hchecks : Passes (s.decodeChecks c))
    (hwritten : ∀ k ∈ s.pres, s.Written (s.base k) 1) (htags : Passes (s.tagChecks c)) (hfast : s.Fast c)
    (hout : Passes (s.orderCheck c :: s.outputChecks c.d)) :
    ∃ m : Memory, exec .decode s = .next { s with mem := m, result0 := BitVec.ofNat 32 c.d, result1 := 1 }.completed ∧
      ∀ t j, t < c.d → j < s.payloadLen → m.read (s.base (s.natArg 2 + t) + j) = some (shard t j) := by
  obtain ⟨m, hm, hcopied, -⟩ := (decodeFastPath s c hc hok hfast hchecks hwritten htags).of_passes hout
    fun t k _ => h.written
  refine ⟨m, hm, fun t j ht hj => ?_⟩
  obtain ⟨k, hk⟩ := shardPresent_of_order (List.forall_mem_cons.1 hout).1 ht
  rw [hcopied t k j ht hk hj, h.byteAt_eq hk hj]

/-- The general path writes all T shards: the present ones whole, the others over the range (43_erasure_coder.md R213,
R214). -/
theorem State.Encodes.general_recovers (hirr : IrreduciblePoly s.par.fieldPoly) (hc : s.coder = some c) (hok : c.Ok)
    (hem : buildEM s.par.fieldPoly c.d c.p = .ok c.em) (hchecks : Passes (s.decodeChecks c))
    (hwritten : ∀ k ∈ s.pres, s.Written (s.base k) 1) (htags : Passes (s.tagChecks c)) (hfast : ¬ s.Fast c)
    (hout : Passes (s.outputChecks c.t)) :
    ∃ m : Memory, exec .decode s = .next { s with mem := m, result0 := BitVec.ofNat 32 c.d, result1 := 0 }.completed ∧
      ∀ t j, t < c.t → j < s.payloadLen → s.ShardPresent t ∨ InRange j (s.natArg 3) (s.natArg 4) →
        m.read (s.base (s.natArg 2 + t) + j) = some (shard t j) := by
  obtain ⟨chosen, hchosen, hpath⟩ := (decodeGeneralPath s c hc hok hfast hchecks hwritten htags).of_passes hout
  obtain ⟨inv, hinv, -, hleft⟩ := (invertible_chosenRows hchosen hirr hok hem).minvert hirr
  have hcols : inv.cols = c.d := (Matrix.minvert_shape _ _ inv hinv).2.1
  obtain ⟨m, hm, hcopied, -, hdata, hparity, -⟩ :=
    (hpath _ (Matrix.build_is ..)).2 inv hinv fun t k _ => h.written
  choose! src hsrc using fun i (hi : i < c.d) => (mem_of_isChosen hchosen hi).2
  have hdt {t : Nat} (ht : t < c.d) : t < c.t := Nat.lt_add_right c.p ht
  have hpresent (t j : Nat) (ht : t < c.t) (hj : j < s.payloadLen) (hp : s.ShardPresent t) :
      m.read (s.base (s.natArg 2 + t) + j) = some (shard t j) := by
    obtain ⟨k, hk⟩ := hp
    rw [hcopied t k j ht hk hj, h.byteAt_eq hk hj]
  have hdataShard (t j : Nat) (ht : t < c.d) (hj : j < s.payloadLen) (hin : InRange j (s.natArg 3) (s.natArg 4)) :
      m.read (s.base (s.natArg 2 + t) + j) = some (shard t j) := by
    by_cases hp : s.ShardPresent t
    · exact hpresent t j (hdt ht) hj hp
    · rw [hdata t j src ht hp hin hsrc, h.dot_inverse hirr.1 hchosen hleft hcols hsrc ht hj]
  refine ⟨m, hm, fun t j ht hj hor => ?_⟩
  by_cases hp : s.ShardPresent t
  · exact hpresent t j ht hj hp
  have hin := hor.resolve_left hp
  rcases Nat.lt_or_ge t c.d with hlt | hge
  · exact hdataShard t j hlt hj hin
  · rw [hparity t j hge ht hp hin, ← h.dot_parity hok hge ht hj]
    exact congrArg some (dot_congr (fun _ _ => rfl) fun i hi => by rw [hdataShard i j hi hj hin, Option.getD_some])

end Encodes

/-- Settles O60: the two paths (`fast_recovers`, `general_recovers`). -/
theorem decodeRecoversShards : Obligations.DecodeRecoversShards := by
  intro s c shard hirr hc hok hem hchecks hwritten htags hfastOut hgeneralOut hconsistent hstored
  have hencodes : s.Encodes c shard := ⟨hconsistent, hstored⟩
  have hlt {j : Nat} (hin : InRange j (s.natArg 3) (s.natArg 4)) : j < s.payloadLen :=
    hin.2.trans_le (State.tagsOk_of_passes hchecks htags).range_le
  by_cases hfast : s.Fast c
  · obtain ⟨m, hm, hread⟩ := hencodes.fast_recovers hc hok hchecks hwritten htags hfast (hfastOut hfast)
    have hdata {t : Nat} (ht : t < c.d ∨ ¬ s.Fast c ∧ t < c.t) : t < c.d := ht.resolve_right fun h => h.1 hfast
    exact ⟨m, 1, hm, fun t j ht hin => hread t j (hdata ht) (hlt hin), fun t j ht _ hj => hread t j (hdata ht) hj⟩
  · obtain ⟨m, hm, hread⟩ :=
      hencodes.general_recovers hirr hc hok hem hchecks hwritten htags hfast (hgeneralOut hfast)
    have hshard {t : Nat} (ht : t < c.d ∨ ¬ s.Fast c ∧ t < c.t) : t < c.t :=
      ht.elim (fun h => Nat.lt_add_right c.p h) And.right
    exact ⟨m, 0, hm, fun t j ht hin => hread t j (hshard ht) (hlt hin) (.inr hin),
      fun t j ht hp hj => hread t j (hshard ht) hj (.inl hp)⟩

end Sys2Proof.Machine
end

section
/-! PROOF. The command in flight (44_control.md R240, R242): the step runs the word, and every completion leaves the
report of the command's success or error. -/

namespace Sys2Proof.Machine

/-! ### The word in flight -/

theorem engineStep_busy {s : State} {c : Command} (h : s.run = .busy c) : engineStep s = runWord c.word s := by
  rw [engineStep, h]

/-- The engine's move, next in the list of inputs (log 1). -/
theorem step_engine {s : State} {c : Command} {rest : List Input} (hrun : s.run = .busy c)
    (hin : s.inputs = .engine :: rest) : step s = runWord c.word { s with inputs := rest } :=
  (step_cons hin).trans (engineStep_busy (s := { s with inputs := rest }) hrun)

theorem tableWord_toNat (w : Word) : tableWord 32 w.toNat = w := by
  rw [tableWord, Nat.mod_eq_of_lt w.isLt, BitVec.ofNat_toNat, BitVec.setWidth_eq]

/-- The word placed by `withFetchWord` runs with the inputs of `s` still to come (log 2). -/
theorem step_withFetchWord (s : State) (w : Word) : step (s.withFetchWord 32 w.toNat) = runWord w (s.accept w) := by
  rw [State.withFetchWord, State.placeWord, tableWord_toNat]
  exact step_engine (c := { word := w, args := s.args }) rfl rfl

/-- Settles O4: each form of the step is `runWord` of the word in flight, which is `exec` of what it decodes to. -/
theorem stepRunsDecodedCommand : Obligations.StepRunsDecodedCommand := by
  refine ⟨fun s c i hrun hdec => ⟨fun hin => ?_, fun rest hin => ?_⟩, fun s w i hdec => ?_⟩
  · exact (step_busy hrun hin).trans (runWord_of_ok hdec)
  · exact (step_engine hrun hin).trans (runWord_of_ok hdec)
  · exact (step_withFetchWord s w).trans (runWord_of_ok hdec)

/-- Everything running a word can do: the command ends, or the read of a byte that has no value stops the model. -/
theorem runWord_cases (w : Word) (s : State) :
    (∃ i t, runWord w s = .next t ∧ Ending s i t) ∨
    ∃ addr, runWord w s = .fault (.unwrittenByte addr) ∧ s.mem.read addr = none ∧ addr < s.par.bufBytes := by
  have hstops := runWord_stops (s := s) w
  cases h : runWord w s with
  | next t =>
    obtain ⟨i, hend⟩ := runWord_ending h
    exact .inl ⟨i, t, rfl, hend⟩
  | fault f =>
    obtain ⟨addr, rfl, hnone, haddr⟩ := (h ▸ hstops).of_fault
    exact .inr ⟨addr, rfl, hnone, haddr⟩
  | refused r => exact absurd h (hstops.not_refused r)

/-! ### What a completion reports -/

/-- `u` has the command in flight, ERR and SRST_PENDING of `s`: what a completion in `u` reads beside its report. -/
structure State.SameCommand (s u : State) : Prop where
  cmd : u.cmd = s.cmd
  err : u.err = s.err
  srstPending : u.srstPending = s.srstPending

theorem Effect.sameCommand {i : Instr} {s u : State} (h : Effect s i u) : s.SameCommand u := by
  cases h <;> exact ⟨rfl, rfl, rfl⟩

theorem Raise.cause_ne_zero (r : Raise) : r.cause ≠ 0 := by cases r <;> simp [Raise.cause]

/-- Every end of a command is a completion: a success with an empty report, or an error with a cause and ERR set. -/
theorem Ending.exists_finished {i : Instr} {s t : State} (h : Ending s i t) :
    ∃ u detail cause info failed, s.SameCommand u ∧ t = u.finished detail cause info failed ∧
      (cause = 0 → detail = 0 ∧ info = 0 ∧ failed = false) ∧ (cause ≠ 0 → failed = true) := by
  cases h with
  | success hu => exact ⟨_, _, _, _, _, hu.sameCommand, rfl, fun _ => ⟨rfl, rfl, rfl⟩, fun hc => absurd rfl hc⟩
  | failure r =>
    exact ⟨s, _, _, _, _, ⟨rfl, rfl, rfl⟩, rfl, fun hc => absurd hc r.cause_ne_zero, fun _ => rfl⟩
  | singular _ rows cols row =>
    exact ⟨s.scrambleSlot _ rows cols, _, _, _, _, ⟨rfl, rfl, rfl⟩, rfl, fun hc => absurd hc (by decide),
      fun _ => rfl⟩

theorem Ending.run_idle {i : Instr} {s t : State} (h : Ending s i t) : t.run = .idle := by
  obtain ⟨u, _, _, _, _, -, rfl, -⟩ := h.exists_finished
  exact u.finished_run ..

section Finished

variable {s : State} (hs : s.srstPending = false) (detail cause : Byte) (info : Nat) (failed : Bool)
include hs

/-- ERR_CODE's third byte is the opcode (10_state.md R28). -/
theorem State.finished_opcode :
    (s.finished detail cause info failed).errCode.extractLsb' 16 8 = s.cmd.word.extractLsb' 0 8 := by
  rw [State.finished_no_reset _ _ _ _ _ hs]
  exact (BitVec.extractLsb'_append_eq_of_le (by decide)).trans <|
    (BitVec.extractLsb'_append_eq_of_le (by decide)).trans BitVec.extractLsb'_append_eq_right

/-- ERR_CODE's second byte is the detail (10_state.md R28). -/
theorem State.finished_detail : (s.finished detail cause info failed).errCode.extractLsb' 8 8 = detail := by
  rw [State.finished_no_reset _ _ _ _ _ hs]
  exact (BitVec.extractLsb'_append_eq_of_le (by decide)).trans BitVec.extractLsb'_append_eq_right

theorem State.finished_errInfo : (s.finished detail cause info failed).errInfo = BitVec.ofNat 32 info := by
  rw [State.finished_no_reset _ _ _ _ _ hs]

theorem State.finished_done : (s.finished detail cause info failed).done = true := by
  rw [State.finished_no_reset _ _ _ _ _ hs]

theorem State.finished_err : (s.finished detail cause info failed).err = (s.err || failed) := by
  rw [State.finished_no_reset _ _ _ _ _ hs]

end Finished

/-- Settles O17: every end of the word in flight (`runWord_cases`) is a completion (`Ending.exists_finished`), read
field by field. -/
theorem completion : Obligations.Completion := by
  intro s c hrun hin hs
  rw [step_busy hrun hin]
  refine (runWord_cases c.word s).imp_left ?_
  rintro ⟨i, t, ht, hend⟩
  have hidle := hend.run_idle
  obtain ⟨u, detail, cause, info, failed, hu, rfl, hok, hfailed⟩ := hend.exists_finished
  have hp : u.srstPending = false := hu.srstPending.trans hs
  have hopcode : u.cmd.word.extractLsb' 0 8 = c.word.extractLsb' 0 8 := by rw [hu.cmd, s.cmd_busy c hrun]
  refine ⟨_, ht, hidle, State.finished_done hp .., State.finished_reserved hp ..,
    (State.finished_opcode hp ..).trans hopcode, ?_, ?_⟩ <;> rw [State.finished_cause hp]
  · intro hcause
    obtain ⟨rfl, rfl, rfl⟩ := hok hcause
    exact ⟨State.finished_detail hp .., State.finished_errInfo hp ..,
      (State.finished_err hp ..).trans ((Bool.or_false _).trans hu.err)⟩
  · intro hcause
    rw [State.finished_err hp, hfailed hcause, Bool.or_true]

/-! ### NOP -/

/-- The success of the word of NOP reports 0, and so does the soft reset that may follow (44_control.md R240, R246). -/
theorem State.completed_report_of_word_zero {s : State} (h : s.cmd.word = 0) :
    s.completed.errCode = 0 ∧ s.completed.errInfo = 0 := by
  cases hp : s.srstPending with
  | true =>
    rw [State.completed, State.finished_reset _ _ _ _ _ hp]
    exact ⟨rfl, rfl⟩
  | false =>
    rw [State.completed, State.finished_no_reset _ _ _ _ _ hp, h]
    exact ⟨rfl, rfl⟩

/-- Settles O19: NOP is its completion alone, a success (`State.finished_done`, `State.finished_err`). -/
theorem nopOnlyCompletes : Obligations.NopOnlyCompletes := by
  refine ⟨isEncoding_encode .nop, rfl, fun s => ⟨finish_ok s s, fun hword => ?_, fun hs => ?_⟩⟩
  · exact State.completed_report_of_word_zero hword
  · exact ⟨State.finished_done hs .., (State.finished_err hs ..).trans (Bool.or_false _)⟩

end Sys2Proof.Machine
end

section
/-! PROOF. The host's writes (44_control.md R241, R243, R244; 10_state.md R45, R46): the register at each offset, and
what a write to that register does. -/

namespace Sys2Proof.Machine

/-! ### CMD -/

/-- 44_control.md R243. -/
theorem State.writeCmd_busy {s : State} (h : s.busy = true) (w : Word) : s.writeCmd w = { s with overrun := true } :=
  if_pos h

/-- 44_control.md R241. -/
theorem State.writeCmd_idle {s : State} (h : s.run = .idle) (w : Word) : s.writeCmd w = s.accept w :=
  if_neg (by simp [State.busy_of_idle h])

theorem State.busy_eq_true_iff {s : State} : s.busy = true ↔ ∃ c, s.run = .busy c := by
  cases h : s.run <;> simp [State.busy, h]

/-- Settles O10: the two cases of a CMD write, and for the word in flight the cases of `runWord_cases`. -/
theorem cmdWrites : Obligations.CmdWrites := by
  refine ⟨fun s c w hrun => ?_, fun s w hidle => ⟨?_, fun t hrun hin => ?_⟩⟩
  · exact congrArg _ (State.writeCmd_busy (State.busy_eq_true_iff.2 ⟨c, hrun⟩) w)
  · exact congrArg _ (State.writeCmd_idle hidle w)
  · rw [step_busy hrun hin]
    rcases runWord_cases w t with ⟨i, u, hu, hend⟩ | ⟨addr, hfault, hnone, -⟩
    · exact .inl ⟨u, hu, hend.run_idle⟩
    · exact .inr ⟨addr, hfault, hnone⟩

/-! ### The other registers -/

/-- CTRL without a soft-reset request (44_control.md R244). -/
theorem State.writeCtrl_of_no_request (s : State) {v : Word} (h : v.getLsbD 1 = false) :
    s.writeCtrl v = { s with ie := v.getLsbD 0 } := if_neg (by rw [h]; decide)

/-- The registers a host write can change (10_state.md R44). -/
def Reg.isWritable : Reg → Bool
  | .ctrl | .status | .cmd | .arg _ | .bdBase _ | .bdLen _ => true
  | _ => false

/-- 10_state.md R45, R46. -/
theorem State.writeReg_readOnly (s : State) (v : Word) {r : Reg} (h : r.isWritable = false) :
    s.writeReg v r = .next s := by
  cases r with
  | ctrl | status | cmd | arg | bdBase | bdLen => cases h
  | _ => rfl

/-- 10_state.md R44: the offsets below 0x20000 that hold no writable register. -/
theorem regAt_readOnly {o : Nat} (ho : o < 0x20000)
    (h : o < 0x00008 ∨ (0x00014 ≤ o ∧ o < 0x00040) ∨ (0x00060 ≤ o ∧ o < 0x01000) ∨ 0x03000 ≤ o) :
    (regAt (BitVec.ofNat 15 (o / 4))).isWritable = false := by
  by_cases hlow : o < 0x00040
  · have hread : ∀ n < 16, n < 2 ∨ 5 ≤ n → (regAt (BitVec.ofNat 15 n)).isWritable = false := by decide
    exact hread _ (by omega) (by omega)
  by_cases htable : 0x10000 ≤ o
  · rw [regAt_multab (by omega)]; rfl
  · rw [regAt_reserved (by omega)]; rfl

/-- A descriptor write while IDLE (44_control.md R244). -/
theorem State.writeDesc_idle {s : State} (h : s.run = .idle) (k : Nat) (d : Desc) :
    s.writeDesc k d = .next (s.setDesc k d) := if_neg (by simp [State.busy_of_idle h])

theorem State.writeOffset_bdBase {s : State} {k : Nat} (hidle : s.run = .idle) (hk : k < 1024) (v : Word) :
    s.writeOffset (0x01000 + 8 * k) v = .next (s.setDesc k { s.desc k with base := v }) := by
  have hword : (0x01000 + 8 * k) / 4 = 0x400 + 2 * k := by omega
  rw [State.writeOffset, State.mmioWrite, hword, regAt_bdBase hk]
  exact State.writeDesc_idle hidle ..

theorem State.writeOffset_bdLen {s : State} {k : Nat} (hidle : s.run = .idle) (hk : k < 1024) (v : Word) :
    s.writeOffset (0x01004 + 8 * k) v = .next (s.setDesc k { s.desc k with len := v }) := by
  have hword : (0x01004 + 8 * k) / 4 = 0x401 + 2 * k := by omega
  rw [State.writeOffset, State.mmioWrite, hword, regAt_bdLen hk]
  exact State.writeDesc_idle hidle ..

/-- Settles O11: the register at each offset (`regAt`), and what a write to it does. -/
theorem hostWrites : Obligations.HostWrites := by
  intro s v hbd
  refine ⟨fun hv => congrArg _ (s.writeCtrl_of_no_request hv), rfl, fun i => ?_, fun k hk hidle => ⟨?_, ?_⟩,
    fun o ho _ hr => ?_⟩
  · have hword : (0x00040 + 4 * i.val) / 4 = 0x10 + i.val := by omega
    rw [State.writeOffset, State.mmioWrite, hword, regAt_arg]
    rfl
  · exact ⟨_, State.writeOffset_bdBase hidle hk v, rfl, State.desc_setDesc_same _ _ _ hbd, fun j hj =>
      State.desc_setDesc_other _ _ hbd hj.symm⟩
  · exact ⟨_, State.writeOffset_bdLen hidle hk v, rfl, State.desc_setDesc_same _ _ _ hbd, fun j hj =>
      State.desc_setDesc_other _ _ hbd hj.symm⟩
  · exact s.writeReg_readOnly v (regAt_readOnly ho hr)

end Sys2Proof.Machine
end

section
/-! PROOF. The soft reset (44_control.md R246): the reset values it leaves, and that a pending one takes nothing from
the command in flight, whose checks, reads and BUFMEM writes do not see SRST_PENDING. -/

namespace Sys2Proof.Machine

/-! ### The reset values -/

/-- 70_reset_and_hazards.md R290. -/
theorem State.resetValues_softReset (s : State) : ResetValues s.softReset := by
  obtain ⟨-, hid, hversion, -, -, -, -, -, -, -, -, hnone, hnmat, hndesc, hbufmem, hpoly, hargs, hbd, -⟩ :=
    hostReads s.softReset
  obtain ⟨hd, hp, ht⟩ := hnone rfl
  exact {
    id := hid
    version := hversion
    ctrl := rfl
    status := s.softReset.statusWord_eq
    errCode := rfl
    errInfo := rfl
    result0 := rfl
    result1 := rfl
    cfgD := hd
    cfgP := hp
    cfgT := ht
    nmat := hnmat
    ndesc := hndesc
    bufmem := hbufmem
    poly := hpoly
    args := fun i hi => (hargs ⟨i, hi⟩).trans (by simp)
    bdBase := fun k hk => (hbd k hk).1
    bdLen := fun k hk => (hbd k hk).2
    slots := fun m => by rw [State.slot_softReset]; exact ⟨rfl, rfl⟩
    coder := rfl
    table := fun a b j hj hindex => by
      have hbyte := s.softReset.readOffset_window (w := a.toNat * 64 + b.toNat / 4) (by omega) hj
      have hfst : (256 * a.toNat + b.toNat) / 256 = a.toNat := by omega
      have hsnd : (256 * a.toNat + b.toNat) % 256 = b.toNat := by omega
      rw [hbyte, hindex, hfst, hsnd, BitVec.ofNat_toNat, BitVec.ofNat_toNat, BitVec.setWidth_eq, BitVec.setWidth_eq]
    run := rfl
    pending := rfl
    irq := rfl }

/-- 44_control.md R246: a command that ends with a soft reset pending leaves the reset values. -/
theorem Ending.resetValues {i : Instr} {s t : State} (h : Ending s i t) (hs : s.srstPending = true) :
    ResetValues t := by
  obtain ⟨u, _, _, _, _, hu, rfl, -⟩ := h.exists_finished
  rw [u.finished_reset _ _ _ _ (hu.srstPending.trans hs)]
  exact u.resetValues_softReset

/-! ### Reads and writes of BUFMEM from the same contents -/

/-- `s'` has the BUFMEM and the descriptors of `s`. -/
structure State.SameBuffers (s s' : State) : Prop where
  mem : s'.mem = s.mem
  bd : s'.bd = s.bd

namespace State.SameBuffers

variable {s s' : State} (h : s.SameBuffers s')
include h

theorem base (k : Nat) : s'.base k = s.base k := by rw [State.base, State.base, State.desc, State.desc, h.bd]

theorem readByte (addr : Nat) : s'.readByte addr = s.readByte addr := by rw [State.readByte, State.readByte, h.mem]

theorem readBlock (addr n : Nat) : s'.readBlock addr n = s.readBlock addr n := by
  induction n generalizing addr with
  | zero => rfl
  | succ n ih => rw [State.readBlock, State.readBlock, ih, h.readByte]

theorem readBlocks (off cnt : Nat) (ks : List Nat) : s'.readBlocks off cnt ks = s.readBlocks off cnt ks := by
  induction ks with
  | nil => rfl
  | cons k rest ih => rw [State.readBlocks, State.readBlocks, ih, h.readBlock, h.base]

theorem readTags (ks : List Nat) : s'.readTags ks = s.readTags ks := by
  induction ks with
  | nil => rfl
  | cons k rest ih => rw [State.readTags, State.readTags, ih, h.readByte, h.base]

theorem payloads (pres : List Tagged) (l : Nat) (ts : List Nat) : s'.payloads pres l ts = s.payloads pres l ts := by
  induction ts with
  | nil => rfl
  | cons t rest ih => simp only [State.payloads, State.payload, ih, h.readBlock, h.base]

theorem writeAll (off : Nat) (m : Memory) (l : List (Nat × List Byte)) :
    Memory.writeAll s' off m l = Memory.writeAll s off m l := by
  induction l generalizing m with
  | nil => rfl
  | cons x rest ih => rw [Memory.writeAll, Memory.writeAll, ih, h.base]

theorem writeBlocks_mem (off : Nat) (l : List (Nat × List Byte)) :
    (State.writeBlocks off s' l).mem = (State.writeBlocks off s l).mem := by
  rw [State.writeBlocks_eq, State.writeBlocks_eq, State.setMem_mem, State.setMem_mem, h.writeAll, h.mem]

end State.SameBuffers

/-! ### The command without the pending reset -/

/-- `s` with another SRST_PENDING. -/
def State.withPending (s : State) (b : Bool) : State := { s with srstPending := b }

theorem State.sameBuffers_withPending (s : State) (b : Bool) : s.SameBuffers (s.withPending b) := ⟨rfl, rfl⟩

/-- Two runs of a command's phases stop in the same way, or leave the same BUFMEM. -/
inductive SameMem : Check State → Check State → Prop
  | ok {u u' : State} (h : u'.mem = u.mem) : SameMem (.ok u) (.ok u')
  | error (e : Stop) : SameMem (.error e) (.error e)

/-- If the first run ends in a state, the second does, with the same BUFMEM. -/
def EndsWithSameMem (o o' : Host.Outcome State Fault Refusal) : Prop :=
  ∀ t, o = .next t → ∃ u, o' = .next u ∧ t.mem = u.mem

/-- A check that both runs pass with the same value. -/
theorem SameMem.bind {α : Type} {x x' : Check α} {f f' : α → Check State} (hx : x' = x)
    (h : ∀ a, SameMem (f a) (f' a)) : SameMem (x >>= f) (x' >>= f') := by
  subst hx
  cases x' with
  | ok a => exact h a
  | error e => exact .error e

theorem SameMem.ite {p : Prop} [Decidable p] {c c' k k' : Check State} (h : SameMem c c') (hk : SameMem k k') :
    SameMem (if p then c else k) (if p then c' else k') := by
  split
  · exact h
  · exact hk

theorem SameMem.finish {s s' : State} {c c' : Check State} (hmem : s'.mem = s.mem) (h : SameMem c c') :
    EndsWithSameMem (finish s c) (finish s' c') := by
  intro t ht
  cases h with
  | ok hu =>
    rw [finish_ok] at ht
    cases ht
    exact ⟨_, finish_ok .., (State.finished_mem ..).trans (hu.symm.trans (State.finished_mem ..).symm)⟩
  | error e =>
    cases e with
    | raise r =>
      rw [finish_raise] at ht
      cases ht
      exact ⟨_, finish_raise .., (State.finished_mem ..).trans (hmem.symm.trans (State.finished_mem ..).symm)⟩
    | fault f => cases ht

section Commands

variable {s : State} {b : Bool}

theorem State.codeLoop_withPending {rows : List (List Byte)} {ins outs : List Nat} {off cnt : Nat} :
    SameMem (s.codeLoop rows ins outs off cnt) ((s.withPending b).codeLoop rows ins outs off cnt) :=
  .ite (.ok rfl) <| .bind ((s.sameBuffers_withPending b).readBlocks ..) fun _ =>
    .ok ((s.sameBuffers_withPending b).writeBlocks_mem ..)

theorem State.decodeFast_withPending {c : Coder} {pres : List Tagged} {outs : List Nat} {l : Nat} :
    SameMem (s.decodeFast c pres outs l) ((s.withPending b).decodeFast c pres outs l) :=
  .bind rfl fun _ => .bind rfl fun _ => .bind ((s.sameBuffers_withPending b).payloads ..) fun _ =>
    .ok ((s.sameBuffers_withPending b).writeBlocks_mem ..)

theorem State.decodeGeneral_withPending {c : Coder} {pres : List Tagged} {outs : List Nat} {l off cnt : Nat} :
    SameMem (s.decodeGeneral c pres outs l off cnt) ((s.withPending b).decodeGeneral c pres outs l off cnt) :=
  .bind rfl fun _ => .bind rfl fun _ => .bind ((s.sameBuffers_withPending b).payloads ..) fun _ =>
    .ok ((s.sameBuffers_withPending b).writeBlocks_mem ..)

theorem execMgauss_withPending {d : SlotField} :
    EndsWithSameMem (execMgauss d s) (execMgauss d (s.withPending b)) := by
  have hoperand : gaussOperand d (s.withPending b) = gaussOperand d s := rfl
  have hpar : (s.withPending b).par = s.par := rfl
  unfold execMgauss
  rw [hoperand, hpar]
  split
  next stop _ => exact (SameMem.error stop).finish rfl
  next m _ =>
    split
    next w _ => exact SameMem.finish rfl (.ok rfl)
    next row _ => exact (SameMem.error (.raise (.singular row))).finish rfl

/-- Each `bind` passes over one check or read, which does not see SRST_PENDING; the last step is the effect. -/
theorem exec_withPending (i : Instr) : EndsWithSameMem (exec i s) (exec i (s.withPending b)) := by
  have hsame := s.sameBuffers_withPending b
  cases i with
  | mgauss d => exact execMgauss_withPending
  | nop => exact SameMem.finish (c := .ok s) (c' := .ok (s.withPending b)) hsame.mem (.ok rfl)
  | check a => exact SameMem.finish hsame.mem (.bind rfl fun _ => .error _)
  | code a =>
    refine SameMem.finish hsame.mem ?_
    iterate 10 refine .bind rfl fun _ => ?_
    exact State.codeLoop_withPending
  | encode =>
    refine SameMem.finish hsame.mem ?_
    iterate 8 refine .bind rfl fun _ => ?_
    exact State.codeLoop_withPending
  | decode =>
    refine SameMem.finish hsame.mem ?_
    iterate 7 refine .bind rfl fun _ => ?_
    refine .bind (hsame.readTags _) fun _ => ?_
    iterate 3 refine .bind rfl fun _ => ?_
    exact .ite State.decodeFast_withPending State.decodeGeneral_withPending
  | _ =>
    refine SameMem.finish hsame.mem ?_
    repeat refine .bind rfl fun _ => ?_
    exact .ok rfl

theorem runWord_withPending (w : Word) : EndsWithSameMem (runWord w s) (runWord w (s.withPending b)) := by
  cases h : Sys2Proof.decode w with
  | error r =>
    rw [runWord_of_error h, runWord_of_error h, ← finish_raise, ← finish_raise]
    exact (SameMem.error (.raise r)).finish rfl
  | ok i =>
    rw [runWord_of_ok h, runWord_of_ok h]
    exact exec_withPending i

end Commands

/-! ### The write of CTRL -/

section Request

variable (s : State) {v : Word} (hv : v.getLsbD 1 = true)
include hv

/-- 44_control.md R246, while IDLE: at once. The value written to IE is lost in the reset. -/
theorem State.writeCtrl_request_idle (hidle : s.run = .idle) : s.writeCtrl v = s.softReset :=
  (if_pos hv).trans (if_neg (by simp [State.busy_of_idle hidle]))

/-- 44_control.md R246, while BUSY: the request waits for the command to end. -/
theorem State.writeCtrl_request_busy (hbusy : s.busy = true) :
    s.writeCtrl v = { s with ie := v.getLsbD 0, srstPending := true } := (if_pos hv).trans (if_pos hbusy)

end Request

/-- Settles O15: the two cases of the write; and a command that ends with the reset pending leaves the reset values
(`Ending.resetValues`) and the BUFMEM of the command without it (`runWord_withPending`). -/
theorem softReset : Obligations.SoftReset := by
  refine ⟨fun s v hv => ⟨fun hidle => ?_, fun c hrun => ?_⟩, fun s hbusy hin hs t h => ?_⟩
  · exact ⟨_, congrArg Host.Outcome.next (s.writeCtrl_request_idle hv hidle), s.resetValues_softReset, rfl, rfl⟩
  · exact congrArg _ (s.writeCtrl_request_busy hv (State.busy_eq_true_iff.2 ⟨c, hrun⟩))
  · have hpar := step_par h
    obtain ⟨c, hrun⟩ := State.busy_eq_true_iff.1 hbusy
    rw [step_busy hrun hin] at h
    obtain ⟨i, hend⟩ := runWord_ending h
    obtain ⟨u, hu, hmem⟩ := runWord_withPending (b := false) c.word t h
    exact ⟨u, (step_busy (s := s.withPending false) hrun hin).trans hu, hend.resetValues hs, hmem, hpar⟩

end Sys2Proof.Machine
end

section
/-! PROOF. The errors of each command (60_exceptions.md R272): the errors each shared check can raise, said once, and
from these how a well-formed command can complete. -/

namespace Sys2Proof.Machine

/-! ### What a check phase can raise -/

/-- Every error of the hardware the computation `c` can stop with satisfies `P`. -/
def Raises {α : Type} (c : Check α) (P : Raise → Prop) : Prop := ∀ r, c = .error (.raise r) → P r

section Raises

variable {α β : Type} {P : Raise → Prop} {s : State}

theorem Raises.ok {a : α} : Raises (.ok a) P := fun _ h => nomatch h

theorem Raises.raising {r : Raise} (h : P r) : Raises (raising r : Check α) P := fun _ e =>
  Stop.raise.inj (Except.error.inj e) ▸ h

theorem Raises.bind {x : Check β} {f : β → Check α} (hx : Raises x P) (h : ∀ b, Raises (f b) P) :
    Raises (x >>= f) P := fun r hr =>
  ((check_bind_eq_error x f _).1 hr).elim (hx r) fun ⟨b, _, hf⟩ => h b r hf

theorem Raises.ite {c : Prop} [Decidable c] {x y : Check α} (hx : Raises x P) (hy : Raises y P) :
    Raises (if c then x else y) P := by
  split
  · exact hx
  · exact hy

theorem Raises.raiseIf {c : Prop} [Decidable c] {r : Raise} (h : P r) : Raises (raiseIf c r) P :=
  .ite (.raising h) .ok

/-! ### The checks of the commands -/

/-- The slot fields of a well-formed command raise nothing (30_encoding.md R97 item 4). -/
theorem Raises.checkSlots {fields : List SlotField} (h : fields.all SlotField.ok = true) :
    Raises (checkSlots fields) P := fun _ hr =>
  absurd (((raiseIf_error_iff _ _).1 hr).1.symm.trans h) Bool.false_ne_true

theorem Raises.fieldArg {i : Fin 8} (h : P .fieldValue) : Raises (s.fieldArg i) P :=
  .bind (.raiseIf h) fun _ => .ok

theorem Raises.readSlot {m : SlotField} (h : P .emptySlot) : Raises (s.readSlot m) P :=
  .bind (.raiseIf h) fun _ => .ok

theorem Raises.readCoder (h : P .notConfigured) : Raises s.readCoder P := by
  unfold State.readCoder
  split
  · exact .ok
  · exact .raising h

theorem Raises.rangeCheck {ks : List Nat} {off cnt : Nat} (h : P .bufBounds) : Raises (s.rangeCheck ks off cnt) P :=
  .bind (.raiseIf h) fun _ => .raiseIf h

theorem Raises.checkOutputs {pres : List Tagged} {outs : List Nat} {l : Nat} (hbounds : P .bufBounds)
    (halias : P .bufAlias) : Raises (s.checkOutputs pres outs l) P :=
  .bind (.raiseIf hbounds) fun _ => .raiseIf halias

theorem Raises.gdiv {poly : BitVec 9} {a b : Byte} (hdiv : P .divByZero) (hzero : P .zeroByZero) :
    Raises (gdiv poly a b) P :=
  .bind (.raiseIf hdiv) fun _ => .bind (.raiseIf hzero) fun _ => .ok

/-- An inversion with the dividend 1 never finds 0 by 0 (40_field.md R124). -/
theorem Raises.gdiv_one {poly : BitVec 9} {b : Byte} (hdiv : P .divByZero) : Raises (Machine.gdiv poly 1 b) P :=
  .bind (.raiseIf hdiv) fun _ =>
    .bind (fun r hr => absurd ((raiseIf_error_iff _ _).1 hr).1.2 (by decide)) fun _ => .ok

theorem Raises.entryValue {value : Int} (h : P .fieldValue) : Raises (entryValue value) P :=
  .bind (.raiseIf h) fun _ => .ok

theorem Raises.orSingular {x : Except Nat α} (h : ∀ row, P (.singular row)) : Raises (orSingular x) P := by
  cases x with
  | ok v => exact .ok
  | error row => exact .raising (h row)

theorem Raises.buildEM {poly : BitVec 9} {d p : Nat} (h : ∀ row, P (.singular row)) : Raises (buildEM poly d p) P :=
  .bind (.orSingular h) fun _ => .ok

theorem Raises.gaussOperand {d : SlotField} (hslot : [d].all SlotField.ok = true) (hempty : P .emptySlot)
    (hdim : P .dimMismatch) : Raises (gaussOperand d s) P :=
  .bind (.checkSlots hslot) fun _ => .bind (.readSlot hempty) fun _ => .bind (.raiseIf hdim) fun _ => .ok

/-! ### The reads of BUFMEM: they fault and raise nothing -/

theorem Raises.readByte {addr : Nat} : Raises (s.readByte addr) P := by
  unfold State.readByte
  split
  · exact .ok
  · exact fun _ h => nomatch h

theorem Raises.readBlock {addr n : Nat} : Raises (s.readBlock addr n) P := fun _ h =>
  have ⟨_, hfault⟩ := s.readBlock_error addr n _ h
  nomatch hfault

theorem Raises.readBlocks {off cnt : Nat} {ks : List Nat} : Raises (s.readBlocks off cnt ks) P := by
  induction ks with
  | nil => exact .ok
  | cons k rest ih => exact .bind .readBlock fun _ => .bind ih fun _ => .ok

theorem Raises.readTags {ks : List Nat} : Raises (s.readTags ks) P := by
  induction ks with
  | nil => exact .ok
  | cons k rest ih => exact .bind .readByte fun _ => .bind ih fun _ => .ok

theorem Raises.payloads {pres : List Tagged} {l : Nat} {ts : List Nat} : Raises (s.payloads pres l ts) P := by
  induction ts with
  | nil => exact .ok
  | cons t rest ih =>
    unfold State.payloads
    split
    · exact .bind ih fun _ => .ok
    · exact .bind .readBlock fun _ => .bind ih fun _ => .ok

theorem Raises.codeLoop {rows : List (List Byte)} {ins outs : List Nat} {off cnt : Nat} :
    Raises (s.codeLoop rows ins outs off cnt) P :=
  .ite .ok (.bind .readBlocks fun _ => .ok)

end Raises

/-! ### How a well-formed command ends -/

/-- R272's row of command `i` lists the error `r`. -/
def mayRaise (i : Instr) (r : Raise) : Bool := decide ((r.detail, r.cause) ∈ allowedErrors i)

/-- ERR_INFO is 0 but for INVERT and INSUFFICIENT_SHARDS (60_exceptions.md R269). -/
theorem Raise.info_eq_zero_or (r : Raise) :
    r.info = 0 ∨ (r.detail, r.cause) = (1, 3) ∨ (r.detail, r.cause) = (0, 4) := by
  cases r with
  | singular row => exact .inr (.inl rfl)
  | insufficientShards present => exact .inr (.inr rfl)
  | _ => exact .inl rfl

/-- `Reports s i o`: `o` is an outcome that R272 lets the well-formed command `i`, run in `s`, have: a success, an error
of its row, the error of MGAUSS that also spoils its slot (41_matrix.md R167), CONFIG's error of a singular top square
(log 16), or a fault (`exec_stops` says which). -/
inductive Reports (s : State) (i : Instr) : Host.Outcome State Fault Refusal → Prop
  | success (u : State) : Reports s i (.next u.completed)
  | error {r : Raise} (h : mayRaise i r = true) : Reports s i (.next (s.errored r.detail r.cause r.info))
  | spoiled {d : SlotField} (hi : i = .mgauss d) (rows cols row : Nat) :
      Reports s i (.next ((s.scrambleSlot d rows cols).errored 1 3 row))
  | topSingular {row : Nat} (hi : i = .config)
      (h : buildEM s.par.fieldPoly (s.natArg 0) (s.natArg 1) = .error (.raise (.singular row))) :
      Reports s i (.next (s.errored 1 3 row))
  | fault (f : Fault) : Reports s i (.fault f)

theorem Reports.of_raises {s : State} {i : Instr} {P : Raise → Prop} {c : Check State} (h : Raises c P)
    (herror : ∀ r, P r → Reports s i (.next (s.errored r.detail r.cause r.info))) : Reports s i (finish s c) := by
  rcases finish_cases s c with ⟨u, _, e⟩ | ⟨r, hr, e⟩ | ⟨f, _, e⟩ <;> rw [e]
  · exact .success u
  · exact herror r (h r hr)
  · exact .fault f

/-- A command whose checks raise only what its row of R272 lists. -/
theorem Reports.of_finish {s : State} {i : Instr} {c : Check State} (h : Raises c (mayRaise i · = true)) :
    Reports s i (finish s c) := .of_raises h fun _ => .error

section Commands

variable {s : State}

theorem execMgauss_reports {d : SlotField} (hslot : [d].all SlotField.ok = true) :
    Reports s (.mgauss d) (execMgauss d s) := by
  unfold execMgauss
  split
  next stop hstop =>
    refine .of_finish fun r hr => ?_
    cases hr
    exact Raises.gaussOperand (P := (mayRaise (.mgauss d) · = true)) hslot rfl rfl r hstop
  next m _ =>
    split
    · exact .of_finish .ok
    · rw [raising, finish_raise]
      exact .spoiled rfl ..

/-- CONFIG's own checks raise what its row lists; the inversion of the top square can stop it too (log 16). -/
theorem execConfig_reports : Reports s .config (execConfig s) := by
  refine .of_raises (P := fun r => mayRaise .config r = true ∨
    buildEM s.par.fieldPoly (s.natArg 0) (s.natArg 1) = .error (.raise r)) ?_ fun r hr => ?_
  · iterate 3 refine .bind (.raiseIf (.inl rfl)) fun _ => ?_
    exact .bind (fun _ => .inr) fun _ => .ok
  · rcases hr with hr | hr
    · exact .error hr
    · obtain ⟨row, rfl⟩ : ∃ row, r = .singular row :=
        Raises.buildEM (P := fun r => ∃ row, r = .singular row) (fun row => ⟨row, rfl⟩) r hr
      exact .topSingular rfl hr

theorem execDecode_reports : Reports s .decode (execDecode s) := by
  refine .of_finish (.bind (.readCoder rfl) fun _ => ?_)
  iterate 6 refine .bind (.raiseIf rfl) fun _ => ?_
  refine .bind .readTags fun _ => ?_
  iterate 3 refine .bind (.raiseIf rfl) fun _ => ?_
  refine .ite ?fast ?general
  case fast =>
    exact .bind (.raiseIf rfl) fun _ => .bind (.checkOutputs rfl rfl) fun _ => .bind .payloads fun _ => .ok
  case general =>
    exact .bind (.checkOutputs rfl rfl) fun _ => .bind (.orSingular fun _ => rfl) fun _ =>
      .bind .payloads fun _ => .ok

/-- Each `bind` passes over one check of the command, whose error is in the command's row: there the proof is `rfl`. -/
theorem exec_reports {i : Instr} (hwf : i.wellFormed = true) (hcheck : ∀ a, i ≠ .check a) : Reports s i (exec i s) := by
  cases i with
  | check a => exact absurd rfl (hcheck a)
  | nop => exact .of_finish (c := .ok s) .ok
  | fadd | fmul => exact .of_finish (.bind (.fieldArg rfl) fun _ => .bind (.fieldArg rfl) fun _ => .ok)
  | fdiv =>
    exact .of_finish (.bind (.fieldArg rfl) fun _ => .bind (.fieldArg rfl) fun _ => .bind (.gdiv rfl rfl) fun _ => .ok)
  | finv => exact .of_finish (.bind (.fieldArg rfl) fun _ => .bind (.gdiv_one rfl) fun _ => .ok)
  | fexp => exact .of_finish (.bind (.fieldArg rfl) fun _ => .bind (.raiseIf rfl) fun _ => .ok)
  | mcreate d | mident d | mvand d =>
    exact .of_finish (.bind (.checkSlots hwf) fun _ => .bind (.raiseIf rfl) fun _ => .ok)
  | mget a | msub d a | mswap d =>
    exact .of_finish (.bind (.checkSlots hwf) fun _ => .bind (.readSlot rfl) fun _ => .bind (.raiseIf rfl) fun _ => .ok)
  | mset d =>
    exact .of_finish (.bind (.checkSlots hwf) fun _ => .bind (.readSlot rfl) fun _ => .bind (.raiseIf rfl) fun _ =>
      .bind (.entryValue rfl) fun _ => .ok)
  | mdim a => exact .of_finish (.bind (.checkSlots hwf) fun _ => .ok)
  | mgetrow a =>
    refine .of_finish (.bind (.checkSlots hwf) fun _ => .bind (.readSlot rfl) fun _ => ?_)
    iterate 4 refine .bind (.raiseIf rfl) fun _ => ?_
    exact .ok
  | maug d a b =>
    exact .of_finish (.bind (.checkSlots hwf) fun _ => .bind (.readSlot rfl) fun _ => .bind (.readSlot rfl) fun _ =>
      .bind (.raiseIf rfl) fun _ => .bind (.raiseIf rfl) fun _ => .ok)
  | mtimes d a b =>
    exact .of_finish (.bind (.checkSlots hwf) fun _ => .bind (.readSlot rfl) fun _ => .bind (.readSlot rfl) fun _ =>
      .bind (.raiseIf rfl) fun _ => .ok)
  | mgauss d => exact execMgauss_reports hwf
  | minv d a =>
    exact .of_finish (.bind (.checkSlots hwf) fun _ => .bind (.readSlot rfl) fun _ => .bind (.raiseIf rfl) fun _ =>
      .bind (.orSingular fun _ => rfl) fun _ => .ok)
  | code a =>
    refine .of_finish (.bind (.checkSlots hwf) fun _ => .bind (.readSlot rfl) fun _ => ?_)
    iterate 6 refine .bind (.raiseIf rfl) fun _ => ?_
    exact .bind (.rangeCheck rfl) fun _ => .bind (.raiseIf rfl) fun _ => .codeLoop
  | config => exact execConfig_reports
  | encode =>
    refine .of_finish (.bind (.readCoder rfl) fun _ => ?_)
    iterate 5 refine .bind (.raiseIf rfl) fun _ => ?_
    exact .bind (.rangeCheck rfl) fun _ => .bind (.raiseIf rfl) fun _ => .codeLoop
  | decode => exact execDecode_reports
  | emget => exact .of_finish (.bind (.readCoder rfl) fun _ => .bind (.raiseIf rfl) fun _ => .ok)
  | emexport d => exact .of_finish (.bind (.checkSlots hwf) fun _ => .bind (.readCoder rfl) fun _ => .ok)

/-- 42_coding_loop.md R185. -/
theorem exec_check {a : SlotField} (hwf : (Instr.check a).wellFormed = true) :
    exec (.check a) s = .next (s.errored 1 6 0) :=
  have hslot : a.toNat < 8 := by simpa [Instr.wellFormed, Instr.slotFields, SlotField.ok, Config.nmat] using hwf
  ((checkIsUnimplemented a).2 s).2 (Nat.not_le.2 hslot)

end Commands

/-- Settles O47: BAD_SLOT where the command is not well formed, CHECK's one error, and otherwise the outcomes of
`exec_reports`; a fault is an unwritten byte (`exec_stops`). -/
theorem errorsOfEachCommand : Obligations.ErrorsOfEachCommand := by
  intro i s
  cases hwf : i.wellFormed with
  | false => exact .inr (.inl ⟨rfl, exec_of_not_wellFormed s hwf⟩)
  | true =>
    by_cases hcheck : ∃ a, i = .check a
    · obtain ⟨a, rfl⟩ := hcheck
      exact .inr (.inr (.inl ⟨(1, 6), by simp [allowedErrors], 0, rfl, .inl rfl, .inl (exec_check hwf)⟩))
    · have hcheck : ∀ a, i ≠ .check a := not_exists.1 hcheck
      have hreports := exec_reports (s := s) hwf hcheck
      have hstops := exec_stops (s := s) i
      generalize exec i s = out at hreports hstops
      cases hreports with
      | success u => exact .inl ⟨u, rfl, rfl, hcheck⟩
      | @error r h =>
        exact .inr (.inr (.inl ⟨_, of_decide_eq_true h, r.info, rfl, r.info_eq_zero_or, .inl rfl⟩))
      | @spoiled d hi rows cols row =>
        exact .inr (.inr (.inl ⟨(1, 3), by simp [hi, allowedErrors], row, rfl, .inr (.inl rfl),
          .inr ⟨d, s.scrambleSlot d rows cols, hi, rfl, rfl, rfl, fun _ hj => s.slot_scrambleSlot_other _ _ hj.symm⟩⟩))
      | topSingular hi h => exact .inr (.inr (.inr (.inl ⟨_, hi, h, rfl⟩)))
      | fault f =>
        obtain ⟨addr, rfl, hnone, _⟩ := hstops.of_fault
        exact .inr (.inr (.inr (.inr ⟨addr, rfl, hnone⟩)))

end Sys2Proof.Machine
end

section
/-! PROOF. The reset state (70_reset_and_hazards.md R290, R291): a hardware reset is a soft reset over a BUFMEM without
values, and the reset state is its own soft reset, so both have the values a soft reset leaves. The reset state meets
the invariant. -/

namespace Sys2Proof.Machine

/-- The two resets differ in BUFMEM alone (70_reset_and_hazards.md R291). -/
theorem State.hardReset_eq_softReset (s : State) : s.hardReset = (s.setMem []).softReset := rfl

theorem State.softReset_reset : State.reset.softReset = State.reset := rfl

/-- 70_reset_and_hazards.md R290. -/
theorem State.resetValues_hardReset (s : State) : ResetValues s.hardReset :=
  s.hardReset_eq_softReset ▸ (s.setMem []).resetValues_softReset

/-- 70_reset_and_hazards.md R290. -/
theorem State.resetValues_reset : ResetValues State.reset :=
  State.softReset_reset ▸ State.reset.resetValues_softReset

/-- 10_state.md R30. -/
theorem State.slot_reset (m : SlotField) : State.reset.slot m = Matrix.empty := State.reset.slot_softReset m

/-- Settles O1: each of the three states has the values a soft reset leaves. -/
theorem resetState : Obligations.ResetState := by
  refine ⟨State.resetValues_reset, fun _ => rfl, fun s => ⟨?hard, ?soft⟩⟩
  case hard => exact ⟨s.hardReset, rfl, s.resetValues_hardReset, fun _ => rfl, rfl⟩
  case soft => exact ⟨s.resetValues_softReset, s.softReset_mem, s.softReset_par⟩

/-- The reset state has nothing the invariant could fail of: no byte, descriptor or coder, and every slot empty. -/
theorem State.reset_inv : State.reset.Inv where
  mem_wf := State.reset_mem_wf
  mem_below _ hx := nomatch hx
  bd_ok := ⟨.nil, fun _ hx => (nomatch hx), fun _ hx => (nomatch hx)⟩
  slots_ok m := by rw [State.slot_reset]; exact Matrix.empty_slotOk
  coder_ok _ hc := nomatch hc
  coder_em _ hc := nomatch hc
  pending_busy hp := nomatch hp
  report_reserved := by decide
  report_cause := by decide

/-- Settles O2: the base case of the invariant O3 keeps. -/
theorem resetMeetsInvariant : Obligations.ResetMeetsInvariant := State.reset_inv

end Sys2Proof.Machine
end
